-- ==== Sys2Proof/Word.lean ====
section
/-! DEFINITION. The words B32C moves (20_memory.md R50, R51) and the plainest arithmetic of the spec's notation
(00_scope.md section 5). -/

namespace Sys2Proof

/-- An 8-bit buffer entry: a byte of ENCODE's input, or a character code (00_scope.md R4, BYTE_W). -/
abbrev Byte := BitVec 8

/-- A host data word (00_scope.md R4, BUS_W; 20_memory.md R51). -/
abbrev Word := BitVec 32

/-- A host word address (00_scope.md R4, ADDR_W; 20_memory.md R51). -/
abbrev Addr := BitVec 16

/-- `ceil(a / b)` of 00_scope.md section 5. -/
def ceilDiv (a b : Nat) : Nat := (a + b - 1) / b

end Sys2Proof
end

