-- ==== Sys2Proof/Syntax.lean ====
section
/-! DEFINITION. B32C's instructions: the three commands of the opcode table (30_encoding.md R93). -/

namespace Sys2Proof

/-- A command word that selects a row of the opcode table. `f` is field F and `a` is field A (30_encoding.md R82, R83);
CLEAR carries both and ignores them (40_commands.md R103). -/
inductive Instr where
  /-- CLEAR, OP = 0b00 (40_commands.md R103). -/
  | clear (f a : Bool)
  /-- ENCODE, OP = 0b01; `f` is emitPadding, `a` the argument-absent marker (40_commands.md R104). -/
  | encode (f a : Bool)
  /-- DECODE, OP = 0b10; `f` is strictPadding, `a` the argument-absent marker (40_commands.md R105). -/
  | decode (f a : Bool)
  deriving DecidableEq, Repr

end Sys2Proof
end

