-- ==== Sys2Proof/Config.lean ====
section
/-! DEFINITION. What an implementation of B32C fixes, and the values the spec leaves unspecified. None of these constants
has a body, so no proof can see their values. -/

namespace Sys2Proof

/-- The legal depths of the input buffer: `1 <= IBUF_DEPTH <= 16384` (00_scope.md R4, R5). -/
abbrev IbufDepth := { d : Nat // 1 ≤ d ∧ d ≤ 16384 }

/-- The chip's IBUF_DEPTH less one: the OPEN parameter of 00_scope.md R4 (92 D8). DESIGN CHOICE (log 1): an
uninterpreted constant. -/
opaque Config.ibufDepthPred : Fin 16384

/-- IBUF_DEPTH of this chip (00_scope.md R4). -/
def Config.ibufDepth : IbufDepth := ⟨Config.ibufDepthPred.val + 1, by omega⟩

/-- What IBUF entry `i` holds before it is written, after `r` reset events: a draw per entry (70_reset_and_hazards.md
R221, 93 U2). Free value (log 6). -/
opaque Config.ibufDraw : (r i : Nat) → Byte

/-- What OBUF entry `i` holds before it is written, after `r` reset events: a draw per entry (10_state.md R39, 93 U3).
Free value (log 6). -/
opaque Config.obufDraw : (r i : Nat) → Byte

/-- The `k`-th fresh draw of a read of OBUF outside the result (20_memory.md R54, 93 U1). Free value (log 6). -/
opaque Config.readDraw : (k : Nat) → Byte

end Sys2Proof
end

