-- ==== Sys2Proof/WellFormed.lean ====
section
/-! DEFINITION. Which instructions and which configurations are well formed. -/

namespace Sys2Proof

/-- F and A are single bits used as booleans, each legal at both values for every command (30_encoding.md R82, R83,
R90); a command has no other operand field. So the types say all there is to check, and every instruction is well
formed. -/
def Instr.wellFormed : Instr → Bool
  | .clear _ _ => true
  | .encode _ _ => true
  | .decode _ _ => true

/-- The check of 00_scope.md R5: a depth from 1 to 16384 is a configuration, any other number is rejected. -/
def checkDepth (d : Nat) : Option IbufDepth :=
  if h : 1 ≤ d ∧ d ≤ 16384 then some ⟨d, h⟩ else none

end Sys2Proof
end

