-- ==== Sys2Proof/Decode.lean ====
section
/-! DEFINITION. The command word format (30_encoding.md R80): the decoder, total on every 32-bit word, and the encoder. -/

namespace Sys2Proof

/-- Why a word selects no operation (30_encoding.md R91). -/
inductive Reserved where
  /-- `RES = w[31:4] != 0`. -/
  | resBits
  /-- `OP = w[1:0] = 0b11`. -/
  | opcode
  deriving DecidableEq, Repr

/-- Field OP, `w[1:0]` (30_encoding.md R80, R81). -/
def fieldOp (w : Word) : BitVec 2 := w.extractLsb' 0 2

/-- Field F, `w[2]` (30_encoding.md R80, R82). -/
def fieldF (w : Word) : Bool := w.getLsbD 2

/-- Field A, `w[3]` (30_encoding.md R80, R83). -/
def fieldA (w : Word) : Bool := w.getLsbD 3

/-- Field RES, `w[31:4]` (30_encoding.md R80). -/
def fieldRes (w : Word) : BitVec 28 := w.extractLsb' 4 28

/-- The command a CMD word selects (30_encoding.md R81, R93), or why it is reserved (R91). -/
def decode (w : Word) : Except Reserved Instr :=
  if fieldRes w ≠ 0#28 then .error .resBits
  else if fieldOp w = 0b00#2 then .ok (.clear (fieldF w) (fieldA w))
  else if fieldOp w = 0b01#2 then .ok (.encode (fieldF w) (fieldA w))
  else if fieldOp w = 0b10#2 then .ok (.decode (fieldF w) (fieldA w))
  else .error .opcode

/-- A command word with RES = 0: `RES | A | F | OP`, most significant first (30_encoding.md R80). -/
def commandWord (op : BitVec 2) (f a : Bool) : Word :=
  0#28 ++ BitVec.ofBool a ++ BitVec.ofBool f ++ op

/-- The word of an instruction (30_encoding.md R80, R81). -/
def encode : Instr → Word
  | .clear f a => commandWord 0b00#2 f a
  | .encode f a => commandWord 0b01#2 f a
  | .decode f a => commandWord 0b10#2 f a

/-- The 32-bit command word whose low `nbits` bits are those of `w` and whose other bits are 0. A command word is
written whole to CMD and never lies in a memory of bytes, so no byte order enters (20_memory.md R58; log 14). -/
def tableWord (nbits w : Nat) : Word := BitVec.ofNat 32 (w % 2 ^ nbits)

/-- What the decoder reads from a row of the opcode table. -/
def decodeTableWord (nbits w : Nat) : Option Instr :=
  match decode (tableWord nbits w) with
  | .ok i => some i
  | .error _ => none

end Sys2Proof
end

