-- ==== Sys2Proof/Machine/State.lean ====
section
/-! DEFINITION. B32C's state (10_state.md), as plain data, with its value after reset, and the reasons a step can stop. -/

namespace Sys2Proof.Machine

/-- SEQ, the engine's phase register, 4 bits (10_state.md R30). -/
inductive Seq where
  | idle
  | eInit
  | eAppend
  | eExtract
  | eFlush
  | ePadInit
  | ePad
  | dInit
  | dScan
  | dAccount
  | dTail
  | dPadChk
  | dLoopInit
  | dLoad
  | dExtract
  /-- Encoding 0xF: no phase, never reached (10_state.md R30, 93 U9; log 8). -/
  | unused
  deriving DecidableEq, Repr

/-- STATUS.CAUSE: the codes 0 to 8 (60_exceptions.md R200). The reserved codes 9 to 15 are never produced, so they have
no constructor (93 U8; log 10). -/
inductive Cause where
  | none
  | invalidArgument
  | tooShort
  | redundantTrailingSymbol
  | invalidCharacter
  | nonzeroTailBits
  | invalidPaddingLength
  | illegalCommand
  | capacity
  deriving DecidableEq, Repr

/-- The fields of STATUS (10_state.md R23). The host never writes it and its reserved bits read 0. -/
structure Status where
  busy : Bool
  done : Bool
  err : Bool
  ovr : Bool
  cause : Cause
  deriving DecidableEq, Repr

/-- The contents of a buffer: the entries written since reset, in strictly rising index order (`Memory.wf`). An index
that is not listed holds no defined value (70_reset_and_hazards.md R221). -/
abbrev Memory := List Host.Cell

/-- One line of a host program, after its pseudo-instructions are expanded (30_encoding.md R94). -/
inductive HostOp where
  /-- `WR a, w`: HostWrite(a, w) (20_memory.md R51). -/
  | wr (a : Addr) (w : Word)
  /-- `RD a`: HostRead(a) (20_memory.md R51). -/
  | rd (a : Addr)
  /-- `WAIT`: read STATUS again and again until bit 0 of the value read is 0 (30_encoding.md R94). -/
  | wait
  deriving DecidableEq, Repr

/-- Whose step comes next in the one total order (20_memory.md R62), or that the platform raises the reset event
(70_reset_and_hazards.md R220). -/
inductive Turn where
  | host
  | engine
  | reset
  deriving DecidableEq, Repr

/-- Everything the spec gives the machine (10_state.md section 1), and what is around it: the accesses the host has
still to make, the order of the agents' steps, and the counters that the free values are drawn by. -/
structure State where
  /-- STATUS (10_state.md R23). -/
  status : Status
  /-- IN_LEN (10_state.md R25). -/
  inLen : BitVec 32
  /-- OUT_LEN, bits [14:0] (10_state.md R26). -/
  outLen : BitVec 15
  /-- DEPTH: the parameter IBUF_DEPTH, which no step changes (10_state.md R27, 00_scope.md R4; log 1). -/
  depth : IbufDepth
  /-- SEQ (10_state.md R30). -/
  seq : Seq
  /-- OPC, the operation of the running command (10_state.md R31). -/
  opc : BitVec 2
  /-- FLAG (10_state.md R31). -/
  flag : Bool
  /-- N, the input length (10_state.md R31). -/
  n : BitVec 15
  /-- E_ACC, the encoder's bit accumulator (10_state.md R32). -/
  eAcc : BitVec 13
  /-- E_CNT (10_state.md R32). -/
  eCnt : BitVec 4
  /-- PADCNT, the padding generator's counter (10_state.md R36). -/
  padCnt : BitVec 3
  /-- D_ACC, the decoder's bit reassembler (10_state.md R33). -/
  dAcc : BitVec 12
  /-- D_CNT (10_state.md R33). -/
  dCnt : BitVec 4
  /-- I (10_state.md R34). -/
  i : BitVec 15
  /-- O (10_state.md R34). -/
  o : BitVec 15
  /-- P, the content length (10_state.md R35). -/
  p : BitVec 15
  /-- OL, the output length (10_state.md R35). -/
  ol : BitVec 14
  /-- TL, the tail bits (10_state.md R35). -/
  tl : BitVec 3
  /-- IBUF (10_state.md R38). -/
  ibuf : Memory
  /-- OBUF (10_state.md R38). -/
  obuf : Memory
  /-- The model's own: the host program, the next access first (30_encoding.md R94; log 3). -/
  program : List HostOp
  /-- The model's own: the next turns, the first one first (20_memory.md R62; log 2). -/
  turns : List Turn
  /-- The model's own: the words the host's reads returned, the newest first (20_memory.md R51; log 3). -/
  returned : List Word
  /-- The model's own: how many fresh OBUF draws were made (20_memory.md R54; log 6). -/
  draws : Nat
  /-- The model's own: how many reset events there were (70_reset_and_hazards.md R221; log 6). -/
  resets : Nat
  deriving DecidableEq, Repr

/-- Why the machine stops with a fault. -/
inductive Fault where
  /-- Raised by an engine micro-step that reads an IBUF entry not written since reset (E_APPEND, D_SCAN, D_TAIL,
  D_LOAD): the command has no defined result (70_reset_and_hazards.md R221, 93 U4; log 5). Safe: the chip goes on. -/
  | unwrittenInput
  /-- Raised by an engine micro-step whose index is outside its buffer. 20_memory.md R61 says that none is, so no run
  reaches it (log 7). Safe. -/
  | bufferBounds
  deriving DecidableEq, Repr

/-- Why a step has no meaning. -/
inductive Refusal where
  /-- Raised by an arm of `exec` for an instruction that has no meaning yet; no arm raises it. Safe. -/
  | notModelled (mnemonic : String)
  deriving DecidableEq, Repr

/-- The machine right after reset (10_state.md R39, 70_reset_and_hazards.md R220, R221): every register at the value of
R39, no buffer entry written. The model's own fields are empty or 0 (DESIGN CHOICE, logs 2, 3 and 6). -/
def State.reset : State where
  status := { busy := false, done := false, err := false, ovr := false, cause := .none }
  inLen := 0
  outLen := 0
  depth := Config.ibufDepth
  seq := .idle
  opc := 0
  flag := false
  n := 0
  eAcc := 0
  eCnt := 0
  padCnt := 0
  dAcc := 0
  dCnt := 0
  i := 0
  o := 0
  p := 0
  ol := 0
  tl := 0
  ibuf := []
  obuf := []
  program := []
  turns := []
  returned := []
  draws := 0
  resets := 0

end Sys2Proof.Machine
end

