-- ==== Sys2Proof/Machine/Flags.lean ====
section
/-! DEFINITION. STATUS as the host and the pin see it, and the numbers of its codes and of the phases
(10_state.md R23, R28 to R30; 60_exceptions.md R200). B32C has no other flag and no condition code (R28). -/

namespace Sys2Proof.Machine

/-- The code of a cause in STATUS[7:4] (60_exceptions.md R200). -/
def causeCode : Cause → BitVec 4
  | .none => 0
  | .invalidArgument => 1
  | .tooShort => 2
  | .redundantTrailingSymbol => 3
  | .invalidCharacter => 4
  | .nonzeroTailBits => 5
  | .invalidPaddingLength => 6
  | .illegalCommand => 7
  | .capacity => 8

/-- The 32-bit STATUS word: `0 | CAUSE | OVR | ERR | DONE | BUSY`, most significant first (10_state.md R23). -/
def statusWord (st : Status) : Word :=
  0#24 ++ causeCode st.cause ++ BitVec.ofBool st.ovr ++ BitVec.ofBool st.err ++ BitVec.ofBool st.done
    ++ BitVec.ofBool st.busy

/-- The output pin done_o (10_state.md R29). -/
def State.doneO (s : State) : Bool := s.status.done

/-- The encoding of SEQ (10_state.md R30). -/
def seqCode : Seq → BitVec 4
  | .idle => 0x0
  | .eInit => 0x1
  | .eAppend => 0x2
  | .eExtract => 0x3
  | .eFlush => 0x4
  | .ePadInit => 0x5
  | .ePad => 0x6
  | .dInit => 0x7
  | .dScan => 0x8
  | .dAccount => 0x9
  | .dTail => 0xA
  | .dPadChk => 0xB
  | .dLoopInit => 0xC
  | .dLoad => 0xD
  | .dExtract => 0xE
  | .unused => 0xF

/-- Whether the engine has an enabled step: SEQ names a micro-step (40_commands.md R111). IDLE names none, and neither
does the unused encoding 0xF, where the engine is stuck (93 U9; log 8). -/
def engineEnabled : Seq → Bool
  | .idle => false
  | .unused => false
  | _ => true

end Sys2Proof.Machine
end

