-- ==== Sys2Proof/Machine/Tables.lean ====
section
/-! DEFINITION. The four constant tables (10_state.md R37). No operation writes them and reset does not change them, so
they are definitions and no fields of State (log 9). -/

namespace Sys2Proof.Machine

/-- ROM_ALPHA: the character code of a symbol's value (30_encoding.md R84; the codes are US-ASCII, log 11). -/
def romAlpha (v : BitVec 5) : Byte :=
  if v.toNat ≤ 25 then BitVec.ofNat 8 (0x41 + v.toNat) else BitVec.ofNat 8 (0x32 + (v.toNat - 26))

/-- LUT: `valid, value[4:0]` of a character code, six bits (30_encoding.md R85). -/
def lut (c : Byte) : BitVec 6 :=
  if 0x41 ≤ c.toNat ∧ c.toNat ≤ 0x5A then BitVec.ofNat 6 (32 + (c.toNat - 0x41))
  else if 0x32 ≤ c.toNat ∧ c.toNat ≤ 0x37 then BitVec.ofNat 6 (32 + (c.toNat - 0x32 + 26))
  else 0

/-- The valid bit of a LUT entry (30_encoding.md R85). -/
def lutValid (c : Byte) : Bool := (lut c).getLsbD 5

/-- The value field of a LUT entry (30_encoding.md R85). -/
def lutValue (c : Byte) : BitVec 5 := (lut c).extractLsb' 0 5

/-- PAD_CODE, the code of `=` (30_encoding.md R86). -/
def padCode : Byte := 0x3D

/-- PADTAB_R: leftover bytes to padding symbols (30_encoding.md R87). An index above 4 does not occur. -/
def padTabR (r : Nat) : BitVec 3 := [0, 6, 4, 3, 1].getD r 0

/-- PADTAB_M: missing bytes to padding symbols (30_encoding.md R88). An index above 4 does not occur. -/
def padTabM (m : Nat) : BitVec 3 := [0, 1, 3, 4, 6].getD m 0

/-- The identification word (10_state.md R21). -/
def idWord : Word := 0x42333207

end Sys2Proof.Machine
end

