-- ==== Sys2Proof/Machine/Operands.lean ====
section
/-! DEFINITION. The operands of commands and micro-steps: bit slices of the notation, the input length and its check, and
the sizes derived from IBUF_DEPTH (00_scope.md R4 and section 5; 30_encoding.md R90). -/

namespace Sys2Proof.Machine

/-- `v[hi:lo]` of 00_scope.md section 5: empty, so 0, when `hi < lo`. -/
def slice (v hi lo : Nat) : Nat := (v >>> lo) % 2 ^ (hi + 1 - lo)

/-- `mask(k)` of 00_scope.md section 5: k ones. -/
def mask (k : Nat) : Nat := 2 ^ k - 1

/-- OBUF_DEPTH for a given IBUF_DEPTH (00_scope.md R4). -/
def obufDepth (d : IbufDepth) : Nat := 8 * ceilDiv d.val 5

/-- `IN_LEN > IBUF_DEPTH`, the full 32-bit IN_LEN as an unsigned natural (40_commands.md R109). -/
def overCapacity (s : State) : Bool := decide (s.inLen.toNat > s.depth.val)

/-- `groupsOf5(x) - x` read as `5 * ceil(x / 5) - x`, the missing bytes (42_decoder.md R166, 92 D21). -/
def missingBytes (x : Nat) : Nat := 5 * ceilDiv x 5 - x

end Sys2Proof.Machine
end

