-- ==== Sys2Proof/Machine/Ops.lean ====
section
/-! DEFINITION. The shared operations: the buffers' memory primitives, and how a command is accepted, dropped, started and
ended (20_memory.md section 4; 40_commands.md section 3; 60_exceptions.md R201, R202). -/

namespace Sys2Proof.Machine

/-- What a step of B32C answers. -/
abbrev Result := Host.Outcome State Fault Refusal

/-- The canonical form of a buffer: indices strictly rising. An index that is not listed reads as no value, which no
listed entry equals. -/
abbrev Memory.wf (m : Memory) : Prop := m.Pairwise fun x y => x.1 < y.1

/-- The entry at index `i`, if it was written since reset (70_reset_and_hazards.md R221). -/
def Memory.read : Memory → Nat → Option Byte
  | [], _ => none
  | (k, b) :: m, i => if i = k then some b else Memory.read m i

/-- Writes entry `i`, keeping the canonical form. -/
def Memory.write : Memory → Nat → Byte → Memory
  | [], i, b => [(i, b)]
  | (k, c) :: m, i, b =>
    if i < k then (i, b) :: (k, c) :: m
    else if i = k then (i, b) :: m
    else (k, c) :: Memory.write m i b

/-- The engine's `MemRead(IBUF, i, 1)` (20_memory.md R61), handed to the rest of the micro-step. An entry not written
since reset faults (70_reset_and_hazards.md R221; log 5). -/
def withIbuf (s : State) (i : Nat) (k : Byte → Result) : Result :=
  if i < s.depth.val then
    match s.ibuf.read i with
    | some b => k b
    | none => .fault .unwrittenInput
  else .fault .bufferBounds

/-- The engine's `MemWrite(OBUF, i, 1, b)` (20_memory.md R61), its state handed to the rest of the micro-step. -/
def withObuf (s : State) (i : Nat) (b : Byte) (k : State → Result) : Result :=
  if i < obufDepth s.depth then k { s with obuf := s.obuf.write i b } else .fault .bufferBounds

/-- `complete_ok(len)` (60_exceptions.md R201). -/
def completeOk (len : Nat) (s : State) : State :=
  { s with
    outLen := BitVec.ofNat 15 len
    status := { s.status with err := false, cause := .none, done := true, busy := false }
    seq := .idle }

/-- `complete_error(c)`, B32C's form of raising an error (60_exceptions.md R202). There is no trap entry and nothing to
return from (R205, R206). -/
def completeError (c : Cause) (s : State) : State :=
  { s with
    outLen := 0
    status := { s.status with err := true, cause := c, done := true, busy := false }
    seq := .idle }

/-- What every accepted CMD write does first (40_commands.md R101, its first line). -/
def acceptCommand (s : State) : State :=
  { s with
    status := { s.status with done := false, err := false, cause := .none }
    outLen := 0 }

/-- A host write dropped because BUSY = 1: only OVR changes (40_commands.md R110). -/
def dropWrite (s : State) : State :=
  { s with status := { s.status with ovr := true } }

/-- `start(op, f, IN_LEN)` (40_commands.md R106). -/
def startCommand (op : BitVec 2) (f : Bool) (s : State) : State :=
  { s with
    opc := op
    flag := f
    n := BitVec.ofNat 15 s.inLen.toNat
    status := { s.status with busy := true }
    seq := if op = 0b01#2 then .eInit else .dInit }

/-- An ENCODE or DECODE word written to CMD: dropped when busy (40_commands.md R110); else accepted, and absent
argument, capacity and start in that order (R101, R102). -/
def issueData (op : BitVec 2) (f a : Bool) (s : State) : State :=
  if s.status.busy then dropWrite s
  else if a then completeError .invalidArgument (acceptCommand s)
  else if overCapacity s then completeError .capacity (acceptCommand s)
  else startCommand op f (acceptCommand s)

/-- A CLEAR word written to CMD: dropped when busy (40_commands.md R110), else accepted, and OVR cleared (R103). -/
def clearCommand (s : State) : State :=
  if s.status.busy then dropWrite s
  else
    let t := acceptCommand s
    { t with status := { t.status with ovr := false } }

/-- A reserved word written to CMD: dropped when busy, else refused with ILLEGAL_COMMAND (40_commands.md R107, R110). -/
def illegalCommand (s : State) : State :=
  if s.status.busy then dropWrite s else completeError .illegalCommand (acceptCommand s)

end Sys2Proof.Machine
end

