-- ==== Sys2Proof/Machine/Commands.lean ====
section
/-! DEFINITION. The meanings of the three commands: the effect of the CMD write itself, one atomic host step
(40_commands.md R100 to R106). What a started command goes on to do is the engine's (log 13). -/

namespace Sys2Proof.Machine

/-- CLEAR (40_commands.md R103): F and A are ignored; while BUSY = 1 it is dropped and sets OVR (R110). -/
def execClear (_f _a : Bool) (s : State) : Result := .next (clearCommand s)

/-- ENCODE (40_commands.md R104). -/
def execEncode (f a : Bool) (s : State) : Result := .next (issueData 0b01#2 f a s)

/-- DECODE (40_commands.md R105). -/
def execDecode (f a : Bool) (s : State) : Result := .next (issueData 0b10#2 f a s)

end Sys2Proof.Machine
end

