-- ==== Sys2Proof/Machine/Dispatch.lean ====
section
/-! DEFINITION. One arm per command of the opcode table. -/

namespace Sys2Proof.Machine

def exec (i : Instr) (s : State) : Host.Outcome State Fault Refusal :=
  match i with
  | .clear f a => Sys2Proof.Machine.execClear f a s
  | .encode f a => Sys2Proof.Machine.execEncode f a s
  | .decode f a => Sys2Proof.Machine.execDecode f a s

end Sys2Proof.Machine
end

