-- ==== Sys2Proof/Machine/Decoder.lean ====
section
/-! DEFINITION. The decoder pipeline's micro-steps (42_decoder.md R160 to R162, R164, R166, R170 to R172). Arithmetic is
on naturals, and an assignment to a register of W bits keeps the value mod 2^W (00_scope.md R6; log 12). -/

namespace Sys2Proof.Machine

/-- D_INIT (42_decoder.md R160). -/
def stepDInit (s : State) : Result :=
  if s.n.toNat = 0 then .next (completeOk 0 s)
  else .next { s with p := s.n, seq := .dScan }

/-- D_SCAN, strip the trailing padding run (42_decoder.md R161). -/
def stepDScan (s : State) : Result :=
  if 0 < s.p.toNat then
    withIbuf s (s.p.toNat - 1) fun c =>
      if c = padCode then .next { s with p := BitVec.ofNat 15 (s.p.toNat - 1), seq := .dScan }
      else .next { s with seq := .dAccount }
  else .next { s with seq := .dAccount }

/-- D_ACCOUNT, bit accounting (42_decoder.md R162). -/
def stepDAccount (s : State) : Result :=
  let totalBits := 5 * s.p.toNat
  let t := { s with ol := BitVec.ofNat 14 (totalBits / 8), tl := BitVec.ofNat 3 (totalBits % 8) }
  if t.ol.toNat = 0 then .next (completeError .tooShort t)
  else if 5 ≤ t.tl.toNat then .next (completeError .redundantTrailingSymbol t)
  else .next { t with seq := .dTail }

/-- D_TAIL, the validation checker on the last content symbol (42_decoder.md R164). -/
def stepDTail (s : State) : Result :=
  withIbuf s (s.p.toNat - 1) fun c =>
    if lutValid c = false then .next (completeError .invalidCharacter s)
    else if (lutValue c).toNat &&& mask s.tl.toNat ≠ 0 then .next (completeError .nonzeroTailBits s)
    else .next { s with seq := .dPadChk }

/-- D_PADCHK, the strict padding check (42_decoder.md R166). -/
def stepDPadChk (s : State) : Result :=
  if s.flag ∧ s.n.toNat - s.p.toNat ≠ (padTabM (missingBytes s.ol.toNat)).toNat then
    .next (completeError .invalidPaddingLength s)
  else .next { s with seq := .dLoopInit }

/-- D_LOOPINIT (42_decoder.md R170). -/
def stepDLoopInit (s : State) : Result :=
  .next { s with dAcc := 0, dCnt := 0, i := 0, o := 0, seq := .dLoad }

/-- D_LOAD, LUT lookup and reassembler load (42_decoder.md R171). -/
def stepDLoad (s : State) : Result :=
  if 8 ≤ s.dCnt.toNat then .next { s with seq := .dExtract }
  else
    withIbuf s s.i.toNat fun c =>
      if lutValid c = false then .next (completeError .invalidCharacter s)
      else
        .next { s with
          dAcc := BitVec.ofNat 12 ((s.dAcc.toNat <<< 5) ||| (lutValue c).toNat)
          dCnt := BitVec.ofNat 4 (s.dCnt.toNat + 5)
          i := BitVec.ofNat 15 (s.i.toNat + 1)
          seq := .dLoad }

/-- D_EXTRACT, reassembler extract (42_decoder.md R172). The residue left after the last byte is not checked (R173). -/
def stepDExtract (s : State) : Result :=
  let b := slice s.dAcc.toNat (s.dCnt.toNat - 1) (s.dCnt.toNat - 8)
  withObuf s s.o.toNat (BitVec.ofNat 8 b) fun t =>
    let u := { t with
      o := BitVec.ofNat 15 (s.o.toNat + 1)
      dCnt := BitVec.ofNat 4 (s.dCnt.toNat - 8)
      dAcc := BitVec.ofNat 12 (s.dAcc.toNat &&& mask (s.dCnt.toNat - 8)) }
    if u.o.toNat = u.ol.toNat then .next (completeOk u.ol.toNat u)
    else .next { u with seq := .dLoad }

end Sys2Proof.Machine
end

