-- ==== Sys2Proof/Machine/Encoder.lean ====
section
/-! DEFINITION. The encoder pipeline's micro-steps (41_encoder.md R130 to R135). Arithmetic is on naturals, and an
assignment to a register of W bits keeps the value mod 2^W (00_scope.md R6; log 12). -/

namespace Sys2Proof.Machine

/-- E_INIT (41_encoder.md R130). -/
def stepEInit (s : State) : Result :=
  .next { s with eAcc := 0, eCnt := 0, i := 0, o := 0, padCnt := 0, seq := .eAppend }

/-- E_APPEND, the bit accumulator (41_encoder.md R131). -/
def stepEAppend (s : State) : Result :=
  if s.i.toNat < s.n.toNat then
    withIbuf s s.i.toNat fun b =>
      .next { s with
        eAcc := BitVec.ofNat 13 ((s.eAcc.toNat <<< 8) ||| b.toNat)
        eCnt := BitVec.ofNat 4 (s.eCnt.toNat + 8)
        i := BitVec.ofNat 15 (s.i.toNat + 1)
        seq := .eExtract }
  else .next { s with seq := .eFlush }

/-- E_EXTRACT, the symbol extractor (41_encoder.md R132). -/
def stepEExtract (s : State) : Result :=
  if 5 ≤ s.eCnt.toNat then
    let v := slice s.eAcc.toNat (s.eCnt.toNat - 1) (s.eCnt.toNat - 5)
    withObuf s s.o.toNat (romAlpha (BitVec.ofNat 5 v)) fun t =>
      .next { t with
        o := BitVec.ofNat 15 (s.o.toNat + 1)
        eCnt := BitVec.ofNat 4 (s.eCnt.toNat - 5)
        eAcc := BitVec.ofNat 13 (s.eAcc.toNat &&& mask (s.eCnt.toNat - 5))
        seq := .eExtract }
  else .next { s with seq := .eAppend }

/-- E_FLUSH, the final partial symbol (41_encoder.md R133). -/
def stepEFlush (s : State) : Result :=
  if 0 < s.eCnt.toNat then
    let v := slice (s.eAcc.toNat <<< (5 - s.eCnt.toNat)) 4 0
    withObuf s s.o.toNat (romAlpha (BitVec.ofNat 5 v)) fun t =>
      .next { t with
        o := BitVec.ofNat 15 (s.o.toNat + 1)
        eCnt := 0
        eAcc := 0
        seq := .ePadInit }
  else .next { s with seq := .ePadInit }

/-- E_PADINIT, padding generator set-up (41_encoder.md R134). -/
def stepEPadInit (s : State) : Result :=
  .next { s with
    padCnt := if s.flag then padTabR (s.n.toNat % 5) else 0
    seq := .ePad }

/-- E_PAD, the padding generator (41_encoder.md R135). -/
def stepEPad (s : State) : Result :=
  if 0 < s.padCnt.toNat then
    withObuf s s.o.toNat padCode fun t =>
      .next { t with
        o := BitVec.ofNat 15 (s.o.toNat + 1)
        padCnt := BitVec.ofNat 3 (s.padCnt.toNat - 1)
        seq := .ePad }
  else .next (completeOk s.o.toNat s)

end Sys2Proof.Machine
end

