-- ==== Sys2Proof/Machine/Engine.lean ====
section
/-! DEFINITION. The engine: the micro-step that SEQ names (10_state.md R30, 40_commands.md R111). -/

namespace Sys2Proof.Machine

/-- One engine step. With SEQ = IDLE the engine has none (40_commands.md R111), and with the unused encoding it is stuck
(93 U9; log 8): nothing changes. -/
def engineStep (s : State) : Result :=
  match s.seq with
  | .idle => .next s
  | .eInit => stepEInit s
  | .eAppend => stepEAppend s
  | .eExtract => stepEExtract s
  | .eFlush => stepEFlush s
  | .ePadInit => stepEPadInit s
  | .ePad => stepEPad s
  | .dInit => stepDInit s
  | .dScan => stepDScan s
  | .dAccount => stepDAccount s
  | .dTail => stepDTail s
  | .dPadChk => stepDPadChk s
  | .dLoopInit => stepDLoopInit s
  | .dLoad => stepDLoad s
  | .dExtract => stepDExtract s
  | .unused => .next s

/-- `k` engine steps with no step of another agent between them, stopping at the first fault or refusal. -/
def engineRun : Nat → State → Result
  | 0, s => .next s
  | k + 1, s =>
    match engineStep s with
    | .next t => engineRun k t
    | .fault r => .fault r
    | .refused r => .refused r

end Sys2Proof.Machine
end

