-- ==== Sys2Proof/Machine/HostPort.lean ====
section
/-! DEFINITION. The host's side of the register map: what each word address names, what reading it returns, and what
writing it does, but for a write to CMD (20_memory.md R51 to R55, R60). -/

namespace Sys2Proof.Machine

/-- What a host word address names (20_memory.md R52). -/
inductive Region where
  | id
  | cmd
  | status
  | inLen
  | outLen
  | depth
  | unmapped
  /-- IBUF[i] at 0x4000 + i, i below 0x4000. -/
  | ibuf (i : Nat)
  /-- OBUF[i] at 0x8000 + i, i below 0x8000. -/
  | obuf (i : Nat)
  deriving DecidableEq, Repr

/-- The host address map (20_memory.md R52). -/
def regionOf (a : Addr) : Region :=
  let x := a.toNat
  if x = 0x0000 then .id
  else if x = 0x0001 then .cmd
  else if x = 0x0002 then .status
  else if x = 0x0003 then .inLen
  else if x = 0x0004 then .outLen
  else if x = 0x0005 then .depth
  else if x < 0x4000 then .unmapped
  else if x < 0x8000 then .ibuf (x - 0x4000)
  else .obuf (x - 0x8000)

/-- What IBUF[i] reads as to the host: the entry, or its draw while it is not written (20_memory.md R53,
70_reset_and_hazards.md R221; log 6). -/
def ibufEntry (s : State) (i : Nat) : Byte := (s.ibuf.read i).getD (Config.ibufDraw s.resets i)

/-- What OBUF[i] holds: the entry, or its draw while it is not written (70_reset_and_hazards.md R221; log 6). -/
def obufEntry (s : State) (i : Nat) : Byte := (s.obuf.read i).getD (Config.obufDraw s.resets i)

/-- Whether a host read of OBUF[i] draws an unspecified value: BUSY = 1, or i at or above OUT_LEN (20_memory.md R54). -/
def obufReadDraws (s : State) (i : Nat) : Bool :=
  decide (i < obufDepth s.depth) && (s.status.busy || decide (s.outLen.toNat ≤ i))

/-- The word HostRead(a) returns (20_memory.md R52 to R55). -/
def readValue (a : Addr) (s : State) : Word :=
  match regionOf a with
  | .id => idWord
  | .cmd => 0
  | .status => statusWord s.status
  | .inLen => s.inLen
  | .outLen => s.outLen.setWidth 32
  | .depth => BitVec.ofNat 32 s.depth.val
  | .unmapped => 0
  | .ibuf i => if i < s.depth.val then (ibufEntry s i).setWidth 32 else 0
  | .obuf i =>
    if i < obufDepth s.depth then
      if obufReadDraws s i then (Config.readDraw s.draws).setWidth 32 else (obufEntry s i).setWidth 32
    else 0

/-- HostRead(a): the word is recorded as returned to the host, and nothing of B32C changes (20_memory.md R51, R60); a
read that draws uses up one draw (R54; log 6). -/
def hostRead (a : Addr) (s : State) : State :=
  { s with
    returned := readValue a s :: s.returned
    draws := match regionOf a with
      | .obuf i => if obufReadDraws s i then s.draws + 1 else s.draws
      | _ => s.draws }

/-- HostWrite(a, w) at every address but that of CMD (10_state.md R25; 20_memory.md R52 to R55; 40_commands.md R110). -/
def writePlain (a : Addr) (w : Word) (s : State) : State :=
  match regionOf a with
  | .inLen => if s.status.busy then dropWrite s else { s with inLen := w }
  | .ibuf i =>
    if i < s.depth.val then
      if s.status.busy then dropWrite s else { s with ibuf := s.ibuf.write i (w.setWidth 8) }
    else s
  | .id => s
  | .cmd => s
  | .status => s
  | .outLen => s
  | .depth => s
  | .unmapped => s
  | .obuf _ => s

end Sys2Proof.Machine
end

