-- ==== Sys2Proof/Machine/Turns.lean ====
section
/-! DEFINITION. The steps of the three agents, and which one steps next (20_memory.md R51, R62; 40_commands.md R100, R111;
70_reset_and_hazards.md R220, R226). -/

namespace Sys2Proof.Machine

/-- A CMD write of the word `w` (40_commands.md R100, R101): the command it selects, or the refusal of a reserved word. -/
def cmdWrite (w : Word) (s : State) : Result :=
  match decode w with
  | .ok i => exec i s
  | .error _ => .next (illegalCommand s)

/-- HostWrite(a, w) (20_memory.md R51, R52). -/
def hostWrite (a : Addr) (w : Word) (s : State) : Result :=
  match regionOf a with
  | .cmd => cmdWrite w s
  | _ => .next (writePlain a w s)

/-- The address of STATUS, which WAIT reads (10_state.md R23, 30_encoding.md R94). -/
def statusAddr : Addr := 0x0002

/-- The address of CMD (10_state.md R22). -/
def cmdAddr : Addr := 0x0001

/-- One host step: the next access of the host's program (30_encoding.md R94). WAIT is one read of STATUS, and stays the
next access while bit 0 of the value read is 1. A host whose program has ended does nothing (log 4). -/
def hostStep (s : State) : Result :=
  match s.program with
  | [] => .next s
  | .wr a w :: rest => hostWrite a w { s with program := rest }
  | .rd a :: rest => .next (hostRead a { s with program := rest })
  | .wait :: rest =>
    if (readValue statusAddr s).getLsbD 0 then .next (hostRead statusAddr s)
    else .next (hostRead statusAddr { s with program := rest })

/-- The reset event (70_reset_and_hazards.md R220, R221): every register, field, latch and pin at its reset value, no
buffer entry holding a defined value. IBUF_DEPTH is the chip's; what is around the chip (the host's program, the
schedule, the words already returned, the draws already made) is not reset (log 15). -/
def resetStep (s : State) : State :=
  { State.reset with
    depth := s.depth
    program := s.program
    turns := s.turns
    returned := s.returned
    draws := s.draws
    resets := s.resets + 1 }

/-- The step of the agent whose turn it is (20_memory.md R62). -/
def takeTurn (t : Turn) (s : State) : Result :=
  match t with
  | .host => hostStep s
  | .engine => engineStep s
  | .reset => .next (resetStep s)

/-- Whose turn it is when the schedule has run out: the engine's while it has an enabled step, else the host's. This
keeps the weak fairness of 70_reset_and_hazards.md R226 (DESIGN CHOICE, log 2). -/
def defaultTurn (s : State) : Turn := if engineEnabled s.seq then .engine else .host

/-- The next step in the total order of 20_memory.md R62. -/
def nextStep (s : State) : Result :=
  match s.turns with
  | [] => takeTurn (defaultTurn s) s
  | t :: rest => takeTurn t { s with turns := rest }

end Sys2Proof.Machine
end

