-- ==== Sys2Proof/Machine/Step.lean ====
section
/-! DEFINITION. One step of the machine, and how a command word is placed where the next step takes it from. -/

namespace Sys2Proof.Machine

/-- One step: of the host, of the engine or of the platform (20_memory.md R62, 70_reset_and_hazards.md R220). -/
def step (s : State) : Host.Outcome State Fault Refusal := nextStep s

/-- The state `s` with the host's next access a write of the command word to CMD, and the next turn the host's: B32C's
only program input is the command word, and it takes effect at the CMD write (20_memory.md R66; log 3). -/
def State.withFetchWord (s : State) (nbits w : Nat) : State :=
  { s with
    program := .wr cmdAddr (tableWord nbits w) :: s.program
    turns := .host :: s.turns }

end Sys2Proof.Machine
end

