-- ==== Sys2Proof/Machine/Assembler.lean ====
section
/-! DEFINITION. The host assembler syntax, what each line expands to, and the records of the accesses (30_encoding.md R94). -/

namespace Sys2Proof.Machine

/-- One line of a host program (30_encoding.md R94). -/
inductive AsmLine where
  | wr (a : Addr) (w : Word)
  | rd (a : Addr)
  | clr
  /-- `ENC p`, and `ENC p, absent`. -/
  | enc (p absent : Bool)
  /-- `DEC s`, and `DEC s, absent`. -/
  | dec (s absent : Bool)
  | len (n : Word)
  | fill (bytes : List Byte)
  | fillText (text : List Char)
  | wait
  | dump (k : Nat)
  deriving DecidableEq, Repr

/-- The character code of a character of `FILL "text"`: US-ASCII (30_encoding.md R84, R86; 93 K1 to K3; log 11). -/
def charCode (c : Char) : Byte := BitVec.ofNat 8 c.toNat

/-- Whether a line's accesses stay in the windows they name: a FILL in the IBUF window, a DUMP in the OBUF window, and
a text of 7-bit characters (DEDUCED from 20_memory.md R52; log 16). -/
def AsmLine.wellFormed : AsmLine → Bool
  | .wr _ _ => true
  | .rd _ => true
  | .clr => true
  | .enc _ _ => true
  | .dec _ _ => true
  | .len _ => true
  | .fill bytes => decide (bytes.length ≤ 0x4000)
  | .fillText text => decide (text.length ≤ 0x4000) && text.all fun c => decide (c.toNat < 128)
  | .wait => true
  | .dump k => decide (k ≤ 0x8000)

/-- `WR base + k, b_k` for each byte in order (30_encoding.md R94). -/
def fillFrom (base : Nat) : List Byte → List HostOp
  | [] => []
  | b :: bs => .wr (BitVec.ofNat 16 base) (b.setWidth 32) :: fillFrom (base + 1) bs

/-- The accesses a line stands for (30_encoding.md R94). -/
def AsmLine.expand : AsmLine → List HostOp
  | .wr a w => [.wr a w]
  | .rd a => [.rd a]
  | .clr => [.wr 0x0001 0x00000000]
  | .enc p absent => [.wr 0x0001 (encode (.encode p absent))]
  | .dec s absent => [.wr 0x0001 (encode (.decode s absent))]
  | .len n => [.wr 0x0003 n]
  | .fill bytes => fillFrom 0x4000 bytes
  | .fillText text => fillFrom 0x4000 (text.map charCode)
  | .wait => [.wait]
  | .dump k => (List.range k).map fun j => .rd (BitVec.ofNat 16 (0x8000 + j))

/-- The accesses of a whole program, line by line (30_encoding.md R94). -/
def assemble (lines : List AsmLine) : List HostOp := lines.flatMap AsmLine.expand

/-- A host program put before the machine, after what the host already has to do: how a program comes to run (log 3). -/
def State.load (s : State) (lines : List AsmLine) : State :=
  { s with program := s.program ++ assemble lines }

/-- One hexadecimal digit of a record, upper case: the character of code 0x30 + v below ten, and from ten on the letter
at 0x41 + (v - 10). -/
def hexDigit (v : Nat) : Char := Char.ofNat (if v < 10 then 0x30 + v else 0x41 + (v - 10))

/-- The last `k` hexadecimal digits of `v`, most significant first. -/
def hexDigits : Nat → Nat → List Char
  | 0, _ => []
  | k + 1, v => hexDigits k (v / 16) ++ [hexDigit (v % 16)]

/-- The record of one access: `W aaaa wwwwwwww` or `R aaaa` (30_encoding.md R94). WAIT repeats the read of STATUS, so
its record is that of one such read. -/
def HostOp.record : HostOp → List Char
  | .wr a w => ['W', ' '] ++ hexDigits 4 a.toNat ++ [' '] ++ hexDigits 8 w.toNat
  | .rd a => ['R', ' '] ++ hexDigits 4 a.toNat
  | .wait => ['R', ' '] ++ hexDigits 4 0x0002

end Sys2Proof.Machine
end

