-- ==== Sys2Proof/Machine/ClosedForm.lean ====
section
/-! DEFINITION. What the two pipelines compute, as functions of the whole input, and how many micro-steps they take
(41_encoder.md R137, R141; 42_decoder.md R178; 70_reset_and_hazards.md R227). The machine does not use them: claims
compare it with them. -/

namespace Sys2Proof.Machine

/-- The `width` low bits of `v`, most significant first (20_memory.md R56). -/
def bitsMsbFirst (width v : Nat) : List Bool := (List.range width).map fun k => v.testBit (width - 1 - k)

/-- The number whose bits, most significant first, are `B[start], ..., B[start + width - 1]` (20_memory.md R56). -/
def fieldValue (B : List Bool) (start width : Nat) : Nat :=
  (List.range width).foldl (fun acc k => 2 * acc + (B.getD (start + k) false).toNat) 0

/-- S, the number of alphabet symbols of an n-byte input (41_encoder.md R137). -/
def symbolCount (n : Nat) : Nat := ceilDiv (8 * n) 5

/-- The bit string B of 41_encoder.md R141: the 8n input bits, then 5S - 8n zero bits. -/
def encodeBits (x : List Byte) : List Bool :=
  x.flatMap (fun b => bitsMsbFirst 8 b.toNat)
    ++ List.replicate (5 * symbolCount x.length - 8 * x.length) false

/-- `encode(x, f)` in closed form (41_encoder.md R141). -/
def encodeText (x : List Byte) (f : Bool) : List Byte :=
  (List.range (symbolCount x.length)).map
      (fun k => romAlpha (BitVec.ofNat 5 (fieldValue (encodeBits x) (5 * k) 5)))
    ++ (if f then List.replicate (8 * ceilDiv x.length 5 - symbolCount x.length) padCode else [])

/-- P: the length of the text before its trailing run of `=` (42_decoder.md R161, R178). -/
def contentLength (t : List Byte) : Nat := t.length - (t.reverse.takeWhile (· == padCode)).length

/-- The bits of the content symbols' values, most significant first (42_decoder.md R178). -/
def contentBits (t : List Byte) : List Bool :=
  (t.take (contentLength t)).flatMap fun c => bitsMsbFirst 5 (lutValue c).toNat

/-- `decode(t, f)` in closed form (42_decoder.md R178): the decoded bytes, or the cause of the failure. -/
def decodeText (t : List Byte) (f : Bool) : Except Cause (List Byte) :=
  let P := contentLength t
  let OL := (5 * P) / 8
  let TL := (5 * P) % 8
  let last := t.getD (P - 1) 0
  if t.length = 0 then .ok []
  else if OL = 0 then .error .tooShort
  else if TL ≥ 5 then .error .redundantTrailingSymbol
  else if lutValid last = false then .error .invalidCharacter
  else if (lutValue last).toNat &&& mask TL ≠ 0 then .error .nonzeroTailBits
  else if f ∧ t.length - P ≠ (padTabM (missingBytes OL)).toNat then .error .invalidPaddingLength
  else if (t.take P).any (fun c => !lutValid c) then .error .invalidCharacter
  else .ok ((List.range OL).map fun k => BitVec.ofNat 8 (fieldValue (contentBits t) (8 * k) 8))

/-- The engine steps of an ENCODE of n bytes (70_reset_and_hazards.md R227). -/
def encodeStepCount (n : Nat) (f : Bool) : Nat :=
  2 * n + 8 * n / 5 + 5 + (if f then (padTabR (n % 5)).toNat else 0)

end Sys2Proof.Machine
end

