-- ==== Sys2Proof/Safety.lean ====
section
/-! DEFINITION. The terms claims use: the invariant of every run, which turns are the chip's own, and what of the state a
host cannot touch while a command runs. -/

namespace Sys2Proof.Machine

/-- The STATUS fields and SEQ agree (10_state.md R24, R26, R30): BUSY exactly when SEQ is not IDLE; never BUSY and DONE;
ERR only with DONE and a cause; without ERR no cause; OUT_LEN 0 unless the last command completed without error. -/
abbrev State.StatusOk (s : State) : Prop :=
  (s.status.busy = true ↔ s.seq ≠ .idle) ∧ s.seq ≠ .unused ∧
  ¬(s.status.busy = true ∧ s.status.done = true) ∧
  (s.status.err = true → s.status.done = true ∧ s.status.cause ≠ .none) ∧
  (s.status.err = false → s.status.cause = .none) ∧
  ((s.status.done = false ∨ s.status.err = true) → s.outLen = 0)

/-- Every entry of a buffer below `k` has been written. -/
abbrev writtenBelow (m : Memory) (k : Nat) : Prop := ∀ j, j < k → m.read j ≠ none

/-- The buffers keep their canonical form and their size (10_state.md R38), and the result below OUT_LEN has been
written (20_memory.md R64). -/
abbrev State.BuffersOk (s : State) : Prop :=
  s.ibuf.wf ∧ s.obuf.wf ∧
  (∀ c ∈ s.ibuf, c.1 < s.depth.val) ∧ (∀ c ∈ s.obuf, c.1 < obufDepth s.depth) ∧
  s.outLen.toNat ≤ obufDepth s.depth ∧ writtenBelow s.obuf s.outLen.toNat

/-- The length of the symbols, and of the whole output, of an ENCODE of `n` bytes (41_encoder.md R137). -/
def encodedLength (n : Nat) (f : Bool) : Nat := if f then 8 * ceilDiv n 5 else symbolCount n

/-- The encoder's bit accounting (41_encoder.md R139, R140): the 8*I bits taken are the 5*O bits given out and the
E_CNT bits still in E_ACC, and every output entry below O has been written. -/
abbrev State.EncoderOk (s : State) (cntMax : Nat) : Prop :=
  s.eCnt.toNat ≤ cntMax ∧ s.eAcc.toNat < 2 ^ s.eCnt.toNat ∧ s.i.toNat ≤ s.n.toNat ∧
  8 * s.i.toNat = 5 * s.o.toNat + s.eCnt.toNat ∧ writtenBelow s.obuf s.o.toNat

/-- The decoder's length accounting after D_ACCOUNT passed (42_decoder.md R162, R163, R180). -/
abbrev State.AccountOk (s : State) : Prop :=
  s.p.toNat ≤ s.n.toNat ∧ 5 * s.p.toNat = 8 * s.ol.toNat + s.tl.toNat ∧ 1 ≤ s.ol.toNat ∧ s.tl.toNat ≤ 4

/-- The decoder's bit accounting (42_decoder.md R179, R180): the 5*I bits loaded are the 8*O bits given out and the
D_CNT bits still in D_ACC, and every output entry below O has been written. -/
abbrev State.DecoderOk (s : State) : Prop :=
  s.AccountOk ∧ s.dCnt.toNat ≤ 12 ∧ s.dAcc.toNat < 2 ^ s.dCnt.toNat ∧ s.i.toNat ≤ s.p.toNat ∧
  s.o.toNat < s.ol.toNat ∧ 5 * s.i.toNat = 8 * s.o.toNat + s.dCnt.toNat ∧ writtenBelow s.obuf s.o.toNat

/-- What holds of the datapath in each phase (10_state.md R31 to R36; 41_encoder.md R139, R140; 42_decoder.md R163, R179,
R180). -/
def State.DatapathOk (s : State) : Prop :=
  match s.seq with
  | .idle => True
  | .eInit => s.opc = 0b01#2
  | .eAppend => s.opc = 0b01#2 ∧ s.EncoderOk 4
  | .eExtract => s.opc = 0b01#2 ∧ s.EncoderOk 12
  | .eFlush => s.opc = 0b01#2 ∧ s.EncoderOk 4 ∧ s.i = s.n
  | .ePadInit => s.opc = 0b01#2 ∧ s.o.toNat = symbolCount s.n.toNat ∧ writtenBelow s.obuf s.o.toNat
  | .ePad =>
    s.opc = 0b01#2 ∧ s.o.toNat + s.padCnt.toNat = encodedLength s.n.toNat s.flag ∧ writtenBelow s.obuf s.o.toNat
  | .dInit => s.opc = 0b10#2
  | .dScan => s.opc = 0b10#2 ∧ 1 ≤ s.n.toNat ∧ s.p.toNat ≤ s.n.toNat
  | .dAccount => s.opc = 0b10#2 ∧ s.p.toNat ≤ s.n.toNat
  | .dTail => s.opc = 0b10#2 ∧ s.AccountOk
  | .dPadChk => s.opc = 0b10#2 ∧ s.AccountOk
  | .dLoopInit => s.opc = 0b10#2 ∧ s.AccountOk
  | .dLoad => s.opc = 0b10#2 ∧ s.DecoderOk
  | .dExtract => s.opc = 0b10#2 ∧ s.DecoderOk ∧ 8 ≤ s.dCnt.toNat
  | .unused => True

/-- The invariant of B32C: it holds after reset and every step keeps it. -/
structure State.Inv (s : State) : Prop where
  status : s.StatusOk
  buffers : s.BuffersOk
  length : s.status.busy = true → s.n.toNat ≤ s.depth.val
  datapath : s.DatapathOk

/-- What of the state no host step changes while a command runs (40_commands.md R110, R115): everything but OVR, what
is left of the host's program and of the schedule, and what the host's reads returned and drew. -/
def State.underCommand (s : State) : State :=
  { s with
    status := { s.status with ovr := false }
    program := []
    turns := []
    returned := []
    draws := 0 }

/-- `k` steps of the machine, stopping at the first fault or refusal. -/
def runSteps : Nat → State → Result
  | 0, s => .next s
  | k + 1, s =>
    match step s with
    | .next t => runSteps k t
    | .fault r => .fault r
    | .refused r => .refused r

/-- The machine `t` runs a command that ends at its `k`-th step, in `u`, and not before (70_reset_and_hazards.md R227,
R228). -/
def State.CompletesIn (t : State) (k : Nat) (u : State) : Prop :=
  runSteps k t = .next u ∧ u.status.busy = false ∧
  ∀ j, j < k → ∃ v, runSteps j t = .next v ∧ v.status.busy = true

/-- The command input `x` lies in IBUF[0 .. IN_LEN - 1], and IN_LEN is in range: what a host does before it writes CMD
(70_reset_and_hazards.md R222). -/
def State.HasInput (s : State) (x : List Byte) : Prop :=
  s.inLen.toNat = x.length ∧ x.length ≤ s.depth.val ∧ ∀ j (h : j < x.length), s.ibuf.read j = some x[j]

/-- OBUF[0 .. OUT_LEN - 1] is `y` (10_state.md R26, 20_memory.md R54). -/
def State.HasOutput (s : State) (y : List Byte) : Prop :=
  s.outLen.toNat = y.length ∧ ∀ j (h : j < y.length), s.obuf.read j = some y[j]

end Sys2Proof.Machine
end

