-- ==== Sys2Proof/Certificates/Slice0/Obligations.lean ====
section
/-! DEFINITION. What is claimed of the model: one definition per statement. -/

open Sys2Proof Sys2Proof.Machine

/-! ## Encodings and tables -/

/-- The decoder and the encoder agree on every word and every command (30_encoding.md R80, R81, R93): a word decodes to
a command exactly when it is that command's word. -/
def Obligations.DecodeEncodeAgree : Prop :=
  ∀ (w : Word) (i : Instr), decode w = .ok i ↔ w = encode i

/-- 30_encoding.md R93: a word selects the row whose `w & mask = match`, with F = w[2] and A = w[3]; a word that matches
no row is reserved. -/
def Obligations.WordSelectsRowByMaskAndMatch : Prop :=
  ∀ w : Word,
    (∀ f a, decode w = .ok (.clear f a) ↔
      w &&& 0xFFFFFFF3#32 = 0x00000000#32 ∧ f = w.getLsbD 2 ∧ a = w.getLsbD 3) ∧
    (∀ f a, decode w = .ok (.encode f a) ↔
      w &&& 0xFFFFFFF3#32 = 0x00000001#32 ∧ f = w.getLsbD 2 ∧ a = w.getLsbD 3) ∧
    (∀ f a, decode w = .ok (.decode f a) ↔
      w &&& 0xFFFFFFF3#32 = 0x00000002#32 ∧ f = w.getLsbD 2 ∧ a = w.getLsbD 3) ∧
    ((∃ r, decode w = .error r) ↔
      w &&& 0xFFFFFFF3#32 ≠ 0x00000000#32 ∧ w &&& 0xFFFFFFF3#32 ≠ 0x00000001#32 ∧
      w &&& 0xFFFFFFF3#32 ≠ 0x00000002#32)

/-- The command words of 30_encoding.md R94 and of the test vectors decode to the commands they stand for, and reserved
ones to none. -/
def Obligations.SampleCommandWordsDecode : Prop :=
  decode 0x00000000#32 = .ok (.clear false false) ∧ decode 0x00000001#32 = .ok (.encode false false) ∧
  decode 0x00000005#32 = .ok (.encode true false) ∧ decode 0x0000000D#32 = .ok (.encode true true) ∧
  decode 0x00000002#32 = .ok (.decode false false) ∧ decode 0x00000006#32 = .ok (.decode true false) ∧
  decode 0x0000000E#32 = .ok (.decode true true) ∧ decode 0x00000003#32 = .error .opcode ∧
  decode 0x00000011#32 = .error .resBits ∧ decode 0x80000000#32 = .error .resBits

/-- 30_encoding.md R89: ROM_ALPHA and LUT are inverse bijections on the alphabet. -/
def Obligations.RomAlphaAndLutAreInverse : Prop :=
  (∀ v : BitVec 5, lutValid (romAlpha v) = true ∧ lutValue (romAlpha v) = v) ∧
  (∀ c : Byte, lutValid c = true → romAlpha (lutValue c) = c)

/-- 30_encoding.md R85: LUT maps the code of each symbol of the alphabet to its value with valid = 1, and every other
code to 0; exactly 32 codes are valid, and the named codes and the lower-case letters are not. -/
def Obligations.LutMapsTheAlphabetOnly : Prop :=
  (∀ c : Byte, (∃ v, c = romAlpha v ∧ lut c = 1#1 ++ v) ∨ ((∀ v, c ≠ romAlpha v) ∧ lut c = 0b000000#6)) ∧
  (((List.range 256).map (BitVec.ofNat 8)).filter lutValid).length = 32 ∧
  (∀ c ∈ [0x3D#8, 0x30#8, 0x31#8, 0x38#8, 0x39#8], lutValid c = false) ∧
  (∀ c : Byte, 0x61 ≤ c.toNat → c.toNat ≤ 0x7A → lutValid c = false)

/-- 30_encoding.md R87, R88: the two padding tables, and that they agree under their two indices. 41_encoder.md R138:
symbols and padding together reach the next multiple of 8. -/
def Obligations.PaddingTablesReachMultipleOfEight : Prop :=
  (List.range 5).map (fun r => (padTabR r).toNat) = [0, 6, 4, 3, 1] ∧
  (List.range 5).map (fun m => (padTabM m).toNat) = [0, 1, 3, 4, 6] ∧
  ∀ n : Nat,
    missingBytes n = (5 - n % 5) % 5 ∧ padTabM (missingBytes n) = padTabR (n % 5) ∧
    ceilDiv (8 * n) 5 + (padTabR (n % 5)).toNat = 8 * ceilDiv n 5 ∧
    8 * ceilDiv n 5 = 8 * ceilDiv (ceilDiv (8 * n) 5) 8

/-- 42_decoder.md R165: the final content symbols whose low TL bits are 0, for each TL that passes D_ACCOUNT. -/
def Obligations.CanonicalFinalSymbols : Prop :=
  ∀ c : Byte,
    let passes := fun tl : Nat => lutValid c = true ∧ (lutValue c).toNat % 2 ^ tl = 0
    (passes 0 ↔ c ∈ "ABCDEFGHIJKLMNOPQRSTUVWXYZ234567".toList.map charCode) ∧
    (passes 1 ↔ c ∈ "ACEGIKMOQSUWY246".toList.map charCode) ∧
    (passes 2 ↔ c ∈ "AEIMQUY4".toList.map charCode) ∧
    (passes 3 ↔ c ∈ "AIQY".toList.map charCode) ∧
    (passes 4 ↔ c ∈ "AQ".toList.map charCode)

/-- 60_exceptions.md R200: the code of each cause. -/
def Obligations.CauseCodes : Prop :=
  [Cause.none, .invalidArgument, .tooShort, .redundantTrailingSymbol, .invalidCharacter, .nonzeroTailBits,
    .invalidPaddingLength, .illegalCommand, .capacity].map (fun c => (causeCode c).toNat) = [0, 1, 2, 3, 4, 5, 6, 7, 8] ∧
  ∀ c : Cause, (causeCode c).toNat ≤ 8

/-! ## A step -/

/-- The command word of the host's next access, when it is the host's turn, is decoded and run: the rest of the schedule
and of the host's program is all that the step changes around the command (20_memory.md R66, 40_commands.md R100; logs 2
and 3). -/
def Obligations.StepRunsSelectedCommand : Prop :=
  ∀ (s : State) (w : Word) (i : Instr) (rest : List HostOp),
    s.program = .wr 0x0001#16 w :: rest → decode w = .ok i →
    (∀ ts, s.turns = .host :: ts → step s = exec i { s with turns := ts, program := rest }) ∧
    (s.turns = [] → engineEnabled s.seq = false → step s = exec i { s with program := rest })

/-- Each step is the step of the agent whose turn it is (20_memory.md R62); when the schedule has run out, the engine steps
while SEQ names a micro-step, and else the host (DESIGN CHOICE, log 2). An idle engine and a host with nothing left to do
change nothing (40_commands.md R111; log 4), and neither does an engine whose SEQ has the unused encoding (93 U9;
log 8). A host step makes the next access of the host's program: a HostWrite or a HostRead, at its address and with its
word (20_memory.md R51; log 3). -/
def Obligations.StepFollowsTurns : Prop :=
  (∀ (s : State) (ts : List Turn), s.turns = .host :: ts → step s = hostStep { s with turns := ts }) ∧
  (∀ (s : State) (ts : List Turn), s.turns = .engine :: ts → step s = engineStep { s with turns := ts }) ∧
  (∀ s : State, s.turns = [] → s.seq ≠ .idle → s.seq ≠ .unused → step s = engineStep s) ∧
  (∀ s : State, s.turns = [] → (s.seq = .idle ∨ s.seq = .unused) → step s = hostStep s) ∧
  (∀ s : State, (s.seq = .idle ∨ s.seq = .unused) → engineStep s = .next s) ∧
  (∀ s : State, s.program = [] → hostStep s = .next s) ∧
  (∀ (s : State) (a : Addr) (w : Word) (rest : List HostOp), s.program = .wr a w :: rest →
    hostStep s = hostWrite a w { s with program := rest }) ∧
  (∀ (s : State) (a : Addr) (rest : List HostOp), s.program = .rd a :: rest →
    hostStep s = .next (hostRead a { s with program := rest }))

/-! ## The CMD write -/

/-- 40_commands.md R101: an accepted CMD write runs the checks in their fixed order, and only the first that applies takes
effect. -/
def Obligations.CmdWriteRunsChecksInOrder : Prop :=
  ∀ (w : Word) (s : State), s.status.busy = false →
    cmdWrite w s = .next
      (let t := { s with status := { s.status with done := false, err := false, cause := .none }, outLen := 0 }
       if w.toNat / 16 ≠ 0 ∨ w.toNat % 4 = 3 then completeError .illegalCommand t
       else if w.toNat % 4 = 0 then { t with status := { t.status with ovr := false } }
       else if w.getLsbD 3 then completeError .invalidArgument t
       else if s.inLen.toNat > s.depth.val then completeError .capacity t
       else startCommand (BitVec.ofNat 2 (w.toNat % 4)) (w.getLsbD 2) t)

/-- 40_commands.md R107: a reserved word is refused with ILLEGAL_COMMAND and nothing else happens. -/
def Obligations.ReservedWordIsIllegalCommand : Prop :=
  ∀ (w : Word) (s : State), s.status.busy = false → (w.toNat / 16 ≠ 0 ∨ w.toNat % 4 = 3) →
    ∃ t, cmdWrite w s = .next t ∧
      t = { s with
        status := ⟨false, true, true, s.status.ovr, .illegalCommand⟩
        outLen := 0
        seq := .idle } ∧
      (s.status.ovr = false → statusWord t.status = 0x00000076#32)

/-- 40_commands.md R103: CLEAR clears DONE, ERR, CAUSE, OUT_LEN and OVR, whatever F and A are, and changes nothing else;
while BUSY = 1 it is dropped and sets OVR. -/
def Obligations.ClearClearsStatus : Prop :=
  ∀ (f a : Bool) (s : State),
    (s.status.busy = false →
      ∃ t, exec (.clear f a) s = .next t ∧
        t = { s with status := ⟨false, false, false, false, .none⟩, outLen := 0 } ∧
        statusWord t.status = 0x00000000#32) ∧
    (s.status.busy = true →
      exec (.clear f a) s = .next { s with status := { s.status with ovr := true } })

/-- 40_commands.md R106: an ENCODE or DECODE that passes the checks latches OPC, FLAG and N, sets BUSY and the first
phase, and changes nothing else but what every accepted CMD write clears. From there until completion, the engine has an
enabled step. -/
def Obligations.EncodeAndDecodeStart : Prop :=
  (∀ s : State, s.Inv → s.status.busy = true → engineEnabled s.seq = true) ∧
  ∀ (f : Bool) (s : State), s.status.busy = false → s.inLen.toNat ≤ s.depth.val →
    (∃ t, exec (.encode f false) s = .next t ∧ t.n.toNat = s.inLen.toNat ∧
      t = { s with
        status := ⟨true, false, false, s.status.ovr, .none⟩
        outLen := 0
        opc := 0b01#2
        flag := f
        n := t.n
        seq := .eInit } ∧ engineEnabled t.seq = true) ∧
    (∃ t, exec (.decode f false) s = .next t ∧ t.n.toNat = s.inLen.toNat ∧
      t = { s with
        status := ⟨true, false, false, s.status.ovr, .none⟩
        outLen := 0
        opc := 0b10#2
        flag := f
        n := t.n
        seq := .dInit } ∧ engineEnabled t.seq = true)

/-- 40_commands.md R108: ENCODE or DECODE with the argument-absent marker completes with INVALID_ARGUMENT, whatever IN_LEN
is, and changes nothing else. -/
def Obligations.AbsentArgumentIsRefused : Prop :=
  ∀ (f : Bool) (s : State), s.status.busy = false →
    ∃ t, exec (.encode f true) s = .next t ∧ exec (.decode f true) s = .next t ∧
      t = { s with
        status := ⟨false, true, true, s.status.ovr, .invalidArgument⟩
        outLen := 0
        seq := .idle } ∧
      (s.status.ovr = false → statusWord t.status = 0x00000016#32)

/-- 40_commands.md R109: ENCODE or DECODE with IN_LEN above IBUF_DEPTH completes with CAPACITY and changes nothing else. -/
def Obligations.OverlongInputIsRefused : Prop :=
  ∀ (f : Bool) (s : State), s.status.busy = false → s.depth.val < s.inLen.toNat →
    ∃ t, exec (.encode f false) s = .next t ∧ exec (.decode f false) s = .next t ∧
      t = { s with
        status := ⟨false, true, true, s.status.ovr, .capacity⟩
        outLen := 0
        seq := .idle } ∧
      (s.status.ovr = false → statusWord t.status = 0x00000086#32)

/-- Every command answers a next state, and only STATUS, OUT_LEN, SEQ and the latches OPC, FLAG and N can differ in it:
the frame of the three commands, with every byte of both buffers as before (40_commands.md R101 to R106). -/
def Obligations.CommandsKeepBuffersAndDatapath : Prop :=
  ∀ (i : Instr) (s : State), ∃ t, exec i s = .next t ∧
    t = { s with
      status := t.status
      outLen := t.outLen
      seq := t.seq
      opc := t.opc
      flag := t.flag
      n := t.n } ∧
    (∀ j, t.ibuf.read j = s.ibuf.read j) ∧ (∀ j, t.obuf.read j = s.obuf.read j) ∧
    (t.status.busy = s.status.busy → t.opc = s.opc ∧ t.flag = s.flag ∧ t.n = s.n)

/-- 40_commands.md R110: while BUSY = 1 a host write to CMD, to IN_LEN or to an IBUF entry changes nothing but OVR, a host
write elsewhere changes nothing, and OVR stays 1 until a CLEAR or a reset. -/
def Obligations.BusyWritesAreDropped : Prop :=
  (∀ (a : Addr) (w : Word) (s : State), s.status.busy = true →
    ((a = 0x0001#16 ∨ a = 0x0003#16 ∨ (0x4000 ≤ a.toNat ∧ a.toNat < 0x8000 ∧ a.toNat - 0x4000 < s.depth.val)) →
      hostWrite a w s = .next { s with status := { s.status with ovr := true } }) ∧
    (¬(a = 0x0001#16 ∨ a = 0x0003#16 ∨ (0x4000 ≤ a.toNat ∧ a.toNat < 0x8000 ∧ a.toNat - 0x4000 < s.depth.val)) →
      hostWrite a w s = .next s)) ∧
  (∀ s t : State, step s = .next t → s.status.ovr = true → t.status.ovr = false →
    (∃ ts, s.turns = .reset :: ts) ∨
    (s.status.busy = false ∧ ∃ f a rest, s.program = .wr 0x0001#16 (encode (.clear f a)) :: rest))

/-- `complete_ok(L)` (60_exceptions.md R201) and `complete_error(c)` (R202), whole: what they write and what they leave. An
engine step that ends a command is one of the micro-steps these rules name, and ends it by one of the two. -/
def Obligations.CompletionEndsTheCommand : Prop :=
  (∀ (L : Nat) (s : State), L ≤ obufDepth s.depth →
    ∃ t, completeOk L s = t ∧ t.outLen.toNat = L ∧
      t = { s with status := ⟨false, true, false, s.status.ovr, .none⟩, outLen := t.outLen, seq := .idle }) ∧
  (∀ (c : Cause) (s : State),
    completeError c s = { s with status := ⟨false, true, true, s.status.ovr, c⟩, outLen := 0, seq := .idle }) ∧
  (∀ s t : State, s.seq ≠ .idle → engineStep s = .next t → t.seq = .idle →
    (t.status = ⟨false, true, false, s.status.ovr, .none⟩ ∧ (s.seq = .ePad ∨ s.seq = .dInit ∨ s.seq = .dExtract)) ∨
    (∃ c, t.status = ⟨false, true, true, s.status.ovr, c⟩ ∧ c ≠ .none ∧ t.outLen = 0 ∧ t.inLen = s.inLen ∧
      t.ibuf = s.ibuf ∧ t.obuf = s.obuf ∧
      (s.seq = .dAccount ∨ s.seq = .dTail ∨ s.seq = .dPadChk ∨ s.seq = .dLoad)))

/-! ## The host's registers and windows -/

/-- The STATUS word shows the fields at their places, its other bits read 0, and done_o is its bit 1; a write to it does
nothing (10_state.md R23, R29). -/
def Obligations.StatusWordShowsFields : Prop :=
  ∀ s : State,
    (readValue 0x0002#16 s).getLsbD 0 = s.status.busy ∧ (readValue 0x0002#16 s).getLsbD 1 = s.status.done ∧
    (readValue 0x0002#16 s).getLsbD 2 = s.status.err ∧ (readValue 0x0002#16 s).getLsbD 3 = s.status.ovr ∧
    (readValue 0x0002#16 s).extractLsb' 4 4 = causeCode s.status.cause ∧
    (readValue 0x0002#16 s).extractLsb' 8 24 = 0#24 ∧
    s.doneO = s.status.done ∧ s.doneO = (readValue 0x0002#16 s).getLsbD 1 ∧
    ∀ w, hostWrite 0x0002#16 w s = .next s

/-- 10_state.md R21, R22, R27, and what a read and a write of OUT_LEN do: ID and DEPTH read as constants and OUT_LEN as
its 15 bits; CMD reads 0; a write to ID, OUT_LEN or DEPTH does nothing, and a write to CMD issues a command. -/
def Obligations.ReadOnlyRegistersAndCmd : Prop :=
  ∀ s : State,
    readValue 0x0000#16 s = 0x42333207#32 ∧ readValue 0x0001#16 s = 0x00000000#32 ∧
    (readValue 0x0004#16 s).toNat = s.outLen.toNat ∧
    (readValue 0x0005#16 s).toNat = s.depth.val ∧ 1 ≤ s.depth.val ∧ s.depth.val ≤ 16384 ∧
    ∀ w, hostWrite 0x0000#16 w s = .next s ∧ hostWrite 0x0001#16 w s = cmdWrite w s ∧
      hostWrite 0x0004#16 w s = .next s ∧ hostWrite 0x0005#16 w s = .next s

/-- 10_state.md R25: IN_LEN stores any whole 32-bit word while BUSY = 0, drops a write while BUSY = 1, reads back what it
stores, and is 0 after reset. -/
def Obligations.InLenStoresWholeWord : Prop :=
  (∀ (w : Word) (s : State),
    (s.status.busy = false → ∃ t, hostWrite 0x0003#16 w s = .next t ∧ t = { s with inLen := w } ∧
      readValue 0x0003#16 t = w) ∧
    (s.status.busy = true → hostWrite 0x0003#16 w s = .next { s with status := { s.status with ovr := true } }) ∧
    readValue 0x0003#16 s = s.inLen) ∧
  State.reset.inLen = 0#32

/-- 20_memory.md R53: what the IBUF window does, at every address and for every word. The value of a read of an entry not
written since reset is free: all that is said of it is that it is an 8-bit value, zero-extended (93 U2; log 6). -/
def Obligations.IbufWindowAccess : Prop :=
  ∀ (a : Addr) (i : Nat) (w : Word) (s : State), a.toNat = 0x4000 + i → i ≤ 0x3FFF →
    (s.depth.val ≤ i → hostWrite a w s = .next s ∧ readValue a s = 0#32) ∧
    (i < s.depth.val → s.status.busy = true →
      hostWrite a w s = .next { s with status := { s.status with ovr := true } }) ∧
    (i < s.depth.val → s.status.busy = false →
      ∃ t, hostWrite a w s = .next t ∧ t = { s with ibuf := t.ibuf } ∧
        ∀ j, t.ibuf.read j = if j = i then some (w.extractLsb' 0 8) else s.ibuf.read j) ∧
    (∀ b, i < s.depth.val → s.ibuf.read i = some b → readValue a s = b.setWidth 32) ∧
    (i < s.depth.val → ∃ u : Byte, readValue a s = u.setWidth 32)

/-- 20_memory.md R54: what the OBUF window does, at every address. The value of a read outside the result is free: all
that is said of it is that it is an 8-bit value, zero-extended. -/
def Obligations.ObufWindowAccess : Prop :=
  ∀ (a : Addr) (i : Nat) (w : Word) (s : State), a.toNat = 0x8000 + i → i ≤ 0x7FFF →
    hostWrite a w s = .next s ∧
    (obufDepth s.depth ≤ i → readValue a s = 0#32) ∧
    (∀ b, i < obufDepth s.depth → s.status.busy = false → i < s.outLen.toNat → s.obuf.read i = some b →
      readValue a s = b.setWidth 32) ∧
    (i < obufDepth s.depth → (s.status.busy = true ∨ s.outLen.toNat ≤ i) →
      ∃ u : Byte, readValue a s = u.setWidth 32)

/-- 20_memory.md R55: unmapped addresses read 0 and ignore writes, also while BUSY = 1 and without setting OVR; so do
writes to the read-only registers, and CMD reads 0. -/
def Obligations.UnmappedAddressesDoNothing : Prop :=
  ∀ (a : Addr) (w : Word) (s : State),
    (0x0006 ≤ a.toNat → a.toNat ≤ 0x3FFF → readValue a s = 0#32 ∧ hostWrite a w s = .next s) ∧
    (a = 0x0000#16 ∨ a = 0x0002#16 ∨ a = 0x0004#16 ∨ a = 0x0005#16 → hostWrite a w s = .next s) ∧
    readValue 0x0001#16 s = 0#32

/-- No read has a side effect on B32C, and every read is idempotent but one of OBUF outside the result, which uses up one
draw (20_memory.md R60, R54; the counter of draws is the model's own, log 6). -/
def Obligations.ReadsChangeNothing : Prop :=
  ∀ (a : Addr) (s : State),
    hostRead a s = { s with returned := readValue a s :: s.returned, draws := (hostRead a s).draws } ∧
    (¬(∃ i, a.toNat = 0x8000 + i ∧ i < obufDepth s.depth ∧ (s.status.busy = true ∨ s.outLen.toNat ≤ i)) →
      (hostRead a s).draws = s.draws ∧ readValue a (hostRead a s) = readValue a s) ∧
    ((∃ i, a.toNat = 0x8000 + i ∧ i < obufDepth s.depth ∧ (s.status.busy = true ∨ s.outLen.toNat ≤ i)) →
      (hostRead a s).draws = s.draws + 1 ∧ readValue a s = (Config.readDraw s.draws).setWidth 32)

/-- 30_encoding.md R94, WAIT: each of its host steps reads STATUS and returns the word; it ends only when the BUSY bit read
is 0. -/
def Obligations.WaitRepeatsWhileBusy : Prop :=
  ∀ (s : State) (rest : List HostOp), s.program = .wait :: rest →
    (s.status.busy = true → hostStep s = .next { s with returned := statusWord s.status :: s.returned }) ∧
    (s.status.busy = false →
      hostStep s = .next { s with program := rest, returned := statusWord s.status :: s.returned })

/-- 30_encoding.md R94: the accesses each line stands for, at the addresses and with the words given there. `FILL "text"`
writes the character codes of its text, those of R84 and R86 (US-ASCII, log 11); WAIT is one line of the host's program,
whose steps Obligations.WaitRepeatsWhileBusy gives (log 3). FILL and DUMP stay in their windows for well-formed lines
(log 16). -/
def Obligations.AssemblerLinesExpand : Prop :=
  (∀ (a : Addr) (w : Word), (AsmLine.wr a w).expand = [.wr a w] ∧ (AsmLine.rd a).expand = [.rd a]) ∧
  AsmLine.wait.expand = [.wait] ∧
  AsmLine.clr.expand = [.wr 0x0001#16 0x00000000#32] ∧
  (∀ p : Bool, ∀ absent : Bool, (AsmLine.enc p absent).expand =
    [.wr 0x0001#16 (0x1#32 ||| (if p then 0x4#32 else 0#32) ||| (if absent then 0x8#32 else 0#32))]) ∧
  (∀ p : Bool, ∀ absent : Bool, (AsmLine.dec p absent).expand =
    [.wr 0x0001#16 (0x2#32 ||| (if p then 0x4#32 else 0#32) ||| (if absent then 0x8#32 else 0#32))]) ∧
  (∀ n : Word, (AsmLine.len n).expand = [.wr 0x0003#16 n]) ∧
  (∀ bytes : List Byte, bytes.length ≤ 0x4000 →
    (AsmLine.fill bytes).expand.length = bytes.length ∧
    ∀ k (h : k < bytes.length),
      ∃ a : Addr, (AsmLine.fill bytes).expand[k]? = some (.wr a (bytes[k].setWidth 32)) ∧ a.toNat = 0x4000 + k) ∧
  (∀ text : List Char, text.length ≤ 0x4000 → (∀ c ∈ text, c.toNat < 128) →
    (AsmLine.fillText text).expand.length = text.length ∧
    ∀ k (h : k < text.length), ∃ (a : Addr) (b : Byte), (AsmLine.fillText text).expand[k]? = some (.wr a (b.setWidth 32)) ∧
      a.toNat = 0x4000 + k ∧ b = charCode text[k] ∧ b.toNat = text[k].toNat) ∧
  (∀ v : BitVec 5, charCode ("ABCDEFGHIJKLMNOPQRSTUVWXYZ234567".toList.getD v.toNat '=') = romAlpha v) ∧
  charCode '=' = padCode ∧
  (∀ k : Nat, k ≤ 0x8000 →
    (AsmLine.dump k).expand.length = k ∧
    ∀ j, j < k → ∃ a : Addr, (AsmLine.dump k).expand[j]? = some (.rd a) ∧ a.toNat = 0x8000 + j)

/-! ## Reset -/

/-- 10_state.md R39: the value of every piece of state after reset. Every buffer entry holds no defined value. -/
def Obligations.ResetValues : Prop :=
  idWord = 0x42333207#32 ∧ statusWord State.reset.status = 0#32 ∧ State.reset.inLen = 0#32 ∧
  State.reset.outLen = 0#15 ∧ State.reset.depth = Config.ibufDepth ∧ State.reset.doneO = false ∧
  State.reset.seq = .idle ∧ State.reset.opc = 0#2 ∧ State.reset.flag = false ∧ State.reset.n = 0#15 ∧
  State.reset.eAcc = 0#13 ∧ State.reset.eCnt = 0#4 ∧ State.reset.padCnt = 0#3 ∧ State.reset.dAcc = 0#12 ∧
  State.reset.dCnt = 0#4 ∧ State.reset.i = 0#15 ∧ State.reset.o = 0#15 ∧ State.reset.p = 0#15 ∧
  State.reset.ol = 0#14 ∧ State.reset.tl = 0#3 ∧
  (∀ j, State.reset.ibuf.read j = none) ∧ (∀ j, State.reset.obuf.read j = none)

/-- 70_reset_and_hazards.md R220, R221: the reset event, at any time and also while a command runs, sets every register,
field, latch and pin to its reset value in one step, abandons the command, and leaves no buffer entry with a defined
value; IBUF_DEPTH is the chip's. -/
def Obligations.ResetEventSetsResetValues : Prop :=
  ∀ (s : State) (ts : List Turn), s.turns = .reset :: ts →
    ∃ t, step s = .next t ∧ t.status = ⟨false, false, false, false, .none⟩ ∧ t.doneO = false ∧
      t.inLen = 0#32 ∧ t.outLen = 0#15 ∧ t.depth = s.depth ∧ t.seq = .idle ∧ t.opc = 0#2 ∧ t.flag = false ∧
      t.n = 0#15 ∧ t.eAcc = 0#13 ∧ t.eCnt = 0#4 ∧ t.padCnt = 0#3 ∧ t.dAcc = 0#12 ∧ t.dCnt = 0#4 ∧
      t.i = 0#15 ∧ t.o = 0#15 ∧ t.p = 0#15 ∧ t.ol = 0#14 ∧ t.tl = 0#3 ∧
      (∀ j, t.ibuf.read j = none) ∧ (∀ j, t.obuf.read j = none)

/-! ## The encoder pipeline -/

/-- 41_encoder.md R130: E_INIT clears the encoder's registers and the indices, and changes nothing else. -/
def Obligations.EncoderInitClearsDatapath : Prop :=
  ∀ s : State, s.seq = .eInit →
    engineStep s = .next { s with eAcc := 0, eCnt := 0, i := 0, o := 0, padCnt := 0, seq := .eAppend }

/-- 41_encoder.md R131: E_APPEND appends one input byte below the unconsumed bits, losing none, and goes to E_FLUSH when
the input is done. -/
def Obligations.AppendTakesOneByte : Prop :=
  ∀ s : State, s.Inv → s.seq = .eAppend →
    s.eCnt.toNat ≤ 4 ∧
    (∀ b, s.i.toNat < s.n.toNat → s.ibuf.read s.i.toNat = some b →
      ∃ t, engineStep s = .next t ∧
        t = { s with eAcc := t.eAcc, eCnt := t.eCnt, i := t.i, seq := .eExtract } ∧
        t.eAcc.toNat = 256 * s.eAcc.toNat + b.toNat ∧ t.eCnt.toNat = s.eCnt.toNat + 8 ∧
        t.i.toNat = s.i.toNat + 1) ∧
    (s.n.toNat ≤ s.i.toNat → engineStep s = .next { s with seq := .eFlush })

/-- 41_encoder.md R132: E_EXTRACT writes the symbol of the five oldest unconsumed bits and keeps the others, while at least
five remain. -/
def Obligations.ExtractEmitsOldestFiveBits : Prop :=
  ∀ s : State, s.Inv → s.seq = .eExtract →
    (5 ≤ s.eCnt.toNat →
      ∃ t, engineStep s = .next t ∧
        t = { s with obuf := t.obuf, o := t.o, eCnt := t.eCnt, eAcc := t.eAcc } ∧
        (∀ j, t.obuf.read j =
          if j = s.o.toNat then some (romAlpha (BitVec.ofNat 5 (s.eAcc.toNat / 2 ^ (s.eCnt.toNat - 5))))
          else s.obuf.read j) ∧
        s.eAcc.toNat / 2 ^ (s.eCnt.toNat - 5) < 32 ∧
        t.o.toNat = s.o.toNat + 1 ∧ t.eCnt.toNat = s.eCnt.toNat - 5 ∧
        t.eAcc.toNat = s.eAcc.toNat % 2 ^ (s.eCnt.toNat - 5)) ∧
    (s.eCnt.toNat < 5 → engineStep s = .next { s with seq := .eAppend })

/-- 41_encoder.md R133: E_FLUSH writes the remaining bits, filled with zeros below, as one last symbol, if any remain; the
number of bits left is (8*N) mod 5. -/
def Obligations.FlushEmitsZeroFilledSymbol : Prop :=
  ∀ s : State, s.Inv → s.seq = .eFlush →
    s.eCnt.toNat = 8 * s.n.toNat % 5 ∧
    (0 < s.eCnt.toNat →
      ∃ t, engineStep s = .next t ∧
        t = { s with obuf := t.obuf, o := t.o, eCnt := 0, eAcc := 0, seq := .ePadInit } ∧
        (∀ j, t.obuf.read j =
          if j = s.o.toNat then some (romAlpha (BitVec.ofNat 5 (s.eAcc.toNat * 2 ^ (5 - s.eCnt.toNat))))
          else s.obuf.read j) ∧
        s.eAcc.toNat * 2 ^ (5 - s.eCnt.toNat) < 32 ∧ t.o.toNat = s.o.toNat + 1) ∧
    (s.eCnt.toNat = 0 → engineStep s = .next { s with seq := .ePadInit })

/-- 41_encoder.md R134, R135: E_PADINIT loads PADCNT from the table when padding is asked for; E_PAD writes one `=` while
PADCNT is not 0, and then completes with OUT_LEN = O. -/
def Obligations.PaddingGeneratorEmitsPadding : Prop :=
  (∀ s : State, s.seq = .ePadInit →
    ∃ t, engineStep s = .next t ∧ t = { s with padCnt := t.padCnt, seq := .ePad } ∧
      t.padCnt.toNat = if s.flag then [0, 6, 4, 3, 1].getD (s.n.toNat % 5) 0 else 0) ∧
  (∀ s : State, s.Inv → s.seq = .ePad →
    (0 < s.padCnt.toNat →
      ∃ t, engineStep s = .next t ∧ t = { s with obuf := t.obuf, o := t.o, padCnt := t.padCnt } ∧
        (∀ j, t.obuf.read j = if j = s.o.toNat then some 0x3D#8 else s.obuf.read j) ∧
        t.o.toNat = s.o.toNat + 1 ∧ t.padCnt.toNat = s.padCnt.toNat - 1) ∧
    (s.padCnt.toNat = 0 →
      ∃ t, engineStep s = .next t ∧ t.outLen.toNat = s.o.toNat ∧
        t = { s with status := ⟨false, true, false, s.status.ovr, .none⟩, outLen := t.outLen, seq := .idle }))

/-! ## The decoder pipeline -/

/-- 42_decoder.md R160, R161: an empty text completes at once with length 0; else the trailing run of `=` is stripped from
P, one character a step. -/
def Obligations.DecoderStripsTrailingPadding : Prop :=
  (∀ s : State, s.seq = .dInit →
    (s.n.toNat = 0 → engineStep s = .next
      { s with status := ⟨false, true, false, s.status.ovr, .none⟩, outLen := 0, seq := .idle }) ∧
    (s.n.toNat ≠ 0 → engineStep s = .next { s with p := s.n, seq := .dScan })) ∧
  (∀ s : State, s.Inv → s.seq = .dScan →
    (s.p.toNat = 0 → engineStep s = .next { s with seq := .dAccount }) ∧
    (∀ c, 0 < s.p.toNat → s.ibuf.read (s.p.toNat - 1) = some c →
      (c = 0x3D#8 → ∃ t, engineStep s = .next t ∧ t = { s with p := t.p } ∧ t.p.toNat = s.p.toNat - 1) ∧
      (c ≠ 0x3D#8 → engineStep s = .next { s with seq := .dAccount })))

/-- 42_decoder.md R162: OL and TL are the quotient and the remainder of 5*P by 8; TOO_SHORT exactly when P is 0 or 1,
REDUNDANT_TRAILING_SYMBOL exactly when P is larger and P mod 8 is 1, 3 or 6. -/
def Obligations.AccountRejectsImpossibleLengths : Prop :=
  ∀ s : State, s.Inv → s.seq = .dAccount →
    ∃ t : State, t = { s with ol := t.ol, tl := t.tl } ∧
      t.ol.toNat = 5 * s.p.toNat / 8 ∧ t.tl.toNat = 5 * s.p.toNat % 8 ∧
      (s.p.toNat ≤ 1 → engineStep s = .next (completeError .tooShort t)) ∧
      (2 ≤ s.p.toNat → (s.p.toNat % 8 = 1 ∨ s.p.toNat % 8 = 3 ∨ s.p.toNat % 8 = 6) →
        engineStep s = .next (completeError .redundantTrailingSymbol t)) ∧
      (2 ≤ s.p.toNat → ¬(s.p.toNat % 8 = 1 ∨ s.p.toNat % 8 = 3 ∨ s.p.toNat % 8 = 6) →
        engineStep s = .next { t with seq := .dTail })

/-- 42_decoder.md R164: the last content symbol must be in the alphabet, and the low TL bits of its value must be 0. -/
def Obligations.TailBitsMustBeZero : Prop :=
  ∀ (s : State) (c : Byte), s.Inv → s.seq = .dTail → s.ibuf.read (s.p.toNat - 1) = some c →
    2 ≤ s.p.toNat ∧
    (lutValid c = false → engineStep s = .next (completeError .invalidCharacter s)) ∧
    (lutValid c = true → (lutValue c).toNat % 2 ^ s.tl.toNat ≠ 0 →
      engineStep s = .next (completeError .nonzeroTailBits s)) ∧
    (lutValid c = true → (lutValue c).toNat % 2 ^ s.tl.toNat = 0 →
      engineStep s = .next { s with seq := .dPadChk })

/-- 42_decoder.md R166: with FLAG = 1 a text passes D_PADCHK exactly when its trailing run N - P has the expected length,
by the table of the missing bytes; with FLAG = 0 nothing is checked. As R167 derives, the expected length depends on
P mod 8 alone, and the text passes exactly when N = 8*ceil(P/8). -/
def Obligations.StrictPaddingFillsGroups : Prop :=
  ∀ s : State, s.Inv → s.seq = .dPadChk →
    ∃ m e : Nat, m = 5 * ceilDiv s.ol.toNat 5 - s.ol.toNat ∧ [0, 1, 3, 4, 6][m]? = some e ∧
      (s.flag = true → s.n.toNat - s.p.toNat ≠ e → engineStep s = .next (completeError .invalidPaddingLength s)) ∧
      (s.flag = true → s.n.toNat - s.p.toNat = e → engineStep s = .next { s with seq := .dLoopInit }) ∧
      (s.flag = false → engineStep s = .next { s with seq := .dLoopInit }) ∧
      (s.p.toNat % 8, s.ol.toNat % 5, m, e) ∈
        [(0, 0, 0, 0), (2, 1, 4, 6), (4, 2, 3, 4), (5, 3, 2, 3), (7, 4, 1, 1)] ∧
      (s.n.toNat - s.p.toNat = e ↔ s.n.toNat = 8 * ceilDiv s.p.toNat 8)

/-- 42_decoder.md R170, R171: D_LOOPINIT clears the reassembler and the indices; D_LOAD appends the value of one content
symbol below the bits held, losing none, while fewer than 8 are held, and fails on a character outside the alphabet. -/
def Obligations.LoadAppendsSymbolValue : Prop :=
  (∀ s : State, s.seq = .dLoopInit →
    engineStep s = .next { s with dAcc := 0, dCnt := 0, i := 0, o := 0, seq := .dLoad }) ∧
  (∀ s : State, s.Inv → s.seq = .dLoad →
    (8 ≤ s.dCnt.toNat → engineStep s = .next { s with seq := .dExtract }) ∧
    (s.dCnt.toNat < 8 → s.i.toNat < s.p.toNat) ∧
    (∀ c, s.dCnt.toNat < 8 → s.ibuf.read s.i.toNat = some c →
      (lutValid c = false → engineStep s = .next (completeError .invalidCharacter s)) ∧
      (lutValid c = true →
        ∃ t, engineStep s = .next t ∧ t = { s with dAcc := t.dAcc, dCnt := t.dCnt, i := t.i } ∧
          t.dAcc.toNat = 32 * s.dAcc.toNat + (lutValue c).toNat ∧ t.dCnt.toNat = s.dCnt.toNat + 5 ∧
          t.i.toNat = s.i.toNat + 1)))

/-- 42_decoder.md R172: D_EXTRACT writes the 8 oldest bits held as the next output byte, keeps the others, and completes
with OUT_LEN = OL at the last byte, whatever the residue is (R173). -/
def Obligations.ExtractWritesOldestEightBits : Prop :=
  ∀ s : State, s.Inv → s.seq = .dExtract →
    ∃ t, engineStep s = .next t ∧
      (∀ j, t.obuf.read j =
        if j = s.o.toNat then some (BitVec.ofNat 8 (s.dAcc.toNat / 2 ^ (s.dCnt.toNat - 8))) else s.obuf.read j) ∧
      s.dAcc.toNat / 2 ^ (s.dCnt.toNat - 8) < 256 ∧
      t.o.toNat = s.o.toNat + 1 ∧ t.dCnt.toNat = s.dCnt.toNat - 8 ∧
      t.dAcc.toNat = s.dAcc.toNat % 2 ^ (s.dCnt.toNat - 8) ∧
      (s.o.toNat + 1 = s.ol.toNat →
        t.outLen.toNat = s.ol.toNat ∧
        t = { s with
          obuf := t.obuf
          o := t.o
          dCnt := t.dCnt
          dAcc := t.dAcc
          status := ⟨false, true, false, s.status.ovr, .none⟩
          outLen := t.outLen
          seq := .idle }) ∧
      (s.o.toNat + 1 ≠ s.ol.toNat →
        t = { s with obuf := t.obuf, o := t.o, dCnt := t.dCnt, dAcc := t.dAcc, seq := .dLoad })

/-! ## The whole machine -/

/-- The invariant holds after reset. -/
def Obligations.InvariantHoldsAfterReset : Prop := State.reset.Inv

/-- Every step keeps the invariant: STATUS and SEQ agree (10_state.md R24, R30), the buffers keep their form, and the
accumulator and index bounds of 41_encoder.md R139, R140 and 42_decoder.md R179, R180 hold. -/
def Obligations.EveryStepKeepsInvariant : Prop :=
  ∀ s t : State, s.Inv → step s = .next t → t.Inv

/-- 20_memory.md R61: no engine access falls outside its buffer. -/
def Obligations.NoEngineAccessOutsideItsBuffer : Prop :=
  ∀ s : State, s.Inv → step s ≠ .fault .bufferBounds

/-- The one fault of the model: the engine reads an input entry not written since reset (70_reset_and_hazards.md R221;
log 5). It happens only then, and each reading micro-step does stop so. -/
def Obligations.OnlyUnwrittenInputFaults : Prop :=
  (∀ (s : State) (r : Fault), s.Inv → step s = .fault r →
    r = .unwrittenInput ∧ ∃ j, j < s.n.toNat ∧ s.ibuf.read j = none) ∧
  (∀ s : State, s.Inv →
    ((s.seq = .eAppend ∧ s.i.toNat < s.n.toNat ∧ s.ibuf.read s.i.toNat = none) ∨
     (s.seq = .dScan ∧ 0 < s.p.toNat ∧ s.ibuf.read (s.p.toNat - 1) = none) ∨
     (s.seq = .dTail ∧ s.ibuf.read (s.p.toNat - 1) = none) ∨
     (s.seq = .dLoad ∧ s.dCnt.toNat < 8 ∧ s.ibuf.read s.i.toNat = none)) →
    engineStep s = .fault .unwrittenInput)

/-- No step is ever refused: every command, every word and every micro-step has its meaning. -/
def Obligations.NoStepIsRefused : Prop :=
  ∀ (s : State) (r : Refusal), step s ≠ .refused r

/-- 10_state.md R38 and R27: the engine never writes IBUF, the host never writes OBUF, and no step changes DEPTH. -/
def Obligations.EachBufferHasOneWriter : Prop :=
  (∀ s t : State, engineStep s = .next t → t.ibuf = s.ibuf ∧ t.inLen = s.inLen) ∧
  (∀ s t : State, hostStep s = .next t → t.obuf = s.obuf) ∧
  (∀ s t : State, step s = .next t → t.depth = s.depth)

/-- A completed command's outcome stays as it is until the host's next CMD write or a reset (20_memory.md R64,
60_exceptions.md R206). -/
def Obligations.OutcomeStaysUntilNextCommand : Prop :=
  ∀ s t : State, s.Inv → s.status.busy = false → step s = .next t → (∀ ts, s.turns ≠ .reset :: ts) →
    (∀ w rest, s.program ≠ .wr 0x0001#16 w :: rest) →
    t.status = s.status ∧ t.outLen = s.outLen ∧ t.seq = .idle ∧ ∀ j, t.obuf.read j = s.obuf.read j

/-- While a command runs, no host step changes anything the engine reads or writes, nor STATUS but for OVR (20_memory.md
R63, 40_commands.md R110). -/
def Obligations.HostStepKeepsRunningCommand : Prop :=
  ∀ s t : State, s.status.busy = true → hostStep s = .next t → t.underCommand = s.underCommand

/-- What the engine does depends on nothing a host can change while a command runs. -/
def Obligations.EngineSeesOnlyTheCommand : Prop :=
  ∀ s s' : State, s.underCommand = s'.underCommand →
    (∀ t, engineStep s = .next t → ∃ t', engineStep s' = .next t' ∧ t'.underCommand = t.underCommand) ∧
    (∀ r, engineStep s = .fault r → engineStep s' = .fault r)

/-- 40_commands.md R115: a command's outcome does not depend on how host steps are interleaved with the engine's. With any
host steps among them, the engine steps of a command end it in the state they end it in alone, but for OVR and what is
the host's. -/
def Obligations.OutcomeIgnoresInterleaving : Prop :=
  ∀ (s u : State) (ts rest : List Turn), .reset ∉ ts →
    (∀ j, j ≤ ts.count .engine → ∃ v, engineRun j s = .next v ∧ v.status.busy = true) →
    engineRun (ts.count .engine + 1) s = .next u →
    ∃ u', runSteps (ts.length + 1) { s with turns := ts ++ .engine :: rest } = .next u' ∧
      u'.underCommand = u.underCommand ∧ u'.turns = rest

/-- 70_reset_and_hazards.md R226: every started command ends after finitely many engine steps, from every state of the
invariant whose input has been written. -/
def Obligations.EveryStartedCommandEnds : Prop :=
  ∀ s : State, s.Inv → s.turns = [] → (∀ j, j < s.n.toNat → s.ibuf.read j ≠ none) →
    ∃ k u, s.CompletesIn k u

/-- 41_encoder.md R141 and 70_reset_and_hazards.md R227: ENCODE of x completes after exactly the stated number of engine
steps with OBUF[0 .. OUT_LEN-1] the closed form, every other OBUF entry, IBUF and IN_LEN as before. -/
def Obligations.EncodeComputesClosedForm : Prop :=
  ∀ (s : State) (x : List Byte) (f : Bool), s.status.busy = false → s.turns = [] → s.HasInput x →
    ∃ t u, exec (.encode f false) s = .next t ∧ t.CompletesIn (encodeStepCount x.length f) u ∧
      u.status = ⟨false, true, false, s.status.ovr, .none⟩ ∧ u.seq = .idle ∧
      u.HasOutput (encodeText x f) ∧
      (∀ j, (encodeText x f).length ≤ j → u.obuf.read j = s.obuf.read j) ∧
      u.ibuf = s.ibuf ∧ u.inLen = s.inLen ∧ u.program = s.program ∧ u.returned = s.returned

/-- 42_decoder.md R178: DECODE of x completes with the decoded bytes in OBUF[0 .. OUT_LEN-1], or with the cause the closed
form gives and OUT_LEN = 0, within the steps of 70_reset_and_hazards.md R227; IBUF and IN_LEN are as before. -/
def Obligations.DecodeComputesClosedForm : Prop :=
  ∀ (s : State) (x : List Byte) (f : Bool), s.status.busy = false → s.turns = [] → s.HasInput x →
    ∃ t k u, exec (.decode f false) s = .next t ∧ t.CompletesIn k u ∧
      k ≤ x.length + 6 + 2 * (5 * contentLength x / 8) ∧ u.seq = .idle ∧
      u.ibuf = s.ibuf ∧ u.inLen = s.inLen ∧ u.program = s.program ∧ u.returned = s.returned ∧
      (∀ y, decodeText x f = .ok y →
        u.status = ⟨false, true, false, s.status.ovr, .none⟩ ∧ u.HasOutput y ∧
        ∀ j, y.length ≤ j → u.obuf.read j = s.obuf.read j) ∧
      (∀ c, decodeText x f = .error c →
        u.status = ⟨false, true, true, s.status.ovr, c⟩ ∧ u.outLen = 0#15)

/-- 70_reset_and_hazards.md R227: how many engine steps a DECODE takes, by its outcome. -/
def Obligations.DecodeStepCounts : Prop :=
  ∀ (s t u : State) (x : List Byte) (f : Bool) (k : Nat), s.status.busy = false → s.turns = [] → s.HasInput x →
    exec (.decode f false) s = .next t → t.CompletesIn k u →
    (x = [] → k = 1) ∧
    (∀ y, x ≠ [] → decodeText x f = .ok y → k = x.length + 6 + 2 * y.length) ∧
    ((u.status.cause = .tooShort ∨ u.status.cause = .redundantTrailingSymbol) →
      k = x.length - contentLength x + 3) ∧
    (u.status.cause = .nonzeroTailBits → k = x.length - contentLength x + 4) ∧
    (u.status.cause = .invalidPaddingLength → k = x.length - contentLength x + 5) ∧
    (u.status.cause = .invalidCharacter → lutValid (x.getD (contentLength x - 1) 0) = false →
      k = x.length - contentLength x + 4) ∧
    (u.status.cause = .invalidCharacter → k ≤ x.length + 6 + 2 * (5 * contentLength x / 8))

/-- 42_decoder.md R174: at the completion of a DECODE every content symbol has been loaded and the residue, of TL bits, is
0, although nothing checks it (R173). -/
def Obligations.ResidueIsZeroAtCompletion : Prop :=
  ∀ (s t u : State) (x : List Byte) (f : Bool) (k : Nat), s.status.busy = false → s.turns = [] → s.HasInput x →
    x ≠ [] → exec (.decode f false) s = .next t → t.CompletesIn k u → u.status.err = false →
    u.dAcc = 0#12 ∧ u.dCnt.toNat = 5 * contentLength x % 8 ∧ u.i.toNat = contentLength x

/-- 41_encoder.md R137, R142: the length of an encoding, and that every entry of it is a symbol of the alphabet or `=`. -/
def Obligations.EncodingLengthAndAlphabet : Prop :=
  ∀ (x : List Byte) (f : Bool),
    (encodeText x f).length = (if f then 8 * ceilDiv x.length 5 else ceilDiv (8 * x.length) 5) ∧
    ∀ c ∈ encodeText x f, c = 0x3D#8 ∨ ∃ v, c = romAlpha v

/-- The round trip: decoding an encoding gives the input back, strictly with padding and without strictness both ways
(42_decoder.md R175). -/
def Obligations.DecodingAnEncodingGivesTheInput : Prop :=
  ∀ x : List Byte,
    decodeText (encodeText x true) true = .ok x ∧ decodeText (encodeText x true) false = .ok x ∧
    decodeText (encodeText x false) false = .ok x

/-- 42_decoder.md R175: acceptance is canonicity. A DECODE of a non-empty text succeeds with the output x exactly when x is
not empty and the content, or with strict padding the whole text, is the encoding of x. -/
def Obligations.AcceptanceIsCanonicity : Prop :=
  ∀ (s v u : State) (t x : List Byte) (f : Bool) (k : Nat), s.status.busy = false → s.turns = [] → s.HasInput t →
    t ≠ [] → exec (.decode f false) s = .next v → v.CompletesIn k u →
    ((u.status.err = false ∧ u.HasOutput x) ↔
      (x ≠ [] ∧ if f then t = encodeText x true else t.take (contentLength t) = encodeText x false))
end

