-- ==== Sys2Proof/Laws/Arith.lean ====
section
/-! SUPPORT. The notation's operators as plain arithmetic: register assignment, shift and or, masks, slices
(00_scope.md section 5, R6). -/

namespace Sys2Proof.Machine

/-- An assignment of a value that fits loses nothing (00_scope.md R6). -/
theorem toNat_ofNat_of_lt {w n : Nat} (h : n < 2 ^ w) : (BitVec.ofNat w n).toNat = n := by
  rw [BitVec.toNat_ofNat, Nat.mod_eq_of_lt h]

/-- Appending `k` bits below `a`. -/
theorem shiftLeft_or (a : Nat) {b k : Nat} (h : b < 2 ^ k) : (a <<< k) ||| b = a * 2 ^ k + b := by
  rw [Nat.shiftLeft_eq, Nat.mul_comm, Nat.two_pow_add_eq_or_of_lt h]

/-- A mask keeps a remainder. -/
theorem and_mask (a k : Nat) : a &&& mask k = a % 2 ^ k := by
  simp [mask, Nat.and_two_pow_sub_one_eq_mod]

/-- The `k` oldest of `c` bits held are a quotient. -/
theorem slice_oldest {a k c : Nat} (h : a < 2 ^ c) (hk : k ≤ c) (hc : 1 ≤ c) :
    slice a (c - 1) (c - k) = a / 2 ^ (c - k) := by
  unfold slice
  rw [Nat.shiftRight_eq_div_pow]
  apply Nat.mod_eq_of_lt
  rw [Nat.div_lt_iff_lt_mul (by positivity), ← Nat.pow_add]
  have : c - 1 + 1 - (c - k) + (c - k) = c := by omega
  rwa [this]

/-- The `k` oldest of `c` bits held are a value of `k` bits. -/
theorem oldest_lt {a k c : Nat} (h : a < 2 ^ c) (hk : k ≤ c) : a / 2 ^ (c - k) < 2 ^ k := by
  rw [Nat.div_lt_iff_lt_mul (by positivity), ← Nat.pow_add]
  have : k + (c - k) = c := by omega
  rwa [this]

/-- OBUF_DEPTH fits the 15 bits of O and OUT_LEN (10_state.md R34). -/
theorem obufDepth_lt (d : IbufDepth) : obufDepth d < 2 ^ 15 := by
  have := d.2
  unfold obufDepth ceilDiv
  omega

/-- A padding length added to a symbol count reaches the next multiple of 8, case by case of the leftover bytes. -/
theorem padTabR_cases (n : Nat) :
    (n % 5 = 0 ∧ padTabR (n % 5) = 0) ∨ (n % 5 = 1 ∧ padTabR (n % 5) = 6) ∨ (n % 5 = 2 ∧ padTabR (n % 5) = 4) ∨
    (n % 5 = 3 ∧ padTabR (n % 5) = 3) ∨ (n % 5 = 4 ∧ padTabR (n % 5) = 1) := by
  have h : n % 5 < 5 := Nat.mod_lt _ (by norm_num)
  generalize n % 5 = r at h
  interval_cases r <;> simp [padTabR]

end Sys2Proof.Machine
end

