-- ==== Sys2Proof/Laws/Memory.lean ====
section
/-! SUPPORT. The laws of a buffer: a read after a write, and the canonical form every write keeps. -/

namespace Sys2Proof.Machine

@[simp] theorem Memory.read_nil (i : Nat) : Memory.read [] i = none := rfl

@[simp] theorem Memory.read_cons (k : Nat) (b : Byte) (m : Memory) (i : Nat) :
    Memory.read ((k, b) :: m) i = if i = k then some b else Memory.read m i := rfl

theorem Memory.read_write (m : Memory) (i : Nat) (b : Byte) (j : Nat) :
    (m.write i b).read j = if j = i then some b else m.read j := by
  induction m with
  | nil => simp [Memory.write, Memory.read]
  | cons c m ih =>
    obtain ⟨k, c⟩ := c
    unfold Memory.write
    split
    · simp
    · split
      · rename_i h; subst h; simp only [read_cons]; split <;> rfl
      · simp only [read_cons, ih]
        by_cases hjk : j = k
        · subst hjk; simp_all [eq_comm]
        · simp [hjk]

@[simp] theorem Memory.read_write_self (m : Memory) (i : Nat) (b : Byte) : (m.write i b).read i = some b := by
  simp [Memory.read_write]

theorem Memory.read_write_other (m : Memory) {i j : Nat} (b : Byte) (h : j ≠ i) :
    (m.write i b).read j = m.read j := by
  simp [Memory.read_write, h]

/-- A write lists no index but those listed before and its own. -/
theorem Memory.mem_write {m : Memory} {i : Nat} {b : Byte} {c : Host.Cell} (h : c ∈ m.write i b) :
    c = (i, b) ∨ c ∈ m := by
  induction m with
  | nil => simpa [Memory.write] using h
  | cons d m ih =>
    obtain ⟨k, d⟩ := d
    unfold Memory.write at h
    split at h
    · simpa using h
    · split at h
      · rcases List.mem_cons.mp h with h | h
        · exact .inl h
        · exact .inr (List.mem_cons_of_mem _ h)
      · rcases List.mem_cons.mp h with h | h
        · exact .inr (h ▸ List.mem_cons_self)
        · exact (ih h).imp_right (List.mem_cons_of_mem _)

theorem Memory.nil_wf : Memory.wf [] := List.Pairwise.nil

/-- Both buffers have the canonical form after reset. -/
theorem reset_buffers_wf : State.reset.ibuf.wf ∧ State.reset.obuf.wf := ⟨Memory.nil_wf, Memory.nil_wf⟩

/-- Every write keeps the canonical form. -/
theorem Memory.write_wf {m : Memory} (h : m.wf) (i : Nat) (b : Byte) : (m.write i b).wf := by
  induction m with
  | nil => simp [Memory.write, Memory.wf]
  | cons c m ih =>
    obtain ⟨k, c⟩ := c
    obtain ⟨hk, hm⟩ := List.pairwise_cons.mp h
    unfold Memory.write
    split
    · refine List.pairwise_cons.mpr ⟨fun d hd => ?_, h⟩
      rcases List.mem_cons.mp hd with rfl | hd
      · assumption
      · exact lt_trans (by assumption) (hk d hd)
    · split
      · rename_i h; subst h; exact List.pairwise_cons.mpr ⟨hk, hm⟩
      · refine List.pairwise_cons.mpr ⟨fun d hd => ?_, ih hm⟩
        rcases Memory.mem_write hd with rfl | hd
        · show k < i; omega
        · exact hk d hd

/-- Every listed index of a written buffer is below a bound that its index and the listed ones are below. -/
theorem Memory.write_below {m : Memory} {i n : Nat} (b : Byte) (h : ∀ c ∈ m, c.1 < n) (hi : i < n) :
    ∀ c ∈ m.write i b, c.1 < n := fun c hc => by
  rcases Memory.mem_write hc with rfl | hc
  · exact hi
  · exact h c hc

/-- A write makes no entry unwritten. -/
theorem Memory.read_write_ne_none {m : Memory} {i j : Nat} {b : Byte} (h : j = i ∨ m.read j ≠ none) :
    (m.write i b).read j ≠ none := by
  rw [Memory.read_write]
  split
  · simp
  · exact h.resolve_left ‹_›

end Sys2Proof.Machine
end

