-- ==== Sys2Proof/Laws/Ops.lean ====
section
/-! SUPPORT. One lemma for each shared operation that says everything it can do. -/

namespace Sys2Proof.Machine

/-- An engine read that goes on had an index inside IBUF and an entry written since reset. -/
theorem withIbuf_next {s t : State} {i : Nat} {k : Byte → Result} (h : withIbuf s i k = .next t) :
    i < s.depth.val ∧ ∃ b, s.ibuf.read i = some b ∧ k b = .next t := by
  unfold withIbuf at h
  split at h
  · split at h
    · exact ⟨‹_›, _, ‹_›, h⟩
    · cases h
  · cases h

/-- An engine read of an entry written since reset goes on with it. -/
theorem withIbuf_of_read {s : State} {i : Nat} {b : Byte} (k : Byte → Result) (hi : i < s.depth.val)
    (hb : s.ibuf.read i = some b) : withIbuf s i k = k b := by
  simp [withIbuf, hi, hb]

/-- An engine read faults by its index, by an entry not written, or where the rest of the micro-step does. -/
theorem withIbuf_fault {s : State} {i : Nat} {k : Byte → Result} {r : Fault} (h : withIbuf s i k = .fault r) :
    (s.depth.val ≤ i ∧ r = .bufferBounds) ∨
    (i < s.depth.val ∧ s.ibuf.read i = none ∧ r = .unwrittenInput) ∨
    (i < s.depth.val ∧ ∃ b, s.ibuf.read i = some b ∧ k b = .fault r) := by
  unfold withIbuf at h
  split at h
  · split at h
    · exact .inr (.inr ⟨‹_›, _, ‹_›, h⟩)
    · cases h; exact .inr (.inl ⟨‹_›, ‹_›, rfl⟩)
  · cases h; exact .inl ⟨by omega, rfl⟩

/-- An engine read refuses only where the rest of the micro-step does. -/
theorem withIbuf_refused {s : State} {i : Nat} {k : Byte → Result} {r : Refusal} (h : withIbuf s i k = .refused r) :
    ∃ b, k b = .refused r := by
  unfold withIbuf at h
  split at h
  · split at h
    · exact ⟨_, h⟩
    · cases h
  · cases h

/-- An engine write that goes on had an index inside OBUF. -/
theorem withObuf_next {s t : State} {i : Nat} {b : Byte} {k : State → Result} (h : withObuf s i b k = .next t) :
    i < obufDepth s.depth ∧ k { s with obuf := s.obuf.write i b } = .next t := by
  unfold withObuf at h
  split at h
  · exact ⟨‹_›, h⟩
  · cases h

/-- An engine write inside OBUF goes on. -/
theorem withObuf_of_lt {s : State} {i : Nat} (b : Byte) (k : State → Result) (hi : i < obufDepth s.depth) :
    withObuf s i b k = k { s with obuf := s.obuf.write i b } := by
  simp [withObuf, hi]

/-- An engine write faults by its index, or where the rest of the micro-step does. -/
theorem withObuf_fault {s : State} {i : Nat} {b : Byte} {k : State → Result} {r : Fault}
    (h : withObuf s i b k = .fault r) :
    (obufDepth s.depth ≤ i ∧ r = .bufferBounds) ∨
    (i < obufDepth s.depth ∧ k { s with obuf := s.obuf.write i b } = .fault r) := by
  unfold withObuf at h
  split at h
  · exact .inr ⟨‹_›, h⟩
  · cases h; exact .inl ⟨by omega, rfl⟩

/-- An engine write refuses only where the rest of the micro-step does. -/
theorem withObuf_refused {s : State} {i : Nat} {b : Byte} {k : State → Result} {r : Refusal}
    (h : withObuf s i b k = .refused r) : k { s with obuf := s.obuf.write i b } = .refused r := by
  unfold withObuf at h
  split at h
  · exact h
  · cases h

/-- The four outcomes of an ENCODE or DECODE word written to CMD (40_commands.md R101, R110). -/
theorem issueData_cases (op : BitVec 2) (f a : Bool) (s : State) :
    (s.status.busy = true ∧ issueData op f a s = dropWrite s) ∨
    (s.status.busy = false ∧ a = true ∧
      issueData op f a s = completeError .invalidArgument (acceptCommand s)) ∨
    (s.status.busy = false ∧ a = false ∧ s.depth.val < s.inLen.toNat ∧
      issueData op f a s = completeError .capacity (acceptCommand s)) ∨
    (s.status.busy = false ∧ a = false ∧ s.inLen.toNat ≤ s.depth.val ∧
      issueData op f a s = startCommand op f (acceptCommand s)) := by
  unfold issueData overCapacity
  by_cases hb : s.status.busy = true
  · exact .inl ⟨hb, by simp [hb]⟩
  · have hb : s.status.busy = false := by simpa using hb
    cases a with
    | true => exact .inr (.inl ⟨hb, rfl, by simp [hb]⟩)
    | false =>
      by_cases hc : s.depth.val < s.inLen.toNat
      · exact .inr (.inr (.inl ⟨hb, rfl, hc, by simp [hb, acceptCommand, hc]⟩))
      · exact .inr (.inr (.inr ⟨hb, rfl, by omega, by simp [hb, acceptCommand, hc]⟩))

/-- The outcomes of a host write to an address other than CMD's (20_memory.md R52 to R55; 40_commands.md R110). -/
theorem writePlain_cases (a : Addr) (w : Word) (s : State) :
    writePlain a w s = s ∨
    (s.status.busy = true ∧ writePlain a w s = dropWrite s) ∨
    (s.status.busy = false ∧ regionOf a = .inLen ∧ writePlain a w s = { s with inLen := w }) ∨
    (s.status.busy = false ∧ ∃ i, regionOf a = .ibuf i ∧ i < s.depth.val ∧
      writePlain a w s = { s with ibuf := s.ibuf.write i (w.setWidth 8) }) := by
  unfold writePlain
  by_cases hb : s.status.busy = true
  · split
    · exact .inr (.inl ⟨hb, by simp [hb]⟩)
    · split
      · exact .inr (.inl ⟨hb, rfl⟩)
      · exact .inl rfl
    all_goals exact .inl rfl
  · have hb : s.status.busy = false := by simpa using hb
    split
    · exact .inr (.inr (.inl ⟨hb, ‹_›, by simp [hb]⟩))
    · split
      · exact .inr (.inr (.inr ⟨hb, _, ‹_›, ‹_›, rfl⟩))
      · exact .inl rfl
    all_goals exact .inl rfl

/-- Every command answers a next state. -/
theorem exec_next (i : Instr) (s : State) : ∃ t, exec i s = .next t := by
  cases i with
  | clear f a => exact ⟨_, rfl⟩
  | encode f a => exact ⟨_, rfl⟩
  | decode f a => exact ⟨_, rfl⟩

/-- A CMD write answers a next state. -/
theorem cmdWrite_next (w : Word) (s : State) : ∃ t, cmdWrite w s = .next t := by
  unfold cmdWrite
  split
  · exact exec_next _ s
  · exact ⟨_, rfl⟩

/-- A host write answers a next state: of a CMD write, or of a write elsewhere. -/
theorem hostWrite_cases (a : Addr) (w : Word) (s : State) :
    (regionOf a = .cmd ∧ hostWrite a w s = cmdWrite w s) ∨
    (regionOf a ≠ .cmd ∧ hostWrite a w s = .next (writePlain a w s)) := by
  unfold hostWrite
  split
  · exact .inl ⟨‹_›, rfl⟩
  · exact .inr ⟨‹_›, rfl⟩

/-- A host step answers a next state. -/
theorem hostStep_next (s : State) : ∃ t, hostStep s = .next t := by
  unfold hostStep
  split
  · exact ⟨_, rfl⟩
  · rename_i a w rest _
    rcases hostWrite_cases a w { s with program := rest } with ⟨-, h⟩ | ⟨-, h⟩
    · rw [h]; exact cmdWrite_next _ _
    · exact ⟨_, h⟩
  · exact ⟨_, rfl⟩
  · split <;> exact ⟨_, rfl⟩

/-- A step is that of the agent whose turn it is. -/
theorem step_cases (s : State) :
    (∃ t rest, s.turns = t :: rest ∧ step s = takeTurn t { s with turns := rest }) ∨
    (s.turns = [] ∧ engineEnabled s.seq = true ∧ step s = engineStep s) ∨
    (s.turns = [] ∧ engineEnabled s.seq = false ∧ step s = hostStep s) := by
  unfold step nextStep
  split
  · unfold defaultTurn
    by_cases h : engineEnabled s.seq = true
    · exact .inr (.inl ⟨‹_›, h, by simp [h, takeTurn]⟩)
    · exact .inr (.inr ⟨‹_›, by simpa using h, by simp [h, takeTurn]⟩)
  · exact .inl ⟨_, _, ‹_›, rfl⟩

end Sys2Proof.Machine
end

