-- ==== Sys2Proof/Laws/Engine.lean ====
section
/-! SUPPORT. The engine step by phase, and for each micro-step what it can do when it goes on. -/

namespace Sys2Proof.Machine

theorem engineStep_eInit {s : State} (h : s.seq = .eInit) : engineStep s = stepEInit s := by
  unfold engineStep
  rw [h]

theorem engineStep_eAppend {s : State} (h : s.seq = .eAppend) : engineStep s = stepEAppend s := by
  unfold engineStep
  rw [h]

theorem engineStep_eExtract {s : State} (h : s.seq = .eExtract) : engineStep s = stepEExtract s := by
  unfold engineStep
  rw [h]

theorem engineStep_eFlush {s : State} (h : s.seq = .eFlush) : engineStep s = stepEFlush s := by
  unfold engineStep
  rw [h]

theorem engineStep_ePadInit {s : State} (h : s.seq = .ePadInit) : engineStep s = stepEPadInit s := by
  unfold engineStep
  rw [h]

theorem engineStep_ePad {s : State} (h : s.seq = .ePad) : engineStep s = stepEPad s := by
  unfold engineStep
  rw [h]

theorem engineStep_dInit {s : State} (h : s.seq = .dInit) : engineStep s = stepDInit s := by
  unfold engineStep
  rw [h]

theorem engineStep_dScan {s : State} (h : s.seq = .dScan) : engineStep s = stepDScan s := by
  unfold engineStep
  rw [h]

theorem engineStep_dAccount {s : State} (h : s.seq = .dAccount) : engineStep s = stepDAccount s := by
  unfold engineStep
  rw [h]

theorem engineStep_dTail {s : State} (h : s.seq = .dTail) : engineStep s = stepDTail s := by
  unfold engineStep
  rw [h]

theorem engineStep_dPadChk {s : State} (h : s.seq = .dPadChk) : engineStep s = stepDPadChk s := by
  unfold engineStep
  rw [h]

theorem engineStep_dLoopInit {s : State} (h : s.seq = .dLoopInit) : engineStep s = stepDLoopInit s := by
  unfold engineStep
  rw [h]

theorem engineStep_dLoad {s : State} (h : s.seq = .dLoad) : engineStep s = stepDLoad s := by
  unfold engineStep
  rw [h]

theorem engineStep_dExtract {s : State} (h : s.seq = .dExtract) : engineStep s = stepDExtract s := by
  unfold engineStep
  rw [h]

theorem engineStep_idle {s : State} (h : s.seq = .idle) : engineStep s = .next s := by
  unfold engineStep
  rw [h]

theorem engineStep_unused {s : State} (h : s.seq = .unused) : engineStep s = .next s := by
  unfold engineStep
  rw [h]

/-- E_APPEND (41_encoder.md R131). -/
theorem stepEAppend_next {s t : State} (h : stepEAppend s = .next t) :
    (s.i.toNat < s.n.toNat ∧ s.i.toNat < s.depth.val ∧ ∃ b, s.ibuf.read s.i.toNat = some b ∧
      t = { s with
        eAcc := BitVec.ofNat 13 ((s.eAcc.toNat <<< 8) ||| b.toNat)
        eCnt := BitVec.ofNat 4 (s.eCnt.toNat + 8)
        i := BitVec.ofNat 15 (s.i.toNat + 1)
        seq := .eExtract }) ∨
    (s.n.toNat ≤ s.i.toNat ∧ t = { s with seq := .eFlush }) := by
  unfold stepEAppend at h
  split at h
  · obtain ⟨hd, b, hb, h⟩ := withIbuf_next h
    cases h
    exact .inl ⟨‹_›, hd, b, hb, rfl⟩
  · cases h
    exact .inr ⟨by omega, rfl⟩

/-- E_EXTRACT (41_encoder.md R132). -/
theorem stepEExtract_next {s t : State} (h : stepEExtract s = .next t) :
    (5 ≤ s.eCnt.toNat ∧ s.o.toNat < obufDepth s.depth ∧
      t = { s with
        obuf := s.obuf.write s.o.toNat
          (romAlpha (BitVec.ofNat 5 (slice s.eAcc.toNat (s.eCnt.toNat - 1) (s.eCnt.toNat - 5))))
        o := BitVec.ofNat 15 (s.o.toNat + 1)
        eCnt := BitVec.ofNat 4 (s.eCnt.toNat - 5)
        eAcc := BitVec.ofNat 13 (s.eAcc.toNat &&& mask (s.eCnt.toNat - 5))
        seq := .eExtract }) ∨
    (s.eCnt.toNat < 5 ∧ t = { s with seq := .eAppend }) := by
  unfold stepEExtract at h
  split at h
  · obtain ⟨hd, h⟩ := withObuf_next h
    cases h
    exact .inl ⟨‹_›, hd, rfl⟩
  · cases h
    exact .inr ⟨by omega, rfl⟩

/-- E_FLUSH (41_encoder.md R133). -/
theorem stepEFlush_next {s t : State} (h : stepEFlush s = .next t) :
    (0 < s.eCnt.toNat ∧ s.o.toNat < obufDepth s.depth ∧
      t = { s with
        obuf := s.obuf.write s.o.toNat
          (romAlpha (BitVec.ofNat 5 (slice (s.eAcc.toNat <<< (5 - s.eCnt.toNat)) 4 0)))
        o := BitVec.ofNat 15 (s.o.toNat + 1)
        eCnt := 0
        eAcc := 0
        seq := .ePadInit }) ∨
    (s.eCnt.toNat = 0 ∧ t = { s with seq := .ePadInit }) := by
  unfold stepEFlush at h
  split at h
  · obtain ⟨hd, h⟩ := withObuf_next h
    cases h
    exact .inl ⟨‹_›, hd, rfl⟩
  · cases h
    exact .inr ⟨by omega, rfl⟩

/-- E_PAD (41_encoder.md R135). -/
theorem stepEPad_next {s t : State} (h : stepEPad s = .next t) :
    (0 < s.padCnt.toNat ∧ s.o.toNat < obufDepth s.depth ∧
      t = { s with
        obuf := s.obuf.write s.o.toNat padCode
        o := BitVec.ofNat 15 (s.o.toNat + 1)
        padCnt := BitVec.ofNat 3 (s.padCnt.toNat - 1)
        seq := .ePad }) ∨
    (s.padCnt.toNat = 0 ∧ t = completeOk s.o.toNat s) := by
  unfold stepEPad at h
  split at h
  · obtain ⟨hd, h⟩ := withObuf_next h
    cases h
    exact .inl ⟨‹_›, hd, rfl⟩
  · cases h
    exact .inr ⟨by omega, rfl⟩

/-- D_INIT (42_decoder.md R160). -/
theorem stepDInit_next {s t : State} (h : stepDInit s = .next t) :
    (s.n.toNat = 0 ∧ t = completeOk 0 s) ∨ (s.n.toNat ≠ 0 ∧ t = { s with p := s.n, seq := .dScan }) := by
  unfold stepDInit at h
  split at h <;> cases h
  · exact .inl ⟨‹_›, rfl⟩
  · exact .inr ⟨‹_›, rfl⟩

/-- D_SCAN (42_decoder.md R161). -/
theorem stepDScan_next {s t : State} (h : stepDScan s = .next t) :
    (0 < s.p.toNat ∧ s.ibuf.read (s.p.toNat - 1) = some padCode ∧
      t = { s with p := BitVec.ofNat 15 (s.p.toNat - 1), seq := .dScan }) ∨
    (0 < s.p.toNat ∧ (∃ c, s.ibuf.read (s.p.toNat - 1) = some c ∧ c ≠ padCode) ∧
      t = { s with seq := .dAccount }) ∨
    (s.p.toNat = 0 ∧ t = { s with seq := .dAccount }) := by
  unfold stepDScan at h
  split at h
  · obtain ⟨-, c, hc, h⟩ := withIbuf_next h
    split at h <;> cases h
    · rename_i e
      exact .inl ⟨‹_›, e ▸ hc, rfl⟩
    · exact .inr (.inl ⟨‹_›, ⟨c, hc, ‹_›⟩, rfl⟩)
  · cases h
    exact .inr (.inr ⟨by omega, rfl⟩)

/-- D_TAIL (42_decoder.md R164). -/
theorem stepDTail_next {s t : State} (h : stepDTail s = .next t) :
    ∃ c, s.ibuf.read (s.p.toNat - 1) = some c ∧
      ((lutValid c = false ∧ t = completeError .invalidCharacter s) ∨
       (lutValid c = true ∧ (lutValue c).toNat &&& mask s.tl.toNat ≠ 0 ∧ t = completeError .nonzeroTailBits s) ∨
       (lutValid c = true ∧ (lutValue c).toNat &&& mask s.tl.toNat = 0 ∧ t = { s with seq := .dPadChk })) := by
  obtain ⟨-, c, hc, h⟩ := withIbuf_next h
  refine ⟨c, hc, ?_⟩
  split at h
  · cases h
    exact .inl ⟨‹_›, rfl⟩
  · rename_i hv
    split at h <;> cases h
    · exact .inr (.inl ⟨by simpa using hv, ‹_›, rfl⟩)
    · rename_i hm
      exact .inr (.inr ⟨by simpa using hv, by simpa using hm, rfl⟩)

/-- D_ACCOUNT (42_decoder.md R162). -/
theorem stepDAccount_next {s t : State} (h : stepDAccount s = .next t) :
    ∃ u, u = { s with ol := BitVec.ofNat 14 (5 * s.p.toNat / 8), tl := BitVec.ofNat 3 (5 * s.p.toNat % 8) } ∧
      ((u.ol.toNat = 0 ∧ t = completeError .tooShort u) ∨
       (u.ol.toNat ≠ 0 ∧ 5 ≤ u.tl.toNat ∧ t = completeError .redundantTrailingSymbol u) ∨
       (u.ol.toNat ≠ 0 ∧ u.tl.toNat < 5 ∧ t = { u with seq := .dTail })) := by
  refine ⟨_, rfl, ?_⟩
  unfold stepDAccount at h
  simp only at h
  split at h
  · cases h
    exact .inl ⟨‹_›, rfl⟩
  · rename_i ho
    split at h <;> cases h
    · exact .inr (.inl ⟨ho, ‹_›, rfl⟩)
    · rename_i ht
      exact .inr (.inr ⟨ho, Nat.not_le.mp ht, rfl⟩)

/-- D_PADCHK (42_decoder.md R166). -/
theorem stepDPadChk_next {s t : State} (h : stepDPadChk s = .next t) :
    (s.flag = true ∧ s.n.toNat - s.p.toNat ≠ (padTabM (missingBytes s.ol.toNat)).toNat ∧
      t = completeError .invalidPaddingLength s) ∨
    ((s.flag = true → s.n.toNat - s.p.toNat = (padTabM (missingBytes s.ol.toNat)).toNat) ∧
      t = { s with seq := .dLoopInit }) := by
  unfold stepDPadChk at h
  split at h <;> rename_i hc <;> cases h
  · exact .inl ⟨hc.1, hc.2, rfl⟩
  · exact .inr ⟨fun hf => by_contra fun hn => hc ⟨hf, hn⟩, rfl⟩

/-- D_EXTRACT (42_decoder.md R172). -/
theorem stepDExtract_next {s t : State} (h : stepDExtract s = .next t) :
    s.o.toNat < obufDepth s.depth ∧
    ∃ u, u = { s with
        obuf := s.obuf.write s.o.toNat
          (BitVec.ofNat 8 (slice s.dAcc.toNat (s.dCnt.toNat - 1) (s.dCnt.toNat - 8)))
        o := BitVec.ofNat 15 (s.o.toNat + 1)
        dCnt := BitVec.ofNat 4 (s.dCnt.toNat - 8)
        dAcc := BitVec.ofNat 12 (s.dAcc.toNat &&& mask (s.dCnt.toNat - 8)) } ∧
      ((u.o.toNat = u.ol.toNat ∧ t = completeOk u.ol.toNat u) ∨
       (u.o.toNat ≠ u.ol.toNat ∧ t = { u with seq := .dLoad })) := by
  unfold stepDExtract at h
  obtain ⟨hd, h⟩ := withObuf_next h
  refine ⟨hd, _, rfl, ?_⟩
  simp only at h
  split at h <;> cases h
  · exact .inl ⟨‹_›, rfl⟩
  · exact .inr ⟨‹_›, rfl⟩

/-- D_LOAD (42_decoder.md R171). -/
theorem stepDLoad_next {s t : State} (h : stepDLoad s = .next t) :
    (8 ≤ s.dCnt.toNat ∧ t = { s with seq := .dExtract }) ∨
    (s.dCnt.toNat < 8 ∧ ∃ c, s.ibuf.read s.i.toNat = some c ∧
      ((lutValid c = false ∧ t = completeError .invalidCharacter s) ∨
       (lutValid c = true ∧
        t = { s with
          dAcc := BitVec.ofNat 12 ((s.dAcc.toNat <<< 5) ||| (lutValue c).toNat)
          dCnt := BitVec.ofNat 4 (s.dCnt.toNat + 5)
          i := BitVec.ofNat 15 (s.i.toNat + 1)
          seq := .dLoad }))) := by
  unfold stepDLoad at h
  split at h
  · cases h
    exact .inl ⟨‹_›, rfl⟩
  · obtain ⟨-, c, hc, h⟩ := withIbuf_next h
    refine .inr ⟨by omega, c, hc, ?_⟩
    split at h <;> cases h
    · exact .inl ⟨‹_›, rfl⟩
    · rename_i hv
      exact .inr ⟨by simpa using hv, rfl⟩

end Sys2Proof.Machine
end

