-- ==== Sys2Proof/Laws/HostPort.lean ====
section
/-! SUPPORT. What each host address names: one lemma per part of the map of 20_memory.md R52, and one for all of it. -/

namespace Sys2Proof.Machine

/-- Above the six registers, an address is in the unmapped range or in one of the two windows (20_memory.md R52). -/
theorem regionOf_above_registers {a : Addr} (h : 0x0006 ≤ a.toNat) :
    regionOf a =
      if a.toNat < 0x4000 then .unmapped
      else if a.toNat < 0x8000 then .ibuf (a.toNat - 0x4000)
      else .obuf (a.toNat - 0x8000) := by
  have register : ∀ k, k < 6 → a.toNat ≠ k := fun k hk => by omega
  simp [regionOf, register]

/-- 0x4000 + i names IBUF[i] (20_memory.md R52). -/
theorem regionOf_ibuf {a : Addr} {i : Nat} (h : a.toNat = 0x4000 + i) (hi : i ≤ 0x3FFF) :
    regionOf a = .ibuf i := by
  have window : ¬0x4000 + i < 0x4000 ∧ 0x4000 + i < 0x8000 := by omega
  rw [regionOf_above_registers (by omega), h]
  simp [window]

/-- 0x8000 + i names OBUF[i] (20_memory.md R52). -/
theorem regionOf_obuf {a : Addr} {i : Nat} (h : a.toNat = 0x8000 + i) : regionOf a = .obuf i := by
  have window : ¬0x8000 + i < 0x4000 ∧ ¬0x8000 + i < 0x8000 := by omega
  rw [regionOf_above_registers (by omega), h]
  simp [window]

/-- 0x0006 to 0x3FFF name nothing (20_memory.md R52). -/
theorem regionOf_unmapped {a : Addr} (h : 0x0006 ≤ a.toNat) (hi : a.toNat ≤ 0x3FFF) : regionOf a = .unmapped := by
  rw [regionOf_above_registers h, if_pos (Nat.lt_succ_of_le hi)]

/-- Every address names exactly what the map of 20_memory.md R52 says. -/
theorem regionOf_cases (a : Addr) :
    (a = 0x0000#16 ∧ regionOf a = .id) ∨ (a = 0x0001#16 ∧ regionOf a = .cmd) ∨
    (a = 0x0002#16 ∧ regionOf a = .status) ∨ (a = 0x0003#16 ∧ regionOf a = .inLen) ∨
    (a = 0x0004#16 ∧ regionOf a = .outLen) ∨ (a = 0x0005#16 ∧ regionOf a = .depth) ∨
    (0x0006 ≤ a.toNat ∧ a.toNat ≤ 0x3FFF ∧ regionOf a = .unmapped) ∨
    (∃ i, a.toNat = 0x4000 + i ∧ i ≤ 0x3FFF ∧ regionOf a = .ibuf i) ∨
    (∃ i, a.toNat = 0x8000 + i ∧ i ≤ 0x7FFF ∧ regionOf a = .obuf i) := by
  rcases Nat.lt_or_ge a.toNat 6 with register | above
  · obtain ⟨k, rfl⟩ : ∃ k : Fin 6, a = BitVec.ofNat 16 k.val := ⟨⟨a.toNat, register⟩, by simp⟩
    fin_cases k <;> simp [regionOf]
  · iterate 6 right
    rcases Nat.lt_or_ge a.toNat 0x4000 with unmapped | ibuf
    · exact .inl ⟨above, Nat.le_of_lt_succ unmapped, regionOf_unmapped above (Nat.le_of_lt_succ unmapped)⟩
    · right
      rcases Nat.lt_or_ge a.toNat 0x8000 with inIbuf | obuf
      · have e : a.toNat = 0x4000 + (a.toNat - 0x4000) := by omega
        exact .inl ⟨_, e, by omega, regionOf_ibuf e (by omega)⟩
      · have e : a.toNat = 0x8000 + (a.toNat - 0x8000) := by omega
        exact .inr ⟨_, e, by omega, regionOf_obuf e⟩

end Sys2Proof.Machine
end

