-- ==== Sys2Proof/Laws/PerInstr.lean ====
section
/-! SUPPORT. Statements made for each command of the opcode table. -/

namespace Sys2Proof.Laws.EncodedShape

/-- The `match` of a command's row in the opcode table (30_encoding.md R93). -/
def rowMatch : Instr → Word
  | .clear _ _ => 0x00000000
  | .encode _ _ => 0x00000001
  | .decode _ _ => 0x00000002

/-- A well-formed command's word has the `match` of its row under the table's mask, its F in bit 2 and its A in bit 3
(30_encoding.md R80, R93). -/
def Statement (i : Instr) : Prop :=
  i.wellFormed = true →
    encode i &&& 0xFFFFFFF3#32 = rowMatch i ∧
    match i with
    | .clear f a => (encode i).getLsbD 2 = f ∧ (encode i).getLsbD 3 = a
    | .encode f a => (encode i).getLsbD 2 = f ∧ (encode i).getLsbD 3 = a
    | .decode f a => (encode i).getLsbD 2 = f ∧ (encode i).getLsbD 3 = a

theorem clear (f a : Bool) : Statement (.clear f a) := by
  unfold Statement; revert f a; decide

theorem encode (f a : Bool) : Statement (.encode f a) := by
  unfold Statement; revert f a; decide

theorem decode (f a : Bool) : Statement (.decode f a) := by
  unfold Statement; revert f a; decide

end Sys2Proof.Laws.EncodedShape
end

