-- ==== Sys2Proof/Laws/State.lean ====
section
/-! SUPPORT. For each named update of the state, what each field of the result is. -/

namespace Sys2Proof.Machine

/-! A dropped write changes OVR only (40_commands.md R110). -/

@[simp] theorem dropWrite_status (s : State) : (dropWrite s).status = { s.status with ovr := true } := rfl
@[simp] theorem dropWrite_inLen (s : State) : (dropWrite s).inLen = s.inLen := rfl
@[simp] theorem dropWrite_outLen (s : State) : (dropWrite s).outLen = s.outLen := rfl
@[simp] theorem dropWrite_depth (s : State) : (dropWrite s).depth = s.depth := rfl
@[simp] theorem dropWrite_seq (s : State) : (dropWrite s).seq = s.seq := rfl
@[simp] theorem dropWrite_opc (s : State) : (dropWrite s).opc = s.opc := rfl
@[simp] theorem dropWrite_flag (s : State) : (dropWrite s).flag = s.flag := rfl
@[simp] theorem dropWrite_n (s : State) : (dropWrite s).n = s.n := rfl
@[simp] theorem dropWrite_eAcc (s : State) : (dropWrite s).eAcc = s.eAcc := rfl
@[simp] theorem dropWrite_eCnt (s : State) : (dropWrite s).eCnt = s.eCnt := rfl
@[simp] theorem dropWrite_padCnt (s : State) : (dropWrite s).padCnt = s.padCnt := rfl
@[simp] theorem dropWrite_dAcc (s : State) : (dropWrite s).dAcc = s.dAcc := rfl
@[simp] theorem dropWrite_dCnt (s : State) : (dropWrite s).dCnt = s.dCnt := rfl
@[simp] theorem dropWrite_i (s : State) : (dropWrite s).i = s.i := rfl
@[simp] theorem dropWrite_o (s : State) : (dropWrite s).o = s.o := rfl
@[simp] theorem dropWrite_p (s : State) : (dropWrite s).p = s.p := rfl
@[simp] theorem dropWrite_ol (s : State) : (dropWrite s).ol = s.ol := rfl
@[simp] theorem dropWrite_tl (s : State) : (dropWrite s).tl = s.tl := rfl
@[simp] theorem dropWrite_ibuf (s : State) : (dropWrite s).ibuf = s.ibuf := rfl
@[simp] theorem dropWrite_obuf (s : State) : (dropWrite s).obuf = s.obuf := rfl
@[simp] theorem dropWrite_program (s : State) : (dropWrite s).program = s.program := rfl
@[simp] theorem dropWrite_turns (s : State) : (dropWrite s).turns = s.turns := rfl
@[simp] theorem dropWrite_returned (s : State) : (dropWrite s).returned = s.returned := rfl
@[simp] theorem dropWrite_draws (s : State) : (dropWrite s).draws = s.draws := rfl
@[simp] theorem dropWrite_resets (s : State) : (dropWrite s).resets = s.resets := rfl

/-! What an accepted CMD write clears first (40_commands.md R101). -/

@[simp] theorem acceptCommand_status (s : State) :
    (acceptCommand s).status = { s.status with done := false, err := false, cause := .none } := rfl
@[simp] theorem acceptCommand_inLen (s : State) : (acceptCommand s).inLen = s.inLen := rfl
@[simp] theorem acceptCommand_outLen (s : State) : (acceptCommand s).outLen = 0 := rfl
@[simp] theorem acceptCommand_depth (s : State) : (acceptCommand s).depth = s.depth := rfl
@[simp] theorem acceptCommand_seq (s : State) : (acceptCommand s).seq = s.seq := rfl
@[simp] theorem acceptCommand_opc (s : State) : (acceptCommand s).opc = s.opc := rfl
@[simp] theorem acceptCommand_flag (s : State) : (acceptCommand s).flag = s.flag := rfl
@[simp] theorem acceptCommand_n (s : State) : (acceptCommand s).n = s.n := rfl
@[simp] theorem acceptCommand_eAcc (s : State) : (acceptCommand s).eAcc = s.eAcc := rfl
@[simp] theorem acceptCommand_eCnt (s : State) : (acceptCommand s).eCnt = s.eCnt := rfl
@[simp] theorem acceptCommand_padCnt (s : State) : (acceptCommand s).padCnt = s.padCnt := rfl
@[simp] theorem acceptCommand_dAcc (s : State) : (acceptCommand s).dAcc = s.dAcc := rfl
@[simp] theorem acceptCommand_dCnt (s : State) : (acceptCommand s).dCnt = s.dCnt := rfl
@[simp] theorem acceptCommand_i (s : State) : (acceptCommand s).i = s.i := rfl
@[simp] theorem acceptCommand_o (s : State) : (acceptCommand s).o = s.o := rfl
@[simp] theorem acceptCommand_p (s : State) : (acceptCommand s).p = s.p := rfl
@[simp] theorem acceptCommand_ol (s : State) : (acceptCommand s).ol = s.ol := rfl
@[simp] theorem acceptCommand_tl (s : State) : (acceptCommand s).tl = s.tl := rfl
@[simp] theorem acceptCommand_ibuf (s : State) : (acceptCommand s).ibuf = s.ibuf := rfl
@[simp] theorem acceptCommand_obuf (s : State) : (acceptCommand s).obuf = s.obuf := rfl
@[simp] theorem acceptCommand_program (s : State) : (acceptCommand s).program = s.program := rfl
@[simp] theorem acceptCommand_turns (s : State) : (acceptCommand s).turns = s.turns := rfl
@[simp] theorem acceptCommand_returned (s : State) : (acceptCommand s).returned = s.returned := rfl
@[simp] theorem acceptCommand_draws (s : State) : (acceptCommand s).draws = s.draws := rfl
@[simp] theorem acceptCommand_resets (s : State) : (acceptCommand s).resets = s.resets := rfl

/-! `complete_ok` (60_exceptions.md R201). -/

@[simp] theorem completeOk_status (len : Nat) (s : State) :
    (completeOk len s).status = { s.status with err := false, cause := .none, done := true, busy := false } := rfl
@[simp] theorem completeOk_inLen (len : Nat) (s : State) : (completeOk len s).inLen = s.inLen := rfl
@[simp] theorem completeOk_outLen (len : Nat) (s : State) : (completeOk len s).outLen = BitVec.ofNat 15 len := rfl
@[simp] theorem completeOk_depth (len : Nat) (s : State) : (completeOk len s).depth = s.depth := rfl
@[simp] theorem completeOk_seq (len : Nat) (s : State) : (completeOk len s).seq = .idle := rfl
@[simp] theorem completeOk_opc (len : Nat) (s : State) : (completeOk len s).opc = s.opc := rfl
@[simp] theorem completeOk_flag (len : Nat) (s : State) : (completeOk len s).flag = s.flag := rfl
@[simp] theorem completeOk_n (len : Nat) (s : State) : (completeOk len s).n = s.n := rfl
@[simp] theorem completeOk_eAcc (len : Nat) (s : State) : (completeOk len s).eAcc = s.eAcc := rfl
@[simp] theorem completeOk_eCnt (len : Nat) (s : State) : (completeOk len s).eCnt = s.eCnt := rfl
@[simp] theorem completeOk_padCnt (len : Nat) (s : State) : (completeOk len s).padCnt = s.padCnt := rfl
@[simp] theorem completeOk_dAcc (len : Nat) (s : State) : (completeOk len s).dAcc = s.dAcc := rfl
@[simp] theorem completeOk_dCnt (len : Nat) (s : State) : (completeOk len s).dCnt = s.dCnt := rfl
@[simp] theorem completeOk_i (len : Nat) (s : State) : (completeOk len s).i = s.i := rfl
@[simp] theorem completeOk_o (len : Nat) (s : State) : (completeOk len s).o = s.o := rfl
@[simp] theorem completeOk_p (len : Nat) (s : State) : (completeOk len s).p = s.p := rfl
@[simp] theorem completeOk_ol (len : Nat) (s : State) : (completeOk len s).ol = s.ol := rfl
@[simp] theorem completeOk_tl (len : Nat) (s : State) : (completeOk len s).tl = s.tl := rfl
@[simp] theorem completeOk_ibuf (len : Nat) (s : State) : (completeOk len s).ibuf = s.ibuf := rfl
@[simp] theorem completeOk_obuf (len : Nat) (s : State) : (completeOk len s).obuf = s.obuf := rfl
@[simp] theorem completeOk_program (len : Nat) (s : State) : (completeOk len s).program = s.program := rfl
@[simp] theorem completeOk_turns (len : Nat) (s : State) : (completeOk len s).turns = s.turns := rfl
@[simp] theorem completeOk_returned (len : Nat) (s : State) : (completeOk len s).returned = s.returned := rfl
@[simp] theorem completeOk_draws (len : Nat) (s : State) : (completeOk len s).draws = s.draws := rfl
@[simp] theorem completeOk_resets (len : Nat) (s : State) : (completeOk len s).resets = s.resets := rfl

/-! `complete_error` (60_exceptions.md R202). -/

@[simp] theorem completeError_status (c : Cause) (s : State) :
    (completeError c s).status = { s.status with err := true, cause := c, done := true, busy := false } := rfl
@[simp] theorem completeError_inLen (c : Cause) (s : State) : (completeError c s).inLen = s.inLen := rfl
@[simp] theorem completeError_outLen (c : Cause) (s : State) : (completeError c s).outLen = 0 := rfl
@[simp] theorem completeError_depth (c : Cause) (s : State) : (completeError c s).depth = s.depth := rfl
@[simp] theorem completeError_seq (c : Cause) (s : State) : (completeError c s).seq = .idle := rfl
@[simp] theorem completeError_opc (c : Cause) (s : State) : (completeError c s).opc = s.opc := rfl
@[simp] theorem completeError_flag (c : Cause) (s : State) : (completeError c s).flag = s.flag := rfl
@[simp] theorem completeError_n (c : Cause) (s : State) : (completeError c s).n = s.n := rfl
@[simp] theorem completeError_eAcc (c : Cause) (s : State) : (completeError c s).eAcc = s.eAcc := rfl
@[simp] theorem completeError_eCnt (c : Cause) (s : State) : (completeError c s).eCnt = s.eCnt := rfl
@[simp] theorem completeError_padCnt (c : Cause) (s : State) : (completeError c s).padCnt = s.padCnt := rfl
@[simp] theorem completeError_dAcc (c : Cause) (s : State) : (completeError c s).dAcc = s.dAcc := rfl
@[simp] theorem completeError_dCnt (c : Cause) (s : State) : (completeError c s).dCnt = s.dCnt := rfl
@[simp] theorem completeError_i (c : Cause) (s : State) : (completeError c s).i = s.i := rfl
@[simp] theorem completeError_o (c : Cause) (s : State) : (completeError c s).o = s.o := rfl
@[simp] theorem completeError_p (c : Cause) (s : State) : (completeError c s).p = s.p := rfl
@[simp] theorem completeError_ol (c : Cause) (s : State) : (completeError c s).ol = s.ol := rfl
@[simp] theorem completeError_tl (c : Cause) (s : State) : (completeError c s).tl = s.tl := rfl
@[simp] theorem completeError_ibuf (c : Cause) (s : State) : (completeError c s).ibuf = s.ibuf := rfl
@[simp] theorem completeError_obuf (c : Cause) (s : State) : (completeError c s).obuf = s.obuf := rfl
@[simp] theorem completeError_program (c : Cause) (s : State) : (completeError c s).program = s.program := rfl
@[simp] theorem completeError_turns (c : Cause) (s : State) : (completeError c s).turns = s.turns := rfl
@[simp] theorem completeError_returned (c : Cause) (s : State) : (completeError c s).returned = s.returned := rfl
@[simp] theorem completeError_draws (c : Cause) (s : State) : (completeError c s).draws = s.draws := rfl
@[simp] theorem completeError_resets (c : Cause) (s : State) : (completeError c s).resets = s.resets := rfl

/-! `start` (40_commands.md R106). -/

@[simp] theorem startCommand_status (op : BitVec 2) (f : Bool) (s : State) :
    (startCommand op f s).status = { s.status with busy := true } := rfl
@[simp] theorem startCommand_inLen (op : BitVec 2) (f : Bool) (s : State) : (startCommand op f s).inLen = s.inLen := rfl
@[simp] theorem startCommand_outLen (op : BitVec 2) (f : Bool) (s : State) :
    (startCommand op f s).outLen = s.outLen := rfl
@[simp] theorem startCommand_depth (op : BitVec 2) (f : Bool) (s : State) : (startCommand op f s).depth = s.depth := rfl
@[simp] theorem startCommand_seq (op : BitVec 2) (f : Bool) (s : State) :
    (startCommand op f s).seq = if op = 0b01#2 then .eInit else .dInit := rfl
@[simp] theorem startCommand_opc (op : BitVec 2) (f : Bool) (s : State) : (startCommand op f s).opc = op := rfl
@[simp] theorem startCommand_flag (op : BitVec 2) (f : Bool) (s : State) : (startCommand op f s).flag = f := rfl
@[simp] theorem startCommand_n (op : BitVec 2) (f : Bool) (s : State) :
    (startCommand op f s).n = BitVec.ofNat 15 s.inLen.toNat := rfl
@[simp] theorem startCommand_eAcc (op : BitVec 2) (f : Bool) (s : State) : (startCommand op f s).eAcc = s.eAcc := rfl
@[simp] theorem startCommand_eCnt (op : BitVec 2) (f : Bool) (s : State) : (startCommand op f s).eCnt = s.eCnt := rfl
@[simp] theorem startCommand_padCnt (op : BitVec 2) (f : Bool) (s : State) :
    (startCommand op f s).padCnt = s.padCnt := rfl
@[simp] theorem startCommand_dAcc (op : BitVec 2) (f : Bool) (s : State) : (startCommand op f s).dAcc = s.dAcc := rfl
@[simp] theorem startCommand_dCnt (op : BitVec 2) (f : Bool) (s : State) : (startCommand op f s).dCnt = s.dCnt := rfl
@[simp] theorem startCommand_i (op : BitVec 2) (f : Bool) (s : State) : (startCommand op f s).i = s.i := rfl
@[simp] theorem startCommand_o (op : BitVec 2) (f : Bool) (s : State) : (startCommand op f s).o = s.o := rfl
@[simp] theorem startCommand_p (op : BitVec 2) (f : Bool) (s : State) : (startCommand op f s).p = s.p := rfl
@[simp] theorem startCommand_ol (op : BitVec 2) (f : Bool) (s : State) : (startCommand op f s).ol = s.ol := rfl
@[simp] theorem startCommand_tl (op : BitVec 2) (f : Bool) (s : State) : (startCommand op f s).tl = s.tl := rfl
@[simp] theorem startCommand_ibuf (op : BitVec 2) (f : Bool) (s : State) : (startCommand op f s).ibuf = s.ibuf := rfl
@[simp] theorem startCommand_obuf (op : BitVec 2) (f : Bool) (s : State) : (startCommand op f s).obuf = s.obuf := rfl
@[simp] theorem startCommand_program (op : BitVec 2) (f : Bool) (s : State) :
    (startCommand op f s).program = s.program := rfl
@[simp] theorem startCommand_turns (op : BitVec 2) (f : Bool) (s : State) : (startCommand op f s).turns = s.turns := rfl
@[simp] theorem startCommand_returned (op : BitVec 2) (f : Bool) (s : State) :
    (startCommand op f s).returned = s.returned := rfl
@[simp] theorem startCommand_draws (op : BitVec 2) (f : Bool) (s : State) : (startCommand op f s).draws = s.draws := rfl
@[simp] theorem startCommand_resets (op : BitVec 2) (f : Bool) (s : State) :
    (startCommand op f s).resets = s.resets := rfl

/-! A host read (20_memory.md R51, R60). -/

@[simp] theorem hostRead_status (a : Addr) (s : State) : (hostRead a s).status = s.status := rfl
@[simp] theorem hostRead_inLen (a : Addr) (s : State) : (hostRead a s).inLen = s.inLen := rfl
@[simp] theorem hostRead_outLen (a : Addr) (s : State) : (hostRead a s).outLen = s.outLen := rfl
@[simp] theorem hostRead_depth (a : Addr) (s : State) : (hostRead a s).depth = s.depth := rfl
@[simp] theorem hostRead_seq (a : Addr) (s : State) : (hostRead a s).seq = s.seq := rfl
@[simp] theorem hostRead_opc (a : Addr) (s : State) : (hostRead a s).opc = s.opc := rfl
@[simp] theorem hostRead_flag (a : Addr) (s : State) : (hostRead a s).flag = s.flag := rfl
@[simp] theorem hostRead_n (a : Addr) (s : State) : (hostRead a s).n = s.n := rfl
@[simp] theorem hostRead_eAcc (a : Addr) (s : State) : (hostRead a s).eAcc = s.eAcc := rfl
@[simp] theorem hostRead_eCnt (a : Addr) (s : State) : (hostRead a s).eCnt = s.eCnt := rfl
@[simp] theorem hostRead_padCnt (a : Addr) (s : State) : (hostRead a s).padCnt = s.padCnt := rfl
@[simp] theorem hostRead_dAcc (a : Addr) (s : State) : (hostRead a s).dAcc = s.dAcc := rfl
@[simp] theorem hostRead_dCnt (a : Addr) (s : State) : (hostRead a s).dCnt = s.dCnt := rfl
@[simp] theorem hostRead_i (a : Addr) (s : State) : (hostRead a s).i = s.i := rfl
@[simp] theorem hostRead_o (a : Addr) (s : State) : (hostRead a s).o = s.o := rfl
@[simp] theorem hostRead_p (a : Addr) (s : State) : (hostRead a s).p = s.p := rfl
@[simp] theorem hostRead_ol (a : Addr) (s : State) : (hostRead a s).ol = s.ol := rfl
@[simp] theorem hostRead_tl (a : Addr) (s : State) : (hostRead a s).tl = s.tl := rfl
@[simp] theorem hostRead_ibuf (a : Addr) (s : State) : (hostRead a s).ibuf = s.ibuf := rfl
@[simp] theorem hostRead_obuf (a : Addr) (s : State) : (hostRead a s).obuf = s.obuf := rfl
@[simp] theorem hostRead_program (a : Addr) (s : State) : (hostRead a s).program = s.program := rfl
@[simp] theorem hostRead_turns (a : Addr) (s : State) : (hostRead a s).turns = s.turns := rfl
@[simp] theorem hostRead_returned (a : Addr) (s : State) : (hostRead a s).returned = readValue a s :: s.returned := rfl
@[simp] theorem hostRead_resets (a : Addr) (s : State) : (hostRead a s).resets = s.resets := rfl

/-! The reset event (70_reset_and_hazards.md R220, R221). -/

@[simp] theorem resetStep_status (s : State) : (resetStep s).status = State.reset.status := rfl
@[simp] theorem resetStep_inLen (s : State) : (resetStep s).inLen = State.reset.inLen := rfl
@[simp] theorem resetStep_outLen (s : State) : (resetStep s).outLen = State.reset.outLen := rfl
@[simp] theorem resetStep_depth (s : State) : (resetStep s).depth = s.depth := rfl
@[simp] theorem resetStep_seq (s : State) : (resetStep s).seq = State.reset.seq := rfl
@[simp] theorem resetStep_opc (s : State) : (resetStep s).opc = State.reset.opc := rfl
@[simp] theorem resetStep_flag (s : State) : (resetStep s).flag = State.reset.flag := rfl
@[simp] theorem resetStep_n (s : State) : (resetStep s).n = State.reset.n := rfl
@[simp] theorem resetStep_eAcc (s : State) : (resetStep s).eAcc = State.reset.eAcc := rfl
@[simp] theorem resetStep_eCnt (s : State) : (resetStep s).eCnt = State.reset.eCnt := rfl
@[simp] theorem resetStep_padCnt (s : State) : (resetStep s).padCnt = State.reset.padCnt := rfl
@[simp] theorem resetStep_dAcc (s : State) : (resetStep s).dAcc = State.reset.dAcc := rfl
@[simp] theorem resetStep_dCnt (s : State) : (resetStep s).dCnt = State.reset.dCnt := rfl
@[simp] theorem resetStep_i (s : State) : (resetStep s).i = State.reset.i := rfl
@[simp] theorem resetStep_o (s : State) : (resetStep s).o = State.reset.o := rfl
@[simp] theorem resetStep_p (s : State) : (resetStep s).p = State.reset.p := rfl
@[simp] theorem resetStep_ol (s : State) : (resetStep s).ol = State.reset.ol := rfl
@[simp] theorem resetStep_tl (s : State) : (resetStep s).tl = State.reset.tl := rfl
@[simp] theorem resetStep_ibuf (s : State) : (resetStep s).ibuf = State.reset.ibuf := rfl
@[simp] theorem resetStep_obuf (s : State) : (resetStep s).obuf = State.reset.obuf := rfl
@[simp] theorem resetStep_program (s : State) : (resetStep s).program = s.program := rfl
@[simp] theorem resetStep_turns (s : State) : (resetStep s).turns = s.turns := rfl
@[simp] theorem resetStep_returned (s : State) : (resetStep s).returned = s.returned := rfl
@[simp] theorem resetStep_draws (s : State) : (resetStep s).draws = s.draws := rfl
@[simp] theorem resetStep_resets (s : State) : (resetStep s).resets = s.resets + 1 := rfl

/-! A command word put before the machine (log 3). -/

@[simp] theorem withFetchWord_status (k w : Nat) (s : State) : (s.withFetchWord k w).status = s.status := rfl
@[simp] theorem withFetchWord_inLen (k w : Nat) (s : State) : (s.withFetchWord k w).inLen = s.inLen := rfl
@[simp] theorem withFetchWord_outLen (k w : Nat) (s : State) : (s.withFetchWord k w).outLen = s.outLen := rfl
@[simp] theorem withFetchWord_depth (k w : Nat) (s : State) : (s.withFetchWord k w).depth = s.depth := rfl
@[simp] theorem withFetchWord_seq (k w : Nat) (s : State) : (s.withFetchWord k w).seq = s.seq := rfl
@[simp] theorem withFetchWord_opc (k w : Nat) (s : State) : (s.withFetchWord k w).opc = s.opc := rfl
@[simp] theorem withFetchWord_flag (k w : Nat) (s : State) : (s.withFetchWord k w).flag = s.flag := rfl
@[simp] theorem withFetchWord_n (k w : Nat) (s : State) : (s.withFetchWord k w).n = s.n := rfl
@[simp] theorem withFetchWord_eAcc (k w : Nat) (s : State) : (s.withFetchWord k w).eAcc = s.eAcc := rfl
@[simp] theorem withFetchWord_eCnt (k w : Nat) (s : State) : (s.withFetchWord k w).eCnt = s.eCnt := rfl
@[simp] theorem withFetchWord_padCnt (k w : Nat) (s : State) : (s.withFetchWord k w).padCnt = s.padCnt := rfl
@[simp] theorem withFetchWord_dAcc (k w : Nat) (s : State) : (s.withFetchWord k w).dAcc = s.dAcc := rfl
@[simp] theorem withFetchWord_dCnt (k w : Nat) (s : State) : (s.withFetchWord k w).dCnt = s.dCnt := rfl
@[simp] theorem withFetchWord_i (k w : Nat) (s : State) : (s.withFetchWord k w).i = s.i := rfl
@[simp] theorem withFetchWord_o (k w : Nat) (s : State) : (s.withFetchWord k w).o = s.o := rfl
@[simp] theorem withFetchWord_p (k w : Nat) (s : State) : (s.withFetchWord k w).p = s.p := rfl
@[simp] theorem withFetchWord_ol (k w : Nat) (s : State) : (s.withFetchWord k w).ol = s.ol := rfl
@[simp] theorem withFetchWord_tl (k w : Nat) (s : State) : (s.withFetchWord k w).tl = s.tl := rfl
@[simp] theorem withFetchWord_ibuf (k w : Nat) (s : State) : (s.withFetchWord k w).ibuf = s.ibuf := rfl
@[simp] theorem withFetchWord_obuf (k w : Nat) (s : State) : (s.withFetchWord k w).obuf = s.obuf := rfl
@[simp] theorem withFetchWord_program (k w : Nat) (s : State) :
    (s.withFetchWord k w).program = .wr cmdAddr (tableWord k w) :: s.program := rfl
@[simp] theorem withFetchWord_turns (k w : Nat) (s : State) : (s.withFetchWord k w).turns = .host :: s.turns := rfl
@[simp] theorem withFetchWord_returned (k w : Nat) (s : State) : (s.withFetchWord k w).returned = s.returned := rfl
@[simp] theorem withFetchWord_draws (k w : Nat) (s : State) : (s.withFetchWord k w).draws = s.draws := rfl
@[simp] theorem withFetchWord_resets (k w : Nat) (s : State) : (s.withFetchWord k w).resets = s.resets := rfl

/-! A host program put before the machine (log 3). -/

@[simp] theorem load_status (l : List AsmLine) (s : State) : (s.load l).status = s.status := rfl
@[simp] theorem load_inLen (l : List AsmLine) (s : State) : (s.load l).inLen = s.inLen := rfl
@[simp] theorem load_outLen (l : List AsmLine) (s : State) : (s.load l).outLen = s.outLen := rfl
@[simp] theorem load_depth (l : List AsmLine) (s : State) : (s.load l).depth = s.depth := rfl
@[simp] theorem load_seq (l : List AsmLine) (s : State) : (s.load l).seq = s.seq := rfl
@[simp] theorem load_opc (l : List AsmLine) (s : State) : (s.load l).opc = s.opc := rfl
@[simp] theorem load_flag (l : List AsmLine) (s : State) : (s.load l).flag = s.flag := rfl
@[simp] theorem load_n (l : List AsmLine) (s : State) : (s.load l).n = s.n := rfl
@[simp] theorem load_eAcc (l : List AsmLine) (s : State) : (s.load l).eAcc = s.eAcc := rfl
@[simp] theorem load_eCnt (l : List AsmLine) (s : State) : (s.load l).eCnt = s.eCnt := rfl
@[simp] theorem load_padCnt (l : List AsmLine) (s : State) : (s.load l).padCnt = s.padCnt := rfl
@[simp] theorem load_dAcc (l : List AsmLine) (s : State) : (s.load l).dAcc = s.dAcc := rfl
@[simp] theorem load_dCnt (l : List AsmLine) (s : State) : (s.load l).dCnt = s.dCnt := rfl
@[simp] theorem load_i (l : List AsmLine) (s : State) : (s.load l).i = s.i := rfl
@[simp] theorem load_o (l : List AsmLine) (s : State) : (s.load l).o = s.o := rfl
@[simp] theorem load_p (l : List AsmLine) (s : State) : (s.load l).p = s.p := rfl
@[simp] theorem load_ol (l : List AsmLine) (s : State) : (s.load l).ol = s.ol := rfl
@[simp] theorem load_tl (l : List AsmLine) (s : State) : (s.load l).tl = s.tl := rfl
@[simp] theorem load_ibuf (l : List AsmLine) (s : State) : (s.load l).ibuf = s.ibuf := rfl
@[simp] theorem load_obuf (l : List AsmLine) (s : State) : (s.load l).obuf = s.obuf := rfl
@[simp] theorem load_program (l : List AsmLine) (s : State) : (s.load l).program = s.program ++ assemble l := rfl
@[simp] theorem load_turns (l : List AsmLine) (s : State) : (s.load l).turns = s.turns := rfl
@[simp] theorem load_returned (l : List AsmLine) (s : State) : (s.load l).returned = s.returned := rfl
@[simp] theorem load_draws (l : List AsmLine) (s : State) : (s.load l).draws = s.draws := rfl
@[simp] theorem load_resets (l : List AsmLine) (s : State) : (s.load l).resets = s.resets := rfl

end Sys2Proof.Machine
end

