-- ==== Sys2Proof/Tests/Slice0.lean ====
section
/-! SUPPORT. Tests of one step each, with expected values from spec/, and for each statement with hypotheses a state and
operands that meet them. -/

namespace Sys2Proof.Tests

open Sys2Proof Sys2Proof.Machine

/-! ## Helpers -/

/-- The chip of the spec's examples: IBUF_DEPTH = 64, so OBUF_DEPTH = 104. -/
def chip : State := { State.reset with depth := ⟨64, by decide⟩ }

/-- A chip of the largest depth. -/
def bigChip : State := { State.reset with depth := ⟨16384, by decide⟩ }

/-- The entries of a buffer filled from 0. -/
def filled (x : List Byte) : Memory := (List.range x.length).zip x

/-- The character codes of a text. -/
def codes (t : String) : List Byte := t.toList.map charCode

/-- A chip whose input is `x`. -/
def withInput (x : List Byte) : State :=
  { chip with inLen := BitVec.ofNat 32 x.length, ibuf := filled x }

/-- A chip that runs a command on the input `x`, in the phase `q`. -/
def running (op : BitVec 2) (f : Bool) (x : List Byte) (q : Machine.Seq) : State :=
  { withInput x with
    status := ⟨true, false, false, false, .none⟩
    opc := op
    flag := f
    n := BitVec.ofNat 15 x.length
    seq := q }

/-- A row of the trace of 41_encoder.md section 4: ENCODE of [0x66, 0x6F], FLAG = 1. -/
def encRow (q : Machine.Seq) (acc : BitVec 13) (cnt : BitVec 4) (i o : BitVec 15) (out : List Byte) : State :=
  { running 0b01 true [0x66, 0x6F] q with eAcc := acc, eCnt := cnt, i := i, o := o, obuf := filled out }

/-- A row of the trace of 42_decoder.md section 7: DECODE of `MZXQ====`, FLAG = 1. -/
def decRow (q : Machine.Seq) (p : BitVec 15) (ol : BitVec 14) (tl : BitVec 3) (acc : BitVec 12) (cnt : BitVec 4)
    (i o : BitVec 15) (out : List Byte) : State :=
  { running 0b10 true (codes "MZXQ====") q with
    p := p, ol := ol, tl := tl, dAcc := acc, dCnt := cnt, i := i, o := o, obuf := filled out }

/-- The state a step answers, or the one it started from. -/
def after (r : Result) (s : State) : State :=
  match r with
  | .next t => t
  | .fault _ => s
  | .refused _ => s

/-! ## Well-formedness (00_scope.md R5; 30_encoding.md R82, R83, R94) -/

theorem test_depth_zero_refused : checkDepth 0 = none := by decide
theorem test_depth_above_window_refused : checkDepth 16385 = none := by decide
theorem test_depth_bounds_accepted : (checkDepth 1).isSome ∧ (checkDepth 16384).isSome := by decide
theorem test_commands_wellFormed :
    ∀ f a, (Instr.clear f a).wellFormed ∧ (Instr.encode f a).wellFormed ∧ (Instr.decode f a).wellFormed := by decide
theorem test_long_fill_refused (n : Nat) (h : 0x4001 ≤ n) : (AsmLine.fill (List.replicate n 0)).wellFormed = false := by
  simp [AsmLine.wellFormed]; omega
theorem test_long_text_refused (n : Nat) (h : 0x4001 ≤ n) :
    (AsmLine.fillText (List.replicate n 'A')).wellFormed = false := by
  simp [AsmLine.wellFormed]; omega
theorem test_non_ascii_text_refused : (AsmLine.fillText ['A', 'é']).wellFormed = false := by decide
theorem test_long_dump_refused : (AsmLine.dump 0x8001).wellFormed = false := by decide

/-! ## Decoding: words written out from 30_encoding.md R80, R81 (RES, A, F, OP) -/

theorem test_decode_clear : decode 0b0000000000000000000000000000_0_0_00#32 = .ok (.clear false false) := by decide
theorem test_decode_clear_ignored_fields :
    decode 0b0000000000000000000000000000_1_1_00#32 = .ok (.clear true true) := by decide
theorem test_decode_encode : decode 0b0000000000000000000000000000_0_0_01#32 = .ok (.encode false false) := by decide
theorem test_decode_encode_padding :
    decode 0b0000000000000000000000000000_0_1_01#32 = .ok (.encode true false) := by decide
theorem test_decode_encode_absent :
    decode 0b0000000000000000000000000000_1_0_01#32 = .ok (.encode false true) := by decide
theorem test_decode_decode : decode 0b0000000000000000000000000000_0_0_10#32 = .ok (.decode false false) := by decide
theorem test_decode_decode_strict :
    decode 0b0000000000000000000000000000_0_1_10#32 = .ok (.decode true false) := by decide
theorem test_decode_decode_absent :
    decode 0b0000000000000000000000000000_1_0_10#32 = .ok (.decode false true) := by decide
theorem test_decode_reserved_op : decode 0b0000000000000000000000000000_0_0_11#32 = .error .opcode := by decide
theorem test_decode_reserved_low_bit : decode 0b0000000000000000000000000001_0_0_01#32 = .error .resBits := by decide
theorem test_decode_reserved_high_bit : decode 0b1000000000000000000000000000_0_0_00#32 = .error .resBits := by decide
theorem test_encode_words :
    encode (.clear false false) = 0x00000000#32 ∧ encode (.encode true true) = 0x0000000D#32 ∧
    encode (.decode true false) = 0x00000006#32 := by decide
theorem test_decodeTableWord :
    decodeTableWord 32 0 = some (.clear false false) ∧ decodeTableWord 32 1 = some (.encode false false) ∧
    decodeTableWord 32 2 = some (.decode false false) ∧ decodeTableWord 32 3 = none := by decide

/-! ## Tables (30_encoding.md R84 to R88) -/

theorem test_alphabet :
    (List.range 32).map (fun v => romAlpha (BitVec.ofNat 5 v)) = codes "ABCDEFGHIJKLMNOPQRSTUVWXYZ234567" := by decide
theorem test_lut_edges :
    [0x32, 0x37, 0x41, 0x5A].map (fun c => (lutValid c, (lutValue c).toNat)) =
      [(true, 26), (true, 31), (true, 0), (true, 25)] ∧
    ∀ c ∈ [0x31, 0x38, 0x40, 0x5B, 0x3D, 0x61], lut c = 0 := by decide
theorem test_padding_tables :
    (List.range 5).map (fun r => (padTabR r).toNat) = [0, 6, 4, 3, 1] ∧
    (List.range 5).map (fun m => (padTabM m).toNat) = [0, 1, 3, 4, 6] := by decide

/-! ## Commands -/

/-- 40_commands.md R103, its example: STATUS 0x0000005E becomes 0. -/
theorem test_clear_example :
    statusWord ⟨false, true, true, true, .nonzeroTailBits⟩ = 0x0000005E#32 ∧
    statusWord (after (exec (.clear false false)
      { chip with status := ⟨false, true, true, true, .nonzeroTailBits⟩ }) chip).status = 0x00000000#32 := by decide
/-- 40_commands.md R103, R110: a CLEAR while BUSY = 1 sets OVR. -/
theorem test_clear_while_busy :
    statusWord (after (exec (.clear false false) (encRow .eInit 0 0 0 0 [])) chip).status = 0x00000009#32 := by decide
/-- 40_commands.md R104, R106: `ENC 1` from reset starts the encoder. -/
theorem test_encode_from_reset :
    (after (step (State.reset.withFetchWord 32 0x5)) chip).seq = .eInit ∧
    (after (step (State.reset.withFetchWord 32 0x5)) chip).flag = true := by decide
/-- 40_commands.md R108, its example: `ENC 1, absent` gives STATUS 0x00000016. -/
theorem test_encode_absent_example :
    statusWord (after (exec (.encode true true) chip) chip).status = 0x00000016#32 := by decide
/-- 40_commands.md R105, R106: `DEC 0` from reset starts the decoder. -/
theorem test_decode_from_reset :
    (after (step (State.reset.withFetchWord 32 0x2)) chip).seq = .dInit ∧
    statusWord (after (step (State.reset.withFetchWord 32 0x2)) chip).status = 0x00000001#32 := by decide
/-- 40_commands.md R109, its example: `LEN 65`, `DEC 0` with IBUF_DEPTH = 64 gives STATUS 0x00000086. -/
theorem test_decode_capacity_example :
    statusWord (after (exec (.decode false false) { chip with inLen := 65 }) chip).status = 0x00000086#32 := by decide
/-- 40_commands.md R107, its example: `WR 0x0001, 0x00000003` gives STATUS 0x00000076. -/
theorem test_reserved_example : statusWord (after (cmdWrite 0x3 chip) chip).status = 0x00000076#32 := by decide
/-- CLEAR from reset runs as the first step. -/
theorem test_clear_from_reset : step (State.reset.withFetchWord 32 0x0) = .next State.reset := rfl

/-! ## Micro-steps: rows of the traces of 41_encoder.md section 4 and 42_decoder.md section 7 -/

theorem test_trace_encode_append :
    engineStep (encRow .eAppend 0x006 3 1 1 (codes "M")) =
      .next (encRow .eExtract 0x66F 11 2 1 (codes "M")) := rfl
theorem test_trace_encode_extract :
    engineStep (encRow .eExtract 0x66F 11 2 1 (codes "M")) =
      .next (encRow .eExtract 0x02F 6 2 2 (codes "MZ")) := rfl
theorem test_trace_encode_flush :
    engineStep (encRow .eFlush 0x001 1 2 3 (codes "MZX")) =
      .next (encRow .ePadInit 0x000 0 2 4 (codes "MZXQ")) := rfl
theorem test_trace_encode_padInit :
    engineStep (encRow .ePadInit 0x000 0 2 4 (codes "MZXQ")) =
      .next { encRow .ePad 0x000 0 2 4 (codes "MZXQ") with padCnt := 4 } := rfl
theorem test_trace_encode_pad :
    engineStep { encRow .ePad 0x000 0 2 4 (codes "MZXQ") with padCnt := 4 } =
      .next { encRow .ePad 0x000 0 2 5 (codes "MZXQ=") with padCnt := 3 } := rfl
theorem test_trace_encode_complete :
    let t := after (engineStep (encRow .ePad 0x000 0 2 8 (codes "MZXQ===="))) chip
    t.outLen = 8 ∧ statusWord t.status = 0x00000002#32 ∧ t.seq = .idle := by decide
theorem test_trace_decode_scan :
    engineStep (decRow .dScan 5 0 0 0 0 0 0 []) = .next (decRow .dScan 4 0 0 0 0 0 0 []) ∧
    engineStep (decRow .dScan 4 0 0 0 0 0 0 []) = .next (decRow .dAccount 4 0 0 0 0 0 0 []) := ⟨rfl, rfl⟩
theorem test_trace_decode_account :
    engineStep (decRow .dAccount 4 0 0 0 0 0 0 []) = .next (decRow .dTail 4 2 4 0 0 0 0 []) := rfl
theorem test_trace_decode_tail :
    engineStep (decRow .dTail 4 2 4 0 0 0 0 []) = .next (decRow .dPadChk 4 2 4 0 0 0 0 []) := rfl
theorem test_trace_decode_padChk :
    engineStep (decRow .dPadChk 4 2 4 0 0 0 0 []) = .next (decRow .dLoopInit 4 2 4 0 0 0 0 []) := rfl
theorem test_trace_decode_load :
    engineStep (decRow .dLoad 4 2 4 0x00C 5 1 0 []) = .next (decRow .dLoad 4 2 4 0x199 10 2 0 []) := rfl
theorem test_trace_decode_extract :
    engineStep (decRow .dExtract 4 2 4 0x199 10 2 0 []) = .next (decRow .dLoad 4 2 4 0x001 2 2 1 [0x66]) := rfl
theorem test_trace_decode_complete :
    let t := after (engineStep (decRow .dExtract 4 2 4 0x6F0 12 4 1 [0x66])) chip
    t.outLen = 2 ∧ statusWord t.status = 0x00000002#32 ∧ t.dCnt = 4 ∧ t.dAcc = 0 ∧
      t.obuf = [(0, 0x66), (1, 0x6F)] := by decide

/-! ## Closed forms: vectors of 95_test_vectors.md, step counts of 70_reset_and_hazards.md R227 -/

theorem test_closed_encode : encodeText [0x66, 0x6F] true = codes "MZXQ====" := by decide
theorem test_closed_decode_boundary :
    decodeText (codes "MZ======") false = .error .nonzeroTailBits ∧
    decodeText (codes "MY=====") true = .error .invalidPaddingLength ∧
    decodeText (codes "A") false = .error .tooShort ∧ decodeText (codes "MY") false = .ok [0x66] := by decide
theorem test_step_count_example : encodeStepCount 1 true = 14 := by decide

/-! ## The host port (20_memory.md R52 to R55) and the assembler (30_encoding.md R94) -/

theorem test_host_write_ignores_high_bits :
    (after (hostWrite 0x4000 0xABCDEF12 chip) chip).ibuf = [(0, 0x12)] := by decide
theorem test_host_reads :
    readValue 0x0000 chip = 0x42333207#32 ∧ readValue 0x0005 chip = 64#32 ∧ readValue 0x0006 chip = 0#32 ∧
    readValue 0x4040 chip = 0#32 ∧ readValue 0x8068 chip = 0#32 := by decide
theorem test_records :
    (AsmLine.enc true true).expand.map HostOp.record = ["W 0001 0000000D".toList] ∧
    (AsmLine.dec true false).expand.map HostOp.record = ["W 0001 00000006".toList] ∧
    (AsmLine.fillText ['M', 'Y']).expand.map HostOp.record =
      ["W 4000 0000004D".toList, "W 4001 00000059".toList] ∧
    (AsmLine.dump 2).expand.map HostOp.record = ["R 8000".toList, "R 8001".toList] ∧
    AsmLine.wait.expand.map HostOp.record = ["R 0002".toList] := by decide

/-! ## Witnesses: for each statement with hypotheses, a state and operands that meet them -/

/-! ### The invariant in each phase -/

theorem inv_idle : (withInput [0x66]).Inv := ⟨by decide, by decide, by decide, trivial⟩
theorem inv_eInit : (encRow .eInit 0 0 0 0 []).Inv :=
  ⟨by decide, by decide, by decide, by show State.opc _ = _; decide⟩
theorem inv_eAppend : (encRow .eAppend 0x006 3 1 1 (codes "M")).Inv :=
  ⟨by decide, by decide, by decide, by show State.opc _ = _ ∧ State.EncoderOk _ 4; decide⟩
theorem inv_eAppend_done : (encRow .eAppend 0x001 1 2 3 (codes "MZX")).Inv :=
  ⟨by decide, by decide, by decide, by show State.opc _ = _ ∧ State.EncoderOk _ 4; decide⟩
theorem inv_eExtract : (encRow .eExtract 0x66F 11 2 1 (codes "M")).Inv :=
  ⟨by decide, by decide, by decide, by show State.opc _ = _ ∧ State.EncoderOk _ 12; decide⟩
theorem inv_eExtract_five : (running 0b01 false [0x66, 0x6F, 0x6F, 0x62, 0x61] .eExtract).Inv :=
  ⟨by decide, by decide, by decide, by show State.opc _ = _ ∧ State.EncoderOk _ 12; decide⟩
theorem inv_eExtract_few : (encRow .eExtract 0x006 3 1 1 (codes "M")).Inv :=
  ⟨by decide, by decide, by decide, by show State.opc _ = _ ∧ State.EncoderOk _ 12; decide⟩
theorem inv_eFlush : (encRow .eFlush 0x001 1 2 3 (codes "MZX")).Inv :=
  ⟨by decide, by decide, by decide, by show State.opc _ = _ ∧ State.EncoderOk _ 4 ∧ State.i _ = State.n _; decide⟩
theorem inv_eFlush_empty : (running 0b01 true [] .eFlush).Inv :=
  ⟨by decide, by decide, by decide, by show State.opc _ = _ ∧ State.EncoderOk _ 4 ∧ State.i _ = State.n _; decide⟩
theorem inv_ePad : ({ encRow .ePad 0 0 2 7 (codes "MZXQ===") with padCnt := 1 } : State).Inv :=
  ⟨by decide, by decide, by decide, by
    show State.opc _ = _ ∧ _ = encodedLength _ _ ∧ writtenBelow _ _; decide⟩
theorem inv_ePad_done : (encRow .ePad 0 0 2 8 (codes "MZXQ====")).Inv :=
  ⟨by decide, by decide, by decide, by
    show State.opc _ = _ ∧ _ = encodedLength _ _ ∧ writtenBelow _ _; decide⟩
theorem inv_dScan : (decRow .dScan 5 0 0 0 0 0 0 []).Inv :=
  ⟨by decide, by decide, by decide, by show State.opc _ = _ ∧ 1 ≤ _ ∧ _ ≤ _; decide⟩
theorem inv_dScan_end : (decRow .dScan 4 0 0 0 0 0 0 []).Inv :=
  ⟨by decide, by decide, by decide, by show State.opc _ = _ ∧ 1 ≤ _ ∧ _ ≤ _; decide⟩
theorem inv_dScan_empty : (decRow .dScan 0 0 0 0 0 0 0 []).Inv :=
  ⟨by decide, by decide, by decide, by show State.opc _ = _ ∧ 1 ≤ _ ∧ _ ≤ _; decide⟩
theorem inv_dAccount (p : Fin 9) : (decRow .dAccount (BitVec.ofNat 15 p) 0 0 0 0 0 0 []).Inv := by
  refine ⟨?_, ?_, ?_, ?_⟩
  · revert p; decide
  · revert p; decide
  · revert p; decide
  · show State.opc _ = _ ∧ _ ≤ _
    revert p; decide
theorem inv_dTail : (decRow .dTail 4 2 4 0 0 0 0 []).Inv :=
  ⟨by decide, by decide, by decide, by show State.opc _ = _ ∧ State.AccountOk _; decide⟩
theorem inv_dPadChk (n : Fin 65) (f : Bool) (h : 4 ≤ n.val) :
    ({ decRow .dPadChk 4 2 4 0 0 0 0 [] with n := BitVec.ofNat 15 n, flag := f } : State).Inv := by
  refine ⟨?_, ?_, ?_, ?_⟩
  · revert n f; decide
  · revert n f; decide
  · revert n f; decide
  · show State.opc _ = _ ∧ State.AccountOk _
    revert n f; decide
theorem inv_dLoad : (decRow .dLoad 4 2 4 0x00C 5 1 0 []).Inv :=
  ⟨by decide, by decide, by decide, by show State.opc _ = _ ∧ State.DecoderOk _; decide⟩
theorem inv_dLoad_full : (decRow .dLoad 4 2 4 0x199 10 2 0 []).Inv :=
  ⟨by decide, by decide, by decide, by show State.opc _ = _ ∧ State.DecoderOk _; decide⟩
theorem inv_dExtract : (decRow .dExtract 4 2 4 0x199 10 2 0 []).Inv :=
  ⟨by decide, by decide, by decide, by show State.opc _ = _ ∧ State.DecoderOk _ ∧ 8 ≤ _; decide⟩
theorem inv_dExtract_last : (decRow .dExtract 4 2 4 0x6F0 12 4 1 [0x66]).Inv :=
  ⟨by decide, by decide, by decide, by show State.opc _ = _ ∧ State.DecoderOk _ ∧ 8 ≤ _; decide⟩


/-! ### The statements, in their order -/

theorem witness_RomAlphaAndLutAreInverse : lutValid 0x41 = true ∧ lutValid 0x37 = true := by decide
theorem witness_LutMapsTheAlphabetOnly :
    (0x61 ≤ (0x61#8).toNat ∧ (0x61#8).toNat ≤ 0x7A) ∧ (0x61 ≤ (0x7A#8).toNat ∧ (0x7A#8).toNat ≤ 0x7A) := by decide

theorem witness_StepRunsSelectedCommand :
    let s := { chip with program := [.wr 0x0001 0x5, .wait], turns := [.host, .engine] }
    let s' := { chip with program := [.wr 0x0001 0x5, .wait] }
    s.program = .wr 0x0001#16 0x5 :: [.wait] ∧ decode 0x5 = .ok (.encode true false) ∧ s.turns = .host :: [.engine] ∧
    s'.program = .wr 0x0001#16 0x5 :: [.wait] ∧ s'.turns = [] ∧ engineEnabled s'.seq = false := by decide

theorem witness_StepFollowsTurns :
    (∃ s : State, s.turns = .host :: []) ∧ (∃ s : State, s.turns = .engine :: []) ∧
    (∃ s : State, s.turns = [] ∧ s.seq ≠ .idle ∧ s.seq ≠ .unused) ∧ (∃ s : State, s.turns = [] ∧ s.seq = .idle) ∧
    (∃ s : State, s.turns = [] ∧ s.seq = .unused) ∧ (∃ s : State, s.program = []) ∧
    (∃ s : State, s.program = [.wr 0x4000 0x66]) ∧ (∃ s : State, s.program = [.wr 0x0001 0x3]) ∧
    (∃ s : State, s.program = [.rd 0xFFFF]) :=
  ⟨⟨{ chip with turns := [.host] }, rfl⟩, ⟨{ chip with turns := [.engine] }, rfl⟩,
   ⟨encRow .eInit 0 0 0 0 [], by decide⟩, ⟨chip, by decide⟩, ⟨{ chip with seq := .unused }, by decide⟩, ⟨chip, rfl⟩,
   ⟨{ chip with program := [.wr 0x4000 0x66] }, rfl⟩, ⟨{ chip with program := [.wr 0x0001 0x3] }, rfl⟩,
   ⟨{ chip with program := [.rd 0xFFFF] }, rfl⟩⟩

/-- A word for each branch: RES at its two ends, OP = 0b11, CLEAR, absent, IN_LEN one above and at IBUF_DEPTH. -/
theorem witness_CmdWriteRunsChecksInOrder :
    chip.status.busy = false ∧ (0x10#32).toNat / 16 ≠ 0 ∧ (0xFFFFFFFF#32).toNat / 16 ≠ 0 ∧ (0x3#32).toNat % 4 = 3 ∧
    (0xC#32).toNat / 16 = 0 ∧ (0xC#32).toNat % 4 = 0 ∧ (0xD#32).getLsbD 3 = true ∧
    { chip with inLen := 65 }.inLen.toNat > { chip with inLen := 65 }.depth.val ∧
    ¬{ chip with inLen := 64 }.inLen.toNat > { chip with inLen := 64 }.depth.val ∧ (0x5#32).getLsbD 3 = false := by decide

theorem witness_ReservedWordIsIllegalCommand :
    chip.status.busy = false ∧ chip.status.ovr = false ∧ ((0x10#32).toNat / 16 ≠ 0 ∨ (0x10#32).toNat % 4 = 3) ∧
    ((0x3#32).toNat / 16 ≠ 0 ∨ (0x3#32).toNat % 4 = 3) := by decide

theorem witness_ClearClearsStatus :
    chip.status.busy = false ∧ (encRow .eInit 0 0 0 0 []).status.busy = true := by decide

/-- IN_LEN at IBUF_DEPTH and at 0, and a running command. -/
theorem witness_EncodeAndDecodeStart :
    ((encRow .eInit 0 0 0 0 []).Inv ∧ (encRow .eInit 0 0 0 0 []).status.busy = true) ∧
    (∃ s : State, s.status.busy = false ∧ s.inLen.toNat ≤ s.depth.val ∧ s.inLen.toNat = s.depth.val) ∧
    (chip.status.busy = false ∧ chip.inLen.toNat ≤ chip.depth.val) :=
  ⟨⟨inv_eInit, rfl⟩, ⟨{ chip with inLen := 64 }, by decide⟩, by decide⟩

theorem witness_AbsentArgumentIsRefused : chip.status.busy = false ∧ chip.status.ovr = false := by decide

/-- IN_LEN one above IBUF_DEPTH, and the largest word. -/
theorem witness_OverlongInputIsRefused :
    (∃ s : State, s.status.busy = false ∧ s.status.ovr = false ∧ s.depth.val < s.inLen.toNat ∧ s.inLen = 65) ∧
    (∃ s : State, s.status.busy = false ∧ s.depth.val < s.inLen.toNat ∧ s.inLen = 0xFFFFFFFF) :=
  ⟨⟨{ chip with inLen := 65 }, by decide⟩, ⟨{ chip with inLen := 0xFFFFFFFF }, by decide⟩⟩

theorem witness_CommandsKeepBuffersAndDatapath :
    (clearCommand chip).status.busy = chip.status.busy := by decide

/-- CMD, IN_LEN, IBUF[0] and IBUF[63] are dropped; IBUF[64], STATUS and OBUF[0] are the others. OVR falls by a CLEAR and by
a reset. -/
theorem witness_BusyWritesAreDropped :
    ((encRow .eInit 0 0 0 0 []).status.busy = true ∧ (encRow .eInit 0 0 0 0 []).depth.val = 64) ∧
    (0x4000 ≤ (0x4000#16).toNat ∧ (0x4000#16).toNat < 0x8000 ∧ (0x4000#16).toNat - 0x4000 < 64) ∧
    (0x4000 ≤ (0x403F#16).toNat ∧ (0x403F#16).toNat < 0x8000 ∧ (0x403F#16).toNat - 0x4000 < 64) ∧
    ¬((0x4040#16).toNat - 0x4000 < 64) ∧ ¬((0x7FFF#16).toNat - 0x4000 < 64) ∧ ¬((0x8000#16).toNat < 0x8000) ∧
    ¬(0x4000 ≤ (0x0002#16).toNat) := by decide
theorem witness_BusyWritesAreDropped_ovr :
    (∃ s t : State, step s = .next t ∧ s.status.ovr = true ∧ t.status.ovr = false ∧ s.turns = [.reset]) ∧
    (∃ s t : State, step s = .next t ∧ s.status.ovr = true ∧ t.status.ovr = false ∧
      s.program = [.wr 0x0001 0x00000000]) :=
  ⟨⟨{ chip with status := { chip.status with ovr := true }, turns := [.reset] }, _, rfl, rfl, rfl, rfl⟩,
   ⟨{ chip with status := { chip.status with ovr := true }, program := [.wr 0x0001 0x00000000] }, _, rfl, rfl, rfl,
    rfl⟩⟩

/-- The longest output of the chip; a completion with a result, and one with a cause. -/
theorem witness_CompletionEndsTheCommand :
    104 ≤ obufDepth chip.depth ∧
    (∃ s t : State, s.seq ≠ .idle ∧ engineStep s = .next t ∧ t.seq = .idle ∧ t.status.err = false) ∧
    (∃ s t : State, s.seq ≠ .idle ∧ engineStep s = .next t ∧ t.seq = .idle ∧ t.status.err = true) :=
  ⟨by decide, ⟨encRow .ePad 0 0 2 8 (codes "MZXQ===="), _, by decide, rfl, rfl, rfl⟩,
   ⟨decRow .dAccount 0 0 0 0 0 0 0 [], _, by decide, rfl, rfl, rfl⟩⟩

theorem witness_InLenStoresWholeWord :
    chip.status.busy = false ∧ (encRow .eInit 0 0 0 0 []).status.busy = true := by decide

/-- IBUF[0] and IBUF[0x3FFF], inside and outside the buffer, busy and not, written and not. -/
theorem witness_IbufWindowAccess :
    ((0x4000#16).toNat = 0x4000 + 0 ∧ 0 ≤ 0x3FFF ∧ 0 < (withInput [0x66]).depth.val ∧
      (withInput [0x66]).status.busy = false ∧ (withInput [0x66]).ibuf.read 0 = some 0x66) ∧
    ((0x4000#16).toNat = 0x4000 + 0 ∧ 0 < (encRow .eInit 0 0 0 0 []).depth.val ∧
      (encRow .eInit 0 0 0 0 []).status.busy = true) ∧
    ((0x403F#16).toNat = 0x4000 + 63 ∧ 63 < chip.depth.val ∧ chip.ibuf.read 63 = none) ∧
    ((0x7FFF#16).toNat = 0x4000 + 0x3FFF ∧ 0x3FFF ≤ 0x3FFF ∧ chip.depth.val ≤ 0x3FFF ∧
      0x3FFF < bigChip.depth.val ∧ bigChip.status.busy = false) := by decide

/-- OBUF[0] and OBUF[0x7FFF]: a result entry, an entry outside the result, a busy chip, and outside the buffer. -/
theorem witness_ObufWindowAccess :
    let s := { chip with obuf := [(0, 0x66)], outLen := 1 }
    ((0x8000#16).toNat = 0x8000 + 0 ∧ 0 ≤ 0x7FFF ∧ 0 < obufDepth s.depth ∧ s.status.busy = false ∧
      0 < s.outLen.toNat ∧ s.obuf.read 0 = some 0x66) ∧
    ((0x8001#16).toNat = 0x8000 + 1 ∧ 1 < obufDepth s.depth ∧ s.outLen.toNat ≤ 1) ∧
    ((0x8000#16).toNat = 0x8000 + 0 ∧ 0 < obufDepth (encRow .eInit 0 0 0 0 []).depth ∧
      (encRow .eInit 0 0 0 0 []).status.busy = true) ∧
    ((0xFFFF#16).toNat = 0x8000 + 0x7FFF ∧ 0x7FFF ≤ 0x7FFF ∧ obufDepth s.depth ≤ 0x7FFF) := by decide

theorem witness_UnmappedAddressesDoNothing :
    (0x0006 ≤ (0x0006#16).toNat ∧ (0x0006#16).toNat ≤ 0x3FFF) ∧
    (0x0006 ≤ (0x3FFF#16).toNat ∧ (0x3FFF#16).toNat ≤ 0x3FFF) := by decide

theorem witness_ReadsChangeNothing :
    (∃ i, (0x8000#16).toNat = 0x8000 + i ∧ i < obufDepth chip.depth ∧
      (chip.status.busy = true ∨ chip.outLen.toNat ≤ i)) ∧
    ¬(∃ i, (0x0002#16).toNat = 0x8000 + i ∧ i < obufDepth chip.depth ∧
      (chip.status.busy = true ∨ chip.outLen.toNat ≤ i)) :=
  ⟨⟨0, by decide⟩, fun ⟨i, h, _⟩ => by simp at h; omega⟩

theorem witness_WaitRepeatsWhileBusy :
    let s := { chip with program := [.wait] }
    let s' := { encRow .eInit 0 0 0 0 [] with program := [.wait] }
    s.program = .wait :: [] ∧ s.status.busy = false ∧ s'.program = .wait :: [] ∧ s'.status.busy = true := by decide

theorem witness_AssemblerLinesExpand :
    (List.replicate 0x4000 (0 : Byte)).length ≤ 0x4000 ∧ 0x3FFF < (List.replicate 0x4000 (0 : Byte)).length ∧
    ((List.replicate 0x4000 '=').length ≤ 0x4000 ∧ ∀ c ∈ List.replicate 0x4000 '=', c.toNat < 128) ∧
    0x8000 ≤ 0x8000 ∧ 0x7FFF < 0x8000 := by
  refine ⟨?_, ?_, ⟨?_, fun c hc => ?_⟩, by decide, by decide⟩
  · rw [List.length_replicate]
  · rw [List.length_replicate]; decide
  · rw [List.length_replicate]
  · rw [List.eq_of_mem_replicate hc]; decide

theorem witness_ResetEventSetsResetValues :
    { encRow .eExtract 0x66F 11 2 1 (codes "M") with turns := [.reset] }.turns = .reset :: [] := rfl

theorem witness_EncoderInitClearsDatapath : (encRow .eInit 0x66F 11 2 1 []).seq = .eInit := rfl

/-- A byte to append, and the input done. -/
theorem witness_AppendTakesOneByte :
    (let s := encRow .eAppend 0x006 3 1 1 (codes "M")
     s.Inv ∧ s.seq = .eAppend ∧ s.i.toNat < s.n.toNat ∧ s.ibuf.read s.i.toNat = some 0x6F) ∧
    (let s := encRow .eAppend 0x001 1 2 3 (codes "MZX")
     s.Inv ∧ s.seq = .eAppend ∧ s.n.toNat ≤ s.i.toNat) :=
  ⟨⟨inv_eAppend, by decide⟩, ⟨inv_eAppend_done, by decide⟩⟩

theorem witness_ExtractEmitsOldestFiveBits :
    (let s := encRow .eExtract 0x66F 11 2 1 (codes "M")
     s.Inv ∧ s.seq = .eExtract ∧ 5 ≤ s.eCnt.toNat) ∧
    (let s := encRow .eExtract 0x006 3 1 1 (codes "M")
     s.Inv ∧ s.seq = .eExtract ∧ s.eCnt.toNat < 5) :=
  ⟨⟨inv_eExtract, by decide⟩, ⟨inv_eExtract_few, by decide⟩⟩

theorem witness_FlushEmitsZeroFilledSymbol :
    (let s := encRow .eFlush 0x001 1 2 3 (codes "MZX")
     s.Inv ∧ s.seq = .eFlush ∧ 0 < s.eCnt.toNat) ∧
    (let s := running 0b01 true [] .eFlush
     s.Inv ∧ s.seq = .eFlush ∧ s.eCnt.toNat = 0) :=
  ⟨⟨inv_eFlush, by decide⟩, ⟨inv_eFlush_empty, by decide⟩⟩

theorem witness_PaddingGeneratorEmitsPadding :
    (encRow .ePadInit 0 0 2 4 (codes "MZXQ")).seq = .ePadInit ∧
    (let s := { encRow .ePad 0 0 2 7 (codes "MZXQ===") with padCnt := 1 }
     s.Inv ∧ s.seq = .ePad ∧ 0 < s.padCnt.toNat) ∧
    (let s := encRow .ePad 0 0 2 8 (codes "MZXQ====")
     s.Inv ∧ s.seq = .ePad ∧ s.padCnt.toNat = 0) :=
  ⟨rfl, ⟨inv_ePad, by decide⟩, ⟨inv_ePad_done, by decide⟩⟩

/-- An empty and a non-empty text; a padding character, another character, and a text used up. -/
theorem witness_DecoderStripsTrailingPadding :
    (let s := running 0b10 true [] .dInit
     s.seq = .dInit ∧ s.n.toNat = 0) ∧
    (let s := decRow .dInit 0 0 0 0 0 0 0 []
     s.seq = .dInit ∧ s.n.toNat ≠ 0) ∧
    (let s := decRow .dScan 5 0 0 0 0 0 0 []
     s.Inv ∧ s.seq = .dScan ∧ 0 < s.p.toNat ∧ s.ibuf.read (s.p.toNat - 1) = some 0x3D#8) ∧
    (let s := decRow .dScan 4 0 0 0 0 0 0 []
     s.Inv ∧ s.seq = .dScan ∧ 0 < s.p.toNat ∧ s.ibuf.read (s.p.toNat - 1) = some 0x51#8 ∧ 0x51#8 ≠ 0x3D#8) ∧
    (let s := decRow .dScan 0 0 0 0 0 0 0 []
     s.Inv ∧ s.seq = .dScan ∧ s.p.toNat = 0) :=
  ⟨by decide, by decide, ⟨inv_dScan, by decide⟩, ⟨inv_dScan_end, by decide⟩, ⟨inv_dScan_empty, by decide⟩⟩

/-- P = 0 and 1 are too short, 3 is redundant, 2 and 8 go on. -/
theorem witness_AccountRejectsImpossibleLengths :
    (∀ p ∈ [0, 1, 2, 3, 8], ∃ s : State, s.Inv ∧ s.seq = .dAccount ∧ s.p.toNat = p) ∧
    (2 ≤ 3 ∧ (3 % 8 = 1 ∨ 3 % 8 = 3 ∨ 3 % 8 = 6)) ∧ (2 ≤ 2 ∧ ¬(2 % 8 = 1 ∨ 2 % 8 = 3 ∨ 2 % 8 = 6)) := by
  refine ⟨fun p hp => ?_, by decide, by decide⟩
  have h : p < 9 := by simp at hp; omega
  exact ⟨_, inv_dAccount ⟨p, h⟩, rfl, by
    show (BitVec.ofNat 15 p).toNat = p
    rw [BitVec.toNat_ofNat, Nat.mod_eq_of_lt (by omega)]⟩

/-- The last content symbol `Q`, with TL = 4, goes on; `R` and `1` in its place do not. -/
theorem witness_TailBitsMustBeZero :
    (let s := decRow .dTail 4 2 4 0 0 0 0 []
     s.Inv ∧ s.seq = .dTail ∧ s.ibuf.read (s.p.toNat - 1) = some 0x51 ∧ lutValid 0x51 = true ∧
      (lutValue 0x51).toNat % 2 ^ s.tl.toNat = 0) ∧
    (∃ s : State, s.Inv ∧ s.seq = .dTail ∧ s.ibuf.read (s.p.toNat - 1) = some 0x52 ∧ lutValid 0x52 = true ∧
      (lutValue 0x52).toNat % 2 ^ s.tl.toNat ≠ 0) ∧
    (∃ s : State, s.Inv ∧ s.seq = .dTail ∧ s.ibuf.read (s.p.toNat - 1) = some 0x31 ∧ lutValid 0x31 = false) :=
  ⟨⟨inv_dTail, by decide⟩,
   ⟨{ decRow .dTail 4 2 4 0 0 0 0 [] with ibuf := filled (codes "MZXR====") },
    ⟨by decide, by decide, by decide, by show State.opc _ = _ ∧ State.AccountOk _; decide⟩, by decide⟩,
   ⟨{ decRow .dTail 4 2 4 0 0 0 0 [] with ibuf := filled (codes "MZX1====") },
    ⟨by decide, by decide, by decide, by show State.opc _ = _ ∧ State.AccountOk _; decide⟩, by decide⟩⟩

/-- Four padding characters pass, three do not, and FLAG = 0 asks for none. -/
theorem witness_StrictPaddingFillsGroups :
    (∃ s : State, s.Inv ∧ s.seq = .dPadChk ∧ s.flag = true ∧ s.n.toNat - s.p.toNat = 4) ∧
    (∃ s : State, s.Inv ∧ s.seq = .dPadChk ∧ s.flag = true ∧ s.n.toNat - s.p.toNat ≠ 4) ∧
    (∃ s : State, s.Inv ∧ s.seq = .dPadChk ∧ s.flag = false) :=
  ⟨⟨_, inv_dPadChk 8 true (by decide), by decide⟩, ⟨_, inv_dPadChk 7 true (by decide), by decide⟩,
   ⟨_, inv_dPadChk 4 false (by decide), by decide⟩⟩

/-- A symbol to load, a character outside the alphabet, and eight bits held. -/
theorem witness_LoadAppendsSymbolValue :
    (decRow .dLoopInit 4 2 4 0 0 0 0 []).seq = .dLoopInit ∧
    (let s := decRow .dLoad 4 2 4 0x00C 5 1 0 []
     s.Inv ∧ s.seq = .dLoad ∧ s.dCnt.toNat < 8 ∧ s.ibuf.read s.i.toNat = some 0x5A ∧ lutValid 0x5A = true) ∧
    (∃ s : State, s.Inv ∧ s.seq = .dLoad ∧ s.dCnt.toNat < 8 ∧ s.ibuf.read s.i.toNat = some 0x3D ∧
      lutValid 0x3D = false) ∧
    (let s := decRow .dLoad 4 2 4 0x199 10 2 0 []
     s.Inv ∧ s.seq = .dLoad ∧ 8 ≤ s.dCnt.toNat) :=
  ⟨rfl, ⟨inv_dLoad, by decide⟩,
   ⟨{ decRow .dLoad 4 2 4 0x00C 5 1 0 [] with ibuf := filled (codes "M=XQ====") },
    ⟨by decide, by decide, by decide, by show State.opc _ = _ ∧ State.DecoderOk _; decide⟩, by decide⟩,
   ⟨inv_dLoad_full, by decide⟩⟩

/-- Not the last output byte, and the last one. -/
theorem witness_ExtractWritesOldestEightBits :
    (let s := decRow .dExtract 4 2 4 0x199 10 2 0 []
     s.Inv ∧ s.seq = .dExtract ∧ s.o.toNat + 1 ≠ s.ol.toNat) ∧
    (let s := decRow .dExtract 4 2 4 0x6F0 12 4 1 [0x66]
     s.Inv ∧ s.seq = .dExtract ∧ s.o.toNat + 1 = s.ol.toNat) :=
  ⟨⟨inv_dExtract, by decide⟩, ⟨inv_dExtract_last, by decide⟩⟩

theorem witness_EveryStepKeepsInvariant :
    ∃ s t : State, s.Inv ∧ step s = .next t ∧ s ≠ t :=
  ⟨encRow .eAppend 0x006 3 1 1 (codes "M"), encRow .eExtract 0x66F 11 2 1 (codes "M"), inv_eAppend, rfl, by decide⟩

theorem witness_NoEngineAccessOutsideItsBuffer : (encRow .eAppend 0x006 3 1 1 (codes "M")).Inv := inv_eAppend

/-- The input entry each reading micro-step needs, not written. -/
theorem witness_OnlyUnwrittenInputFaults :
    (∃ s : State, s.Inv ∧ s.seq = .eAppend ∧ s.i.toNat < s.n.toNat ∧ s.ibuf.read s.i.toNat = none ∧
      step s = .fault .unwrittenInput) ∧
    (∃ s : State, s.Inv ∧ s.seq = .dScan ∧ 0 < s.p.toNat ∧ s.ibuf.read (s.p.toNat - 1) = none) ∧
    (∃ s : State, s.Inv ∧ s.seq = .dTail ∧ s.ibuf.read (s.p.toNat - 1) = none) ∧
    (∃ s : State, s.Inv ∧ s.seq = .dLoad ∧ s.dCnt.toNat < 8 ∧ s.ibuf.read s.i.toNat = none) :=
  ⟨⟨{ encRow .eAppend 0x006 3 1 1 (codes "M") with ibuf := [] },
    ⟨by decide, by decide, by decide, by show State.opc _ = _ ∧ State.EncoderOk _ 4; decide⟩, by decide, by decide,
    by decide, rfl⟩,
   ⟨{ decRow .dScan 8 0 0 0 0 0 0 [] with ibuf := [] },
    ⟨by decide, by decide, by decide, by show State.opc _ = _ ∧ 1 ≤ _ ∧ _ ≤ _; decide⟩, by decide⟩,
   ⟨{ decRow .dTail 4 2 4 0 0 0 0 [] with ibuf := [] },
    ⟨by decide, by decide, by decide, by show State.opc _ = _ ∧ State.AccountOk _; decide⟩, by decide⟩,
   ⟨{ decRow .dLoad 4 2 4 0x00C 5 1 0 [] with ibuf := [] },
    ⟨by decide, by decide, by decide, by show State.opc _ = _ ∧ State.DecoderOk _; decide⟩, by decide⟩⟩

/-- An engine step, a host step and a step, each with a next state. -/
theorem witness_EachBufferHasOneWriter :
    (∃ t, engineStep (encRow .eExtract 0x66F 11 2 1 (codes "M")) = .next t) ∧
    (∃ t, hostStep { chip with program := [.wr 0x4000 0x66] } = .next t) ∧
    (∃ t, step { chip with program := [.wr 0x4000 0x66] } = .next t) :=
  ⟨⟨_, rfl⟩, ⟨_, rfl⟩, ⟨_, rfl⟩⟩

theorem witness_OutcomeStaysUntilNextCommand :
    ∃ s t : State, s.Inv ∧ s.status.busy = false ∧ step s = .next t ∧ (∀ ts, s.turns ≠ .reset :: ts) ∧
      (∀ w rest, s.program ≠ .wr 0x0001#16 w :: rest) ∧ s ≠ t :=
  ⟨{ withInput [0x66] with program := [.rd 0x0002] },
   { withInput [0x66] with returned := [0x00000000] }, ⟨by decide, by decide, by decide, trivial⟩, rfl, rfl,
   fun _ h => (by cases h), fun _ _ h => (by cases h), by decide⟩

theorem witness_HostStepKeepsRunningCommand :
    ∃ s t : State, s.status.busy = true ∧ hostStep s = .next t ∧ s ≠ t :=
  ⟨{ encRow .eInit 0 0 0 0 [] with program := [.wr 0x0003 0x1] }, _, rfl, rfl, by decide⟩

theorem witness_EngineSeesOnlyTheCommand :
    (∃ s s' t : State, s.underCommand = s'.underCommand ∧ s ≠ s' ∧ engineStep s = .next t) ∧
    (∃ s s' : State, s.underCommand = s'.underCommand ∧ s ≠ s' ∧ engineStep s = .fault .unwrittenInput) :=
  ⟨⟨encRow .eInit 0 0 0 0 [], { encRow .eInit 0 0 0 0 [] with program := [.wait] }, _, rfl, by decide, rfl⟩,
   ⟨running 0b01 true [0x66] .eAppend |> fun s => { s with ibuf := [] },
    running 0b01 true [0x66] .eAppend |> fun s => { s with ibuf := [], program := [.wait] }, rfl, by decide, rfl⟩⟩

/-- The last `=` of an ENCODE with a dropped host write before each of the two engine steps. -/
theorem witness_OutcomeIgnoresInterleaving :
    let s : State := { encRow .ePad 0 0 2 7 (codes "MZXQ===") with
      padCnt := 1, program := [.wr 0x0003 0x1, .wr 0x0001 0x0] }
    let ts : List Turn := [.host, .engine, .host]
    .reset ∉ ts ∧ (∀ j, j ≤ ts.count .engine → ∃ v, engineRun j s = .next v ∧ v.status.busy = true) ∧
    ∃ u, engineRun (ts.count .engine + 1) s = .next u := by
  refine ⟨by decide, fun j hj => ?_, _, rfl⟩
  have hj : j ≤ 1 := hj
  interval_cases j <;> exact ⟨_, rfl, rfl⟩

theorem hasInput_of {x : List Byte} {s : State} (h1 : s.inLen.toNat = x.length) (h2 : x.length ≤ s.depth.val)
    (h3 : ∀ j : Fin x.length, s.ibuf.read j = some x[j]) : s.HasInput x :=
  ⟨h1, h2, fun j h => h3 ⟨j, h⟩⟩

theorem witness_EveryStartedCommandEnds :
    let s := encRow .eAppend 0x006 3 1 1 (codes "M")
    s.Inv ∧ s.turns = [] ∧ ∀ j, j < s.n.toNat → s.ibuf.read j ≠ none := ⟨inv_eAppend, rfl, by decide⟩

theorem witness_EncodeComputesClosedForm :
    (withInput [0x66, 0x6F]).status.busy = false ∧ (withInput [0x66, 0x6F]).turns = [] ∧
    (withInput [0x66, 0x6F]).HasInput [0x66, 0x6F] := ⟨rfl, rfl, hasInput_of rfl (by decide) (by decide)⟩

/-- A text that decodes, and one that does not. -/
theorem witness_DecodeComputesClosedForm :
    ((withInput (codes "MY")).status.busy = false ∧ (withInput (codes "MY")).turns = [] ∧
      (withInput (codes "MY")).HasInput (codes "MY") ∧ decodeText (codes "MY") false = .ok [0x66]) ∧
    ((withInput (codes "A")).status.busy = false ∧ (withInput (codes "A")).turns = [] ∧
      (withInput (codes "A")).HasInput (codes "A") ∧ decodeText (codes "A") false = .error .tooShort) :=
  ⟨⟨rfl, rfl, hasInput_of rfl (by decide) (by decide), by decide⟩,
   ⟨rfl, rfl, hasInput_of rfl (by decide) (by decide), by decide⟩⟩

/-- A DECODE of `x` that ends after `k` steps in a state with the STATUS word `w`. -/
def EndsIn (x : List Byte) (f : Bool) (k : Nat) (w : Word) : Prop :=
  ∃ s t u : State, s.status.busy = false ∧ s.turns = [] ∧ s.HasInput x ∧ exec (.decode f false) s = .next t ∧
    t.CompletesIn k u ∧ statusWord u.status = w

/-- One text for each outcome (95_test_vectors.md; 60_exceptions.md R204). -/
theorem witness_DecodeStepCounts_empty : EndsIn [] true 1 0x00000002 := by
  refine ⟨withInput [], _, _, rfl, rfl, hasInput_of rfl (by decide) (by decide), rfl, ⟨rfl, rfl, fun j hj => ?_⟩, rfl⟩
  interval_cases j
  exact ⟨_, rfl, rfl⟩
theorem witness_DecodeStepCounts_ok : EndsIn (codes "MY") false 10 0x00000002 := by
  refine ⟨withInput (codes "MY"), _, _, rfl, rfl, hasInput_of rfl (by decide) (by decide), rfl,
    ⟨rfl, rfl, fun j hj => ?_⟩, rfl⟩
  interval_cases j <;> exact ⟨_, rfl, rfl⟩
theorem witness_DecodeStepCounts_tooShort : EndsIn (codes "A") false 3 0x00000026 := by
  refine ⟨withInput (codes "A"), _, _, rfl, rfl, hasInput_of rfl (by decide) (by decide), rfl,
    ⟨rfl, rfl, fun j hj => ?_⟩, rfl⟩
  interval_cases j <;> exact ⟨_, rfl, rfl⟩
theorem witness_DecodeStepCounts_redundant : EndsIn (codes "AAA") true 3 0x00000036 := by
  refine ⟨withInput (codes "AAA"), _, _, rfl, rfl, hasInput_of rfl (by decide) (by decide), rfl,
    ⟨rfl, rfl, fun j hj => ?_⟩, rfl⟩
  interval_cases j <;> exact ⟨_, rfl, rfl⟩
theorem witness_DecodeStepCounts_tailBits : EndsIn (codes "1Z") false 4 0x00000056 := by
  refine ⟨withInput (codes "1Z"), _, _, rfl, rfl, hasInput_of rfl (by decide) (by decide), rfl,
    ⟨rfl, rfl, fun j hj => ?_⟩, rfl⟩
  interval_cases j <;> exact ⟨_, rfl, rfl⟩
theorem witness_DecodeStepCounts_padding : EndsIn (codes "MY") true 5 0x00000066 := by
  refine ⟨withInput (codes "MY"), _, _, rfl, rfl, hasInput_of rfl (by decide) (by decide), rfl,
    ⟨rfl, rfl, fun j hj => ?_⟩, rfl⟩
  interval_cases j <;> exact ⟨_, rfl, rfl⟩
theorem witness_DecodeStepCounts_lastCharacter : EndsIn (codes "my") false 4 0x00000046 := by
  refine ⟨withInput (codes "my"), _, _, rfl, rfl, hasInput_of rfl (by decide) (by decide), rfl,
    ⟨rfl, rfl, fun j hj => ?_⟩, rfl⟩
  interval_cases j <;> exact ⟨_, rfl, rfl⟩
theorem witness_DecodeStepCounts_character : EndsIn (codes "mY") false 7 0x00000046 := by
  refine ⟨withInput (codes "mY"), _, _, rfl, rfl, hasInput_of rfl (by decide) (by decide), rfl,
    ⟨rfl, rfl, fun j hj => ?_⟩, rfl⟩
  interval_cases j <;> exact ⟨_, rfl, rfl⟩

theorem witness_ResidueIsZeroAtCompletion :
    EndsIn (codes "MY") false 10 0x00000002 ∧ codes "MY" ≠ [] := ⟨witness_DecodeStepCounts_ok, by decide⟩

/-- An accepted text and a refused one. -/
theorem witness_AcceptanceIsCanonicity :
    EndsIn (codes "MY") false 10 0x00000002 ∧ EndsIn (codes "MY") true 5 0x00000066 ∧ codes "MY" ≠ [] :=
  ⟨witness_DecodeStepCounts_ok, witness_DecodeStepCounts_padding, by decide⟩

end Sys2Proof.Tests
end

/-! PROOF. The registers the host sees, and their values after reset (10_state.md R21 to R29, R39). -/

namespace Sys2Proof.Machine

/-! ## The addresses of the registers (20_memory.md R52) -/

@[simp] theorem regionOf_0x0000 : regionOf 0x0000#16 = .id := rfl
@[simp] theorem regionOf_0x0001 : regionOf 0x0001#16 = .cmd := rfl
@[simp] theorem regionOf_0x0002 : regionOf 0x0002#16 = .status := rfl
@[simp] theorem regionOf_0x0003 : regionOf 0x0003#16 = .inLen := rfl
@[simp] theorem regionOf_0x0004 : regionOf 0x0004#16 = .outLen := rfl
@[simp] theorem regionOf_0x0005 : regionOf 0x0005#16 = .depth := rfl

/-! ## What a read of a register returns -/

section ReadValue
variable {a : Addr} (s : State)

theorem readValue_of_id (h : regionOf a = .id) : readValue a s = idWord := by simp [readValue, h]
theorem readValue_of_cmd (h : regionOf a = .cmd) : readValue a s = 0#32 := by simp [readValue, h]
theorem readValue_of_status (h : regionOf a = .status) : readValue a s = statusWord s.status := by simp [readValue, h]
theorem readValue_of_inLen (h : regionOf a = .inLen) : readValue a s = s.inLen := by simp [readValue, h]

theorem toNat_readValue_of_outLen (h : regionOf a = .outLen) : (readValue a s).toNat = s.outLen.toNat := by
  simp only [readValue, h]
  exact BitVec.toNat_setWidth_of_le (by norm_num)

/-- An IBUF_DEPTH is at most 16384, so the word of DEPTH holds it whole. -/
theorem toNat_readValue_of_depth (h : regionOf a = .depth) : (readValue a s).toNat = s.depth.val := by
  simp only [readValue, h]
  exact toNat_ofNat_of_lt (s.depth.2.2.trans_lt (by norm_num))

end ReadValue

/-! ## What a write of a register does -/

section HostWrite
variable {a : Addr} (w : Word) {s : State}

theorem hostWrite_of_cmd (h : regionOf a = .cmd) : hostWrite a w s = cmdWrite w s := by simp [hostWrite, h]

/-- A host write does nothing anywhere but at CMD, IN_LEN and IBUF. -/
theorem hostWrite_of_readOnly (hcmd : regionOf a ≠ .cmd) (hlen : regionOf a ≠ .inLen)
    (hbuf : ∀ i, regionOf a ≠ .ibuf i) : hostWrite a w s = .next s := by
  rcases hostWrite_cases a w s with ⟨h, -⟩ | ⟨-, h⟩
  · exact absurd h hcmd
  · rw [h]
    unfold writePlain
    split
    · exact absurd ‹_› hlen
    · exact absurd ‹_› (hbuf _)
    all_goals rfl

theorem hostWrite_inLen_of_idle (h : regionOf a = .inLen) (hb : s.status.busy = false) :
    hostWrite a w s = .next { s with inLen := w } := by
  simp [hostWrite, writePlain, h, hb]

theorem hostWrite_inLen_of_busy (h : regionOf a = .inLen) (hb : s.status.busy = true) :
    hostWrite a w s = .next (dropWrite s) := by
  simp [hostWrite, writePlain, h, hb]

end HostWrite

/-! ## The fields of the STATUS word (10_state.md R23) -/

section StatusWord
variable (st : Status)

/-- The STATUS word bit by bit: BUSY, DONE, ERR, OVR, and the code of CAUSE with zeros above it. -/
theorem getLsbD_statusWord (k : Nat) :
    (statusWord st).getLsbD k =
      match k with
      | 0 => st.busy
      | 1 => st.done
      | 2 => st.err
      | 3 => st.ovr
      | k + 4 => (causeCode st.cause).getLsbD k := by
  unfold statusWord
  change BitVec.getLsbD (w := 24 + 4 + 1 + 1 + 1 + 1) _ k = _
  simp only [BitVec.getLsbD_append]
  match k with
  | 0 | 1 | 2 | 3 => simp
  | k + 4 => simpa using BitVec.lt_of_getLsbD

@[simp] theorem statusWord_cause : (statusWord st).extractLsb' 4 4 = causeCode st.cause := by
  apply BitVec.eq_of_getLsbD_eq
  intro k hk
  simp [hk, Nat.add_comm 4 k, getLsbD_statusWord]

@[simp] theorem statusWord_reservedBits : (statusWord st).extractLsb' 8 24 = 0#24 := by
  apply BitVec.eq_of_getLsbD_eq
  intro k hk
  have h : 8 + k = (k + 4) + 4 := by omega
  simp [hk, h, getLsbD_statusWord]

end StatusWord

end Sys2Proof.Machine

namespace Sys2Proof.Proofs

open Sys2Proof Sys2Proof.Machine

/-- Settles O20: field by field of the STATUS word, which the read returns; STATUS is read-only. -/
theorem statusWordShowsFields : Obligations.StatusWordShowsFields := by
  intro s
  rw [readValue_of_status s regionOf_0x0002]
  exact ⟨getLsbD_statusWord _ 0, getLsbD_statusWord _ 1, getLsbD_statusWord _ 2, getLsbD_statusWord _ 3,
    statusWord_cause _, statusWord_reservedBits _, rfl, (getLsbD_statusWord _ 1).symm,
    fun w => hostWrite_of_readOnly w (by simp) (by simp) (by simp)⟩

/-- Settles O21, by the region each address names. -/
theorem readOnlyRegistersAndCmd : Obligations.ReadOnlyRegistersAndCmd := by
  intro s
  refine ⟨readValue_of_id s regionOf_0x0000, readValue_of_cmd s regionOf_0x0001,
    toNat_readValue_of_outLen s regionOf_0x0004, toNat_readValue_of_depth s regionOf_0x0005, s.depth.2.1, s.depth.2.2,
    fun w => ⟨?_, hostWrite_of_cmd w regionOf_0x0001, ?_, ?_⟩⟩
  all_goals exact hostWrite_of_readOnly w (by simp) (by simp) (by simp)

/-- Settles O22, by the two cases of BUSY at a write of IN_LEN. -/
theorem inLenStoresWholeWord : Obligations.InLenStoresWholeWord := by
  refine ⟨fun w s => ⟨fun idle => ?_, hostWrite_inLen_of_busy w regionOf_0x0003,
    readValue_of_inLen s regionOf_0x0003⟩, rfl⟩
  exact ⟨_, hostWrite_inLen_of_idle w regionOf_0x0003 idle, rfl, readValue_of_inLen _ regionOf_0x0003⟩

/-- Settles O29: the registers by the definition of the reset state, whose buffers are empty lists. -/
theorem resetValues : Obligations.ResetValues :=
  ⟨rfl, rfl, rfl, rfl, rfl, rfl, rfl, rfl, rfl, rfl, rfl, rfl, rfl, rfl, rfl, rfl, rfl, rfl, rfl, rfl,
    Memory.read_nil, Memory.read_nil⟩

end Sys2Proof.Proofs

/-! PROOF. The buffer windows and the addresses that hold nothing (20_memory.md R53 to R55). -/

namespace Sys2Proof.Machine

/-! ## The IBUF window (20_memory.md R53) -/

section IbufWindow
variable {a : Addr} {i : Nat} (w : Word) (s : State)

theorem readValue_of_ibuf (h : regionOf a = .ibuf i) :
    readValue a s = if i < s.depth.val then (ibufEntry s i).setWidth 32 else 0#32 := by
  simp [readValue, h]

theorem ibufEntry_of_written {b : Byte} (h : s.ibuf.read i = some b) : ibufEntry s i = b := by
  simp [ibufEntry, h]

/-- What a write of the IBUF window does: nothing beyond IBUF_DEPTH, dropped while busy, else bits [7:0] are stored. -/
theorem hostWrite_of_ibuf (h : regionOf a = .ibuf i) :
    hostWrite a w s = .next (
      if i < s.depth.val then
        if s.status.busy then dropWrite s else { s with ibuf := s.ibuf.write i (w.extractLsb' 0 8) }
      else s) := by
  simp [hostWrite, writePlain, h, BitVec.setWidth_eq_extractLsb']

end IbufWindow

/-! ## The OBUF window (20_memory.md R54) -/

section ObufWindow
variable {a : Addr} {i : Nat} (s : State)

theorem readValue_of_obuf_beyond_depth (h : regionOf a = .obuf i) (hi : obufDepth s.depth ≤ i) :
    readValue a s = 0#32 := by
  simp [readValue, h, Nat.not_lt.mpr hi]

/-- A read that draws returns the next draw, any other read inside OBUF the entry. -/
theorem readValue_of_obuf (h : regionOf a = .obuf i) (hi : i < obufDepth s.depth) :
    readValue a s = (if obufReadDraws s i then Config.readDraw s.draws else obufEntry s i).setWidth 32 := by
  simp only [readValue, h, if_pos hi]
  split <;> rfl

/-- A read of an entry of the result, once the command has ended, draws nothing. -/
theorem obufReadDraws_of_result (hb : s.status.busy = false) (hi : i < s.outLen.toNat) :
    obufReadDraws s i = false := by
  simp [obufReadDraws, hb, hi]

theorem obufEntry_of_written {b : Byte} (h : s.obuf.read i = some b) : obufEntry s i = b := by
  simp [obufEntry, h]

end ObufWindow

/-! ## The unmapped addresses (20_memory.md R55) -/

theorem readValue_of_unmapped {a : Addr} (s : State) (h : regionOf a = .unmapped) : readValue a s = 0#32 := by
  simp [readValue, h]

end Sys2Proof.Machine

namespace Sys2Proof.Proofs

open Sys2Proof Sys2Proof.Machine

/-- Settles O23, by the two bounds of a write of the window (IBUF_DEPTH and BUSY); what a stored entry reads as is the
law of a buffer's write. -/
theorem ibufWindowAccess : Obligations.IbufWindowAccess := by
  intro a i w s ha hi
  have region : regionOf a = .ibuf i := regionOf_ibuf ha hi
  rw [hostWrite_of_ibuf w s region, readValue_of_ibuf s region]
  refine ⟨fun beyond => ?_, fun inside busy => ?_, fun inside idle => ?_, fun b inside written => ?_, fun inside => ?_⟩
  · simp [Nat.not_lt.mpr beyond]
  · rw [if_pos inside, if_pos busy]
    rfl
  · rw [if_pos inside, if_neg (by simp [idle])]
    exact ⟨_, rfl, rfl, Memory.read_write s.ibuf i _⟩
  · rw [if_pos inside, ibufEntry_of_written s written]
  · exact ⟨_, if_pos inside⟩

/-- Settles O24: a write of the window does nothing; a read of an entry of the result draws nothing, and either kind of
read inside OBUF returns a byte. -/
theorem obufWindowAccess : Obligations.ObufWindowAccess := by
  intro a i w s ha _
  have region : regionOf a = .obuf i := regionOf_obuf ha
  refine ⟨hostWrite_of_readOnly w (by simp [region]) (by simp [region]) (by simp [region]),
    readValue_of_obuf_beyond_depth s region, fun b inside idle result written => ?_,
    fun inside _ => ⟨_, readValue_of_obuf s region inside⟩⟩
  rw [readValue_of_obuf s region inside, obufReadDraws_of_result s idle result, obufEntry_of_written s written]
  rfl

/-- Settles O25, by the region each address names: none of them is CMD, IN_LEN or IBUF, which alone take writes. -/
theorem unmappedAddressesDoNothing : Obligations.UnmappedAddressesDoNothing := by
  intro a w s
  refine ⟨fun low high => ?_, fun readOnly => ?_, readValue_of_cmd s regionOf_0x0001⟩
  · have region : regionOf a = .unmapped := regionOf_unmapped low high
    exact ⟨readValue_of_unmapped s region,
      hostWrite_of_readOnly w (by simp [region]) (by simp [region]) (by simp [region])⟩
  · rcases readOnly with rfl | rfl | rfl | rfl
    all_goals exact hostWrite_of_readOnly w (by simp) (by simp) (by simp)

end Sys2Proof.Proofs

/-! PROOF. The command word (30_encoding.md R80 to R93), the padding tables (R87, R88; 41_encoder.md R138) and the
alphabet's two tables (R84, R85, R89). -/

namespace Sys2Proof

/-! ## The fields a row's mask keeps (30_encoding.md R93) -/

theorem word_eq_fields (w : Word) : w = fieldRes w ++ w.extractLsb' 2 2 ++ fieldOp w := by
  unfold fieldRes fieldOp
  rw [BitVec.extractLsb'_append_extractLsb'_eq_extractLsb' (by decide),
    BitVec.extractLsb'_append_extractLsb'_eq_extractLsb' (by decide), BitVec.extractLsb'_eq_self]

theorem fieldOp_append (res : BitVec 28) (m op : BitVec 2) : fieldOp (res ++ m ++ op) = op :=
  BitVec.extractLsb'_append_eq_right

theorem fieldRes_append (res : BitVec 28) (m op : BitVec 2) : fieldRes (res ++ m ++ op) = res := by
  unfold fieldRes
  rw [BitVec.append_assoc, BitVec.extractLsb'_cast]
  exact BitVec.extractLsb'_append_eq_left

/-- The mask of the opcode table clears F and A and keeps RES and OP. -/
theorem and_rowMask (w : Word) : w &&& 0xFFFFFFF3#32 = fieldRes w ++ 0#2 ++ fieldOp w := by
  have mask : 0xFFFFFFF3#32 = BitVec.allOnes 28 ++ 0#2 ++ BitVec.allOnes 2 := by decide
  calc w &&& 0xFFFFFFF3#32
      = (fieldRes w ++ w.extractLsb' 2 2 ++ fieldOp w) &&& (BitVec.allOnes 28 ++ 0#2 ++ BitVec.allOnes 2) := by
        rw [mask, ← word_eq_fields]
    _ = fieldRes w ++ 0#2 ++ fieldOp w := by
        simp only [BitVec.and_append, BitVec.and_allOnes, BitVec.and_zero]

/-- A word matches the row of `op` exactly when its RES is 0 and its OP is `op`. -/
theorem and_rowMask_eq_iff (w : Word) (op : BitVec 2) :
    w &&& 0xFFFFFFF3#32 = 0#28 ++ 0#2 ++ op ↔ fieldRes w = 0#28 ∧ fieldOp w = op := by
  rw [and_rowMask]
  constructor
  · intro h
    exact ⟨by simpa only [fieldRes_append] using congrArg fieldRes h,
      by simpa only [fieldOp_append] using congrArg fieldOp h⟩
  · rintro ⟨hres, hop⟩
    rw [hres, hop]

/-- What the decoder answers, by RES and OP. -/
theorem decode_cases (w : Word) :
    (fieldRes w ≠ 0#28 ∧ decode w = .error .resBits) ∨
    (fieldRes w = 0#28 ∧ fieldOp w = 0#2 ∧ decode w = .ok (.clear (fieldF w) (fieldA w))) ∨
    (fieldRes w = 0#28 ∧ fieldOp w = 1#2 ∧ decode w = .ok (.encode (fieldF w) (fieldA w))) ∨
    (fieldRes w = 0#28 ∧ fieldOp w = 2#2 ∧ decode w = .ok (.decode (fieldF w) (fieldA w))) ∨
    (fieldRes w = 0#28 ∧ fieldOp w = 3#2 ∧ decode w = .error .opcode) := by
  by_cases hres : fieldRes w = 0#28
  · have hop : ∀ op : BitVec 2, op = 0#2 ∨ op = 1#2 ∨ op = 2#2 ∨ op = 3#2 := by decide
    rcases hop (fieldOp w) with h | h | h | h <;> simp [decode, hres, h]
  · exact .inl ⟨hres, by simp [decode, hres]⟩

end Sys2Proof

namespace Sys2Proof.Machine

/-! ## The padding tables and the ceilings they round up to (30_encoding.md R87, R88; 41_encoder.md R138) -/

theorem missingBytes_eq (n : Nat) : missingBytes n = (5 - n % 5) % 5 := by
  unfold missingBytes ceilDiv
  omega

/-- The missing bytes index PADTAB_M where the leftover bytes index PADTAB_R. -/
theorem padTabM_missingBytes (n : Nat) : padTabM (missingBytes n) = padTabR (n % 5) := by
  rw [missingBytes_eq]
  rcases padTabR_cases n with ⟨hr, -⟩ | ⟨hr, -⟩ | ⟨hr, -⟩ | ⟨hr, -⟩ | ⟨hr, -⟩ <;> rw [hr] <;> rfl

/-- The symbols of `n` bytes and their padding fill one group of 8 for each group of 5 bytes begun. -/
theorem symbols_add_padding (n : Nat) :
    ceilDiv (8 * n) 5 + (padTabR (n % 5)).toNat = 8 * ceilDiv n 5 := by
  unfold ceilDiv
  rcases padTabR_cases n with ⟨hr, hp⟩ | ⟨hr, hp⟩ | ⟨hr, hp⟩ | ⟨hr, hp⟩ | ⟨hr, hp⟩
  all_goals
    simp only [hp, BitVec.ofNat_eq_ofNat, BitVec.toNat_ofNat]
    omega

/-- That total is the least multiple of 8 that holds the symbols. -/
theorem groups_eq_ceilDiv_symbols (n : Nat) : ceilDiv n 5 = ceilDiv (ceilDiv (8 * n) 5) 8 := by
  unfold ceilDiv
  omega

/-! ## The alphabet's two tables (30_encoding.md R84, R85, R89) -/

/-- The code of a value: the letters from `A` are the values up to 25, the digits from `2` those above. -/
theorem toNat_romAlpha (v : BitVec 5) :
    (romAlpha v).toNat = if v.toNat ≤ 25 then 0x41 + v.toNat else 0x32 + (v.toNat - 26) := by
  have := v.isLt
  unfold romAlpha
  split <;> exact toNat_ofNat_of_lt (by omega)

/-- LUT maps the code of a value to that value with valid = 1. -/
theorem lut_romAlpha (v : BitVec 5) : lut (romAlpha v) = 1#1 ++ v := by
  have entry : ∀ k, k = v.toNat → BitVec.ofNat 6 (32 + k) = 1#1 ++ v := by
    rintro _ rfl
    revert v; decide
  have := v.isLt
  unfold lut
  rw [toNat_romAlpha]
  by_cases letter : v.toNat ≤ 25
  · rw [if_pos letter, if_pos (by omega)]
    exact entry _ (by omega)
  · rw [if_neg letter, if_neg (by omega), if_pos (by omega)]
    exact entry _ (by omega)

theorem lutValid_romAlpha (v : BitVec 5) : lutValid (romAlpha v) = true := by
  rw [lutValid, lut_romAlpha, BitVec.getLsbD_append]
  rfl

theorem lutValue_romAlpha (v : BitVec 5) : lutValue (romAlpha v) = v := by
  rw [lutValue, lut_romAlpha]
  exact BitVec.extractLsb'_append_eq_right

/-- Every valid code is the code of a value. -/
theorem exists_romAlpha_of_lutValid {c : Byte} (h : lutValid c = true) : ∃ v, romAlpha v = c := by
  have ofValue : ∀ k < 32, (if k ≤ 25 then 0x41 + k else 0x32 + (k - 26)) = c.toNat → ∃ v, romAlpha v = c := by
    intro k hk code
    refine ⟨BitVec.ofNat 5 k, BitVec.eq_of_toNat_eq ?_⟩
    rw [toNat_romAlpha, toNat_ofNat_of_lt hk, code]
  unfold lutValid lut at h
  split at h
  · exact ofValue (c.toNat - 0x41) (by omega) (by split <;> omega)
  · split at h
    · exact ofValue (c.toNat - 0x32 + 26) (by omega) (by split <;> omega)
    · cases h

end Sys2Proof.Machine

namespace Sys2Proof.Proofs

open Sys2Proof Sys2Proof.Machine

/-- Settles O2: the mask keeps RES and OP, the two fields the decoder's cases turn on. -/
theorem wordSelectsRowByMaskAndMatch : Obligations.WordSelectsRowByMaskAndMatch := by
  intro w
  have clearRow : w &&& 0xFFFFFFF3#32 = 0x00000000#32 ↔ _ := and_rowMask_eq_iff w 0#2
  have encodeRow : w &&& 0xFFFFFFF3#32 = 0x00000001#32 ↔ _ := and_rowMask_eq_iff w 1#2
  have decodeRow : w &&& 0xFFFFFFF3#32 = 0x00000002#32 ↔ _ := and_rowMask_eq_iff w 2#2
  simp only [clearRow, encodeRow, decodeRow, ne_eq]
  rcases decode_cases w with ⟨hres, hw⟩ | ⟨hres, hop, hw⟩ | ⟨hres, hop, hw⟩ | ⟨hres, hop, hw⟩ | ⟨hres, hop, hw⟩
  · simp [hw, hres]
  all_goals simp [hw, hres, hop, fieldF, fieldA, eq_comm]

/-- Settles O6: the tables are read off, the equations are those of the ceilings. -/
theorem paddingTablesReachMultipleOfEight : Obligations.PaddingTablesReachMultipleOfEight :=
  ⟨by decide, by decide, fun n => ⟨missingBytes_eq n, padTabM_missingBytes n, symbols_add_padding n,
    congrArg (8 * ·) (groups_eq_ceilDiv_symbols n)⟩⟩

/-- Settles O4: LUT undoes ROM_ALPHA, and ROM_ALPHA reaches every valid code. -/
theorem romAlphaAndLutAreInverse : Obligations.RomAlphaAndLutAreInverse := by
  refine ⟨fun v => ⟨lutValid_romAlpha v, lutValue_romAlpha v⟩, fun c valid => ?_⟩
  obtain ⟨v, rfl⟩ := exists_romAlpha_of_lutValid valid
  rw [lutValue_romAlpha]

end Sys2Proof.Proofs

/-! PROOF. The CMD write: its checks in order, and what each command does (40_commands.md R101 to R110). -/

namespace Sys2Proof

/-! ## The fields of a command word as numbers, and the word of a command (30_encoding.md R80, R81) -/

theorem toNat_fieldRes (w : Word) : (fieldRes w).toNat = w.toNat / 16 := by
  unfold fieldRes
  rw [BitVec.extractLsb'_toNat, Nat.shiftRight_eq_div_pow]
  omega

theorem toNat_fieldOp (w : Word) : (fieldOp w).toNat = w.toNat % 4 := by
  unfold fieldOp
  rw [BitVec.extractLsb'_toNat, Nat.shiftRight_zero]

/-- A word with RES = 0 is the command word of its other fields. -/
theorem commandWord_fields {w : Word} (hres : fieldRes w = 0#28) :
    commandWord (fieldOp w) (fieldF w) (fieldA w) = w := by
  have middle : BitVec.ofBool (fieldA w) ++ BitVec.ofBool (fieldF w) = w.extractLsb' 2 2 := by
    apply BitVec.eq_of_getLsbD_eq
    intro k hk
    rw [BitVec.getLsbD_append]
    interval_cases k <;> simp [fieldA, fieldF]
  calc commandWord (fieldOp w) (fieldF w) (fieldA w)
      = 0#28 ++ (BitVec.ofBool (fieldA w) ++ BitVec.ofBool (fieldF w)) ++ fieldOp w := by
        rw [commandWord, BitVec.append_assoc (x₁ := 0#28)]
        rfl
    _ = fieldRes w ++ w.extractLsb' 2 2 ++ fieldOp w := by rw [middle, hres]
    _ = w := (word_eq_fields w).symm

/-- A word that decodes to a CLEAR is the word of that CLEAR. -/
theorem eq_encode_clear {w : Word} (hres : fieldRes w = 0#28) (hop : fieldOp w = 0#2) :
    w = encode (.clear (fieldF w) (fieldA w)) := by
  rw [encode, ← hop, commandWord_fields hres]

end Sys2Proof

namespace Sys2Proof.Machine

/-! ## What names CMD, IN_LEN and an IBUF entry (20_memory.md R52) -/

theorem regionOf_eq_cmd {a : Addr} (h : regionOf a = .cmd) : a = 0x0001#16 := by
  simpa [h] using regionOf_cases a

theorem regionOf_eq_inLen {a : Addr} (h : regionOf a = .inLen) : a = 0x0003#16 := by
  simpa [h] using regionOf_cases a

theorem regionOf_eq_ibuf {a : Addr} {i : Nat} (h : regionOf a = .ibuf i) : a.toNat = 0x4000 + i ∧ i ≤ 0x3FFF := by
  simpa [h] using regionOf_cases a

/-! ## The outcomes of a command word (40_commands.md R101 to R110) -/

section Outcomes
variable {s : State}

theorem illegalCommand_of_idle (hb : s.status.busy = false) :
    illegalCommand s = completeError .illegalCommand (acceptCommand s) := by
  simp [illegalCommand, hb]

theorem clearCommand_of_idle (hb : s.status.busy = false) :
    clearCommand s = { s with status := ⟨false, false, false, false, .none⟩, outLen := 0 } := by
  simp [clearCommand, acceptCommand, hb]

theorem illegalCommand_of_busy (hb : s.status.busy = true) : illegalCommand s = dropWrite s := by
  simp [illegalCommand, hb]

theorem clearCommand_of_busy (hb : s.status.busy = true) : clearCommand s = dropWrite s := by
  simp [clearCommand, hb]

theorem issueData_of_busy (op : BitVec 2) (f a : Bool) (hb : s.status.busy = true) :
    issueData op f a s = dropWrite s := by
  simp [issueData, hb]

/-- The checks of an accepted ENCODE or DECODE in their order. -/
theorem issueData_of_idle (op : BitVec 2) (f a : Bool) (hb : s.status.busy = false) :
    issueData op f a s =
      if a then completeError .invalidArgument (acceptCommand s)
      else if s.inLen.toNat > s.depth.val then completeError .capacity (acceptCommand s)
      else startCommand op f (acceptCommand s) := by
  simp [issueData, overCapacity, hb]

/-- An error that ends a CMD write leaves all but STATUS, OUT_LEN and SEQ. -/
theorem completeError_acceptCommand (c : Cause) (s : State) :
    completeError c (acceptCommand s) =
      { s with status := ⟨false, true, true, s.status.ovr, c⟩, outLen := 0, seq := .idle } := rfl

/-- A command that starts leaves all but STATUS, OUT_LEN, SEQ and its latches. -/
theorem startCommand_acceptCommand (op : BitVec 2) (f : Bool) (s : State) :
    startCommand op f (acceptCommand s) =
      { s with
        status := ⟨true, false, false, s.status.ovr, .none⟩
        outLen := 0
        opc := op
        flag := f
        n := BitVec.ofNat 15 s.inLen.toNat
        seq := if op = 0b01#2 then .eInit else .dInit } := rfl

/-- The STATUS word after an error with OVR = 0: ERR and DONE, and the code of CAUSE above OVR. -/
theorem statusWord_completeError_acceptCommand (c : Cause) (ovr : s.status.ovr = false) :
    statusWord (completeError c (acceptCommand s)).status = BitVec.ofNat 32 (16 * (causeCode c).toNat + 0x6) := by
  simp only [completeError_status, acceptCommand_status, ovr]
  cases c <;> decide

theorem statusWord_cleared : statusWord ⟨false, false, false, false, .none⟩ = 0#32 := by decide

end Outcomes

/-! ## The CMD write (40_commands.md R100, R101) -/

theorem exec_clear (f a : Bool) (s : State) : exec (.clear f a) s = .next (clearCommand s) := rfl
theorem exec_encode (f a : Bool) (s : State) : exec (.encode f a) s = .next (issueData 0b01#2 f a s) := rfl
theorem exec_decode (f a : Bool) (s : State) : exec (.decode f a) s = .next (issueData 0b10#2 f a s) := rfl

theorem cmdWrite_of_command {w : Word} {i : Instr} (s : State) (h : decode w = .ok i) : cmdWrite w s = exec i s := by
  simp [cmdWrite, h]

theorem cmdWrite_of_reserved {w : Word} {r : Reserved} (s : State) (h : decode w = .error r) :
    cmdWrite w s = .next (illegalCommand s) := by
  simp [cmdWrite, h]

theorem exec_of_busy (i : Instr) {s : State} (hb : s.status.busy = true) : exec i s = .next (dropWrite s) := by
  cases i with
  | clear f a => rw [exec_clear, clearCommand_of_busy hb]
  | encode f a => rw [exec_encode, issueData_of_busy _ f a hb]
  | decode f a => rw [exec_decode, issueData_of_busy _ f a hb]

/-- A CMD write of any word is dropped while a command runs. -/
theorem cmdWrite_of_busy (w : Word) {s : State} (hb : s.status.busy = true) :
    cmdWrite w s = .next (dropWrite s) := by
  cases h : decode w with
  | ok i => rw [cmdWrite_of_command s h, exec_of_busy i hb]
  | error r => rw [cmdWrite_of_reserved s h, illegalCommand_of_busy hb]

/-- The whole CMD write of an idle chip: the checks of R101 in their order. -/
theorem cmdWrite_of_idle (w : Word) {s : State} (hb : s.status.busy = false) :
    cmdWrite w s = .next
      (if w.toNat / 16 ≠ 0 ∨ w.toNat % 4 = 3 then completeError .illegalCommand (acceptCommand s)
       else if w.toNat % 4 = 0 then clearCommand s
       else issueData (BitVec.ofNat 2 (w.toNat % 4)) (fieldF w) (fieldA w) s) := by
  rw [← toNat_fieldRes, ← toNat_fieldOp, BitVec.ofNat_toNat, BitVec.setWidth_eq]
  rcases decode_cases w with ⟨hres, hw⟩ | ⟨hres, hop, hw⟩ | ⟨hres, hop, hw⟩ | ⟨hres, hop, hw⟩ | ⟨hres, hop, hw⟩
  · have : (fieldRes w).toNat ≠ 0 := fun h => hres (BitVec.eq_of_toNat_eq h)
    rw [cmdWrite_of_reserved s hw, illegalCommand_of_idle hb, if_pos (.inl this)]
  on_goal 4 => rw [cmdWrite_of_reserved s hw, illegalCommand_of_idle hb, hop, if_pos (.inr rfl)]
  all_goals
    rw [cmdWrite_of_command s hw, hres, hop]
    rfl

/-! ## The host step (20_memory.md R51, 30_encoding.md R94) -/

/-- A host step is the next access of the program; WAIT reads STATUS, and stays next while BUSY = 1. -/
theorem hostStep_cases (s : State) :
    (s.program = [] ∧ hostStep s = .next s) ∨
    (∃ a w rest, s.program = .wr a w :: rest ∧ hostStep s = hostWrite a w { s with program := rest }) ∨
    (∃ a rest, s.program = .rd a :: rest ∧ hostStep s = .next (hostRead a { s with program := rest })) ∨
    (∃ rest, s.program = .wait :: rest ∧
      hostStep s = .next (hostRead statusAddr (if s.status.busy then s else { s with program := rest }))) := by
  have busyBit : (readValue statusAddr s).getLsbD 0 = s.status.busy := getLsbD_statusWord s.status 0
  unfold hostStep
  rw [busyBit]
  split
  · exact .inl ⟨‹_›, rfl⟩
  · exact .inr (.inl ⟨_, _, _, ‹_›, rfl⟩)
  · exact .inr (.inr (.inl ⟨_, _, ‹_›, rfl⟩))
  · refine .inr (.inr (.inr ⟨_, ‹_›, ?_⟩))
    split <;> rfl

/-! ## OVR, once set, stays set (40_commands.md R110) -/

section Overrun
variable {s t : State}

theorem illegalCommand_keeps_ovr (set : s.status.ovr = true) : (illegalCommand s).status.ovr = true := by
  unfold illegalCommand
  split
  · rfl
  · exact set

theorem issueData_keeps_ovr (op : BitVec 2) (f a : Bool) (set : s.status.ovr = true) :
    (issueData op f a s).status.ovr = true := by
  rcases issueData_cases op f a s with ⟨-, h⟩ | ⟨-, -, h⟩ | ⟨-, -, -, h⟩ | ⟨-, -, -, h⟩ <;> rw [h]
  · rfl
  all_goals exact set

theorem writePlain_keeps_ovr (a : Addr) (w : Word) (set : s.status.ovr = true) :
    (writePlain a w s).status.ovr = true := by
  rcases writePlain_cases a w s with h | ⟨-, h⟩ | ⟨-, -, h⟩ | ⟨-, i, -, -, h⟩ <;> rw [h]
  · exact set
  · rfl
  all_goals exact set

/-- The one CMD write that clears OVR is a CLEAR that is not dropped. -/
theorem cmdWrite_clears_ovr {w : Word} (h : cmdWrite w s = .next t) (set : s.status.ovr = true)
    (cleared : t.status.ovr = false) : s.status.busy = false ∧ ∃ f a, w = encode (.clear f a) := by
  rcases decode_cases w with ⟨-, hw⟩ | ⟨hres, hop, -⟩ | ⟨-, -, hw⟩ | ⟨-, -, hw⟩ | ⟨-, -, hw⟩
  · rw [cmdWrite_of_reserved s hw] at h
    cases h
    simp [illegalCommand_keeps_ovr set] at cleared
  · refine ⟨?_, _, _, eq_encode_clear hres hop⟩
    by_contra busy
    rw [cmdWrite_of_busy w (by simpa using busy)] at h
    cases h
    simp at cleared
  · rw [cmdWrite_of_command s hw, exec_encode] at h
    cases h
    simp [issueData_keeps_ovr _ _ _ set] at cleared
  · rw [cmdWrite_of_command s hw, exec_decode] at h
    cases h
    simp [issueData_keeps_ovr _ _ _ set] at cleared
  · rw [cmdWrite_of_reserved s hw] at h
    cases h
    simp [illegalCommand_keeps_ovr set] at cleared

theorem hostStep_clears_ovr (h : hostStep s = .next t) (set : s.status.ovr = true) (cleared : t.status.ovr = false) :
    s.status.busy = false ∧ ∃ f a rest, s.program = .wr 0x0001#16 (encode (.clear f a)) :: rest := by
  rcases hostStep_cases s with ⟨-, hs⟩ | ⟨a, w, rest, hp, hs⟩ | ⟨a, rest, -, hs⟩ | ⟨rest, -, hs⟩ <;> rw [hs] at h
  · cases h
    simp [set] at cleared
  · rcases hostWrite_cases a w { s with program := rest } with ⟨region, hw⟩ | ⟨-, hw⟩ <;> rw [hw] at h
    · obtain ⟨idle, f, c, rfl⟩ := cmdWrite_clears_ovr h set cleared
      exact ⟨idle, f, c, rest, regionOf_eq_cmd region ▸ hp⟩
    · cases h
      simp [writePlain_keeps_ovr, set] at cleared
  · cases h
    simp [set] at cleared
  · cases h
    rw [hostRead_status] at cleared
    split at cleared <;> simp [set] at cleared

/-- No micro-step writes OVR. -/
theorem engineStep_keeps_ovr (h : engineStep s = .next t) : t.status.ovr = s.status.ovr := by
  cases phase : s.seq with
  | idle => rw [engineStep_idle phase] at h; cases h; rfl
  | eInit => rw [engineStep_eInit phase] at h; cases h; rfl
  | eAppend => rcases stepEAppend_next (engineStep_eAppend phase ▸ h) with ⟨-, -, _, -, rfl⟩ | ⟨-, rfl⟩ <;> rfl
  | eExtract => rcases stepEExtract_next (engineStep_eExtract phase ▸ h) with ⟨-, -, rfl⟩ | ⟨-, rfl⟩ <;> rfl
  | eFlush => rcases stepEFlush_next (engineStep_eFlush phase ▸ h) with ⟨-, -, rfl⟩ | ⟨-, rfl⟩ <;> rfl
  | ePadInit => rw [engineStep_ePadInit phase] at h; cases h; rfl
  | ePad => rcases stepEPad_next (engineStep_ePad phase ▸ h) with ⟨-, -, rfl⟩ | ⟨-, rfl⟩ <;> rfl
  | dInit => rcases stepDInit_next (engineStep_dInit phase ▸ h) with ⟨-, rfl⟩ | ⟨-, rfl⟩ <;> rfl
  | dScan =>
    rcases stepDScan_next (engineStep_dScan phase ▸ h) with ⟨-, -, rfl⟩ | ⟨-, -, rfl⟩ | ⟨-, rfl⟩ <;> rfl
  | dAccount =>
    obtain ⟨_, rfl, ⟨-, rfl⟩ | ⟨-, -, rfl⟩ | ⟨-, -, rfl⟩⟩ := stepDAccount_next (engineStep_dAccount phase ▸ h)
    all_goals rfl
  | dTail =>
    obtain ⟨_, -, ⟨-, rfl⟩ | ⟨-, -, rfl⟩ | ⟨-, -, rfl⟩⟩ := stepDTail_next (engineStep_dTail phase ▸ h) <;> rfl
  | dPadChk => rcases stepDPadChk_next (engineStep_dPadChk phase ▸ h) with ⟨-, -, rfl⟩ | ⟨-, rfl⟩ <;> rfl
  | dLoopInit => rw [engineStep_dLoopInit phase] at h; cases h; rfl
  | dLoad =>
    rcases stepDLoad_next (engineStep_dLoad phase ▸ h) with ⟨-, rfl⟩ | ⟨-, _, -, ⟨-, rfl⟩ | ⟨-, rfl⟩⟩ <;> rfl
  | dExtract =>
    obtain ⟨-, _, rfl, ⟨-, rfl⟩ | ⟨-, rfl⟩⟩ := stepDExtract_next (engineStep_dExtract phase ▸ h) <;> rfl
  | unused => rw [engineStep_unused phase] at h; cases h; rfl

end Overrun

/-! ## When the engine has an enabled step (40_commands.md R111) -/

theorem engineEnabled_of_phase {q : Seq} (idle : q ≠ .idle) (unused : q ≠ .unused) : engineEnabled q = true := by
  cases q <;> simp_all [engineEnabled]

end Sys2Proof.Machine

namespace Sys2Proof.Proofs

open Sys2Proof Sys2Proof.Machine

/-- Settles O11: the chain of checks of an idle chip, with CLEAR, ENCODE and DECODE opened to their own. -/
theorem cmdWriteRunsChecksInOrder : Obligations.CmdWriteRunsChecksInOrder := by
  intro w s idle
  rw [cmdWrite_of_idle w idle, clearCommand_of_idle idle, issueData_of_idle _ _ _ idle, fieldF, fieldA]
  simp [acceptCommand, idle]

/-- Settles O12: the first check of the chain applies. -/
theorem reservedWordIsIllegalCommand : Obligations.ReservedWordIsIllegalCommand := by
  intro w s idle reserved
  exact ⟨_, by rw [cmdWrite_of_idle w idle, if_pos reserved], completeError_acceptCommand _ s,
    statusWord_completeError_acceptCommand _⟩

/-- Settles O13, by the two cases of BUSY. -/
theorem clearClearsStatus : Obligations.ClearClearsStatus := by
  refine fun f a s => ⟨fun idle => ?_, exec_of_busy _⟩
  rw [exec_clear, clearCommand_of_idle idle]
  exact ⟨_, rfl, rfl, statusWord_cleared⟩

/-- Settles O14: both checks pass, and IN_LEN fits the 15 bits of N because IBUF_DEPTH does. -/
theorem encodeAndDecodeStart : Obligations.EncodeAndDecodeStart := by
  refine ⟨fun s inv busy => ?_, fun f s idle fits => ?_⟩
  · obtain ⟨running, used, -⟩ := inv.status
    exact engineEnabled_of_phase (running.mp busy) used
  · have starts (op : BitVec 2) : issueData op f false s = startCommand op f (acceptCommand s) := by
      rw [issueData_of_idle _ _ _ idle, if_neg (by simp), if_neg (Nat.not_lt.mpr fits)]
    have latched : (BitVec.ofNat 15 s.inLen.toNat).toNat = s.inLen.toNat :=
      toNat_ofNat_of_lt (fits.trans_lt (s.depth.2.2.trans_lt (by norm_num)))
    rw [exec_encode, exec_decode, starts, starts]
    exact ⟨⟨_, rfl, latched, startCommand_acceptCommand _ f s, rfl⟩,
      ⟨_, rfl, latched, startCommand_acceptCommand _ f s, rfl⟩⟩

/-- Settles O15: the check of A comes before the one of IN_LEN. -/
theorem absentArgumentIsRefused : Obligations.AbsentArgumentIsRefused := by
  intro f s idle
  have refused (op : BitVec 2) : issueData op f true s = completeError .invalidArgument (acceptCommand s) := by
    rw [issueData_of_idle _ _ _ idle, if_pos rfl]
  exact ⟨_, by rw [exec_encode, refused], by rw [exec_decode, refused], completeError_acceptCommand _ s,
    statusWord_completeError_acceptCommand _⟩

/-- Settles O16: with A = 0 the check of IN_LEN is the one that applies. -/
theorem overlongInputIsRefused : Obligations.OverlongInputIsRefused := by
  intro f s idle overlong
  have refused (op : BitVec 2) : issueData op f false s = completeError .capacity (acceptCommand s) := by
    rw [issueData_of_idle _ _ _ idle, if_neg (by simp), if_pos overlong]
  exact ⟨_, by rw [exec_encode, refused], by rw [exec_decode, refused], completeError_acceptCommand _ s,
    statusWord_completeError_acceptCommand _⟩

/-- Settles O18: a write while busy by the region its address names; OVR falls at no engine step, and at a host step
only by a CLEAR that is not dropped. -/
theorem busyWritesAreDropped : Obligations.BusyWritesAreDropped := by
  refine ⟨fun a w s busy => ⟨?_, fun elsewhere => ?_⟩, fun s t h set cleared => ?_⟩
  · rintro (rfl | rfl | ⟨low, high, inside⟩)
    · rw [hostWrite_of_cmd w regionOf_0x0001, cmdWrite_of_busy w busy]
      rfl
    · exact hostWrite_inLen_of_busy w regionOf_0x0003 busy
    · have region : regionOf a = .ibuf (a.toNat - 0x4000) := regionOf_ibuf (by omega) (by omega)
      rw [hostWrite_of_ibuf w s region, if_pos inside, if_pos busy]
      rfl
  · obtain ⟨notCmd, notInLen, notEntry⟩ : a ≠ 0x0001#16 ∧ a ≠ 0x0003#16 ∧ _ := by simpa only [not_or] using elsewhere
    by_cases window : ∃ i, regionOf a = .ibuf i
    · obtain ⟨i, region⟩ := window
      have := regionOf_eq_ibuf region
      rw [hostWrite_of_ibuf w s region, if_neg (by omega)]
    · exact hostWrite_of_readOnly w (mt regionOf_eq_cmd notCmd) (mt regionOf_eq_inLen notInLen) (not_exists.mp window)
  · rcases step_cases s with ⟨turn, ts, hts, hs⟩ | ⟨-, -, hs⟩ | ⟨-, -, hs⟩ <;> rw [hs] at h
    · cases turn with
      | host => exact .inr (hostStep_clears_ovr (s := { s with turns := ts }) h set cleared)
      | engine => exact absurd (engineStep_keeps_ovr (s := { s with turns := ts }) h) (by simp [set, cleared])
      | reset => exact .inl ⟨ts, hts⟩
    · exact absurd (engineStep_keeps_ovr h) (by simp [set, cleared])
    · exact .inr (hostStep_clears_ovr h set cleared)

end Sys2Proof.Proofs

/-! PROOF. The encoder pipeline's micro-steps (41_encoder.md R130 to R140). -/

namespace Sys2Proof.Machine

/-! ## The remaining bits, filled with zeros below (41_encoder.md R133) -/

/-- `c` bits, filled up to `k` with zeros below, are a value of `k` bits. -/
theorem zeroFilled_lt {a k c : Nat} (h : a < 2 ^ c) (hc : c ≤ k) : a * 2 ^ (k - c) < 2 ^ k := by
  calc a * 2 ^ (k - c)
      < 2 ^ c * 2 ^ (k - c) := Nat.mul_lt_mul_of_pos_right h (by positivity)
    _ = 2 ^ k := by rw [← Nat.pow_add, Nat.add_sub_cancel' hc]

theorem slice_zeroFilled {a c : Nat} (h : a < 2 ^ c) (hc : c ≤ 5) :
    slice (a <<< (5 - c)) 4 0 = a * 2 ^ (5 - c) := by
  rw [slice, Nat.shiftRight_zero, Nat.shiftLeft_eq, Nat.mod_eq_of_lt (zeroFilled_lt h hc)]

/-! ## The room in OBUF (00_scope.md R4; 41_encoder.md R137) -/

/-- OBUF holds the output of an ENCODE of an input that fits IBUF. -/
theorem encodedLength_le_obufDepth {n : Nat} {d : IbufDepth} (f : Bool) (fits : n ≤ d.val) :
    encodedLength n f ≤ obufDepth d := by
  unfold encodedLength symbolCount obufDepth ceilDiv
  split <;> omega

/-! ## What the invariant says in the encoder's phases (41_encoder.md R139, R140) -/

section Invariant
variable {s : State} (inv : s.Inv)
include inv

theorem input_fits_of_running (running : s.seq ≠ .idle) : s.n.toNat ≤ s.depth.val :=
  have ⟨busy, _⟩ := inv.status
  inv.length (busy.mpr running)

theorem encoderOk_of_eAppend (phase : s.seq = .eAppend) : s.EncoderOk 4 := by
  have ok := inv.datapath
  rw [State.DatapathOk, phase] at ok
  exact ok.2

theorem encoderOk_of_eExtract (phase : s.seq = .eExtract) : s.EncoderOk 12 := by
  have ok := inv.datapath
  rw [State.DatapathOk, phase] at ok
  exact ok.2

theorem encoderOk_of_eFlush (phase : s.seq = .eFlush) : s.EncoderOk 4 ∧ s.i = s.n := by
  have ok := inv.datapath
  rw [State.DatapathOk, phase] at ok
  exact ok.2

theorem output_add_padding_of_ePad (phase : s.seq = .ePad) :
    s.o.toNat + s.padCnt.toNat = encodedLength s.n.toNat s.flag := by
  have ok := inv.datapath
  rw [State.DatapathOk, phase] at ok
  obtain ⟨-, total, -⟩ := ok
  exact total

end Invariant

/-- While bits of the input are left to give out, O is inside OBUF. -/
theorem output_inside_of_bits {s : State} {cntMax : Nat} (ok : s.EncoderOk cntMax) (fits : s.n.toNat ≤ s.depth.val)
    (left : 0 < s.eCnt.toNat) : s.o.toNat < obufDepth s.depth := by
  obtain ⟨-, -, taken, bits, -⟩ := ok
  have symbols : symbolCount s.n.toNat ≤ obufDepth s.depth := encodedLength_le_obufDepth false fits
  have : s.o.toNat < symbolCount s.n.toNat := by
    unfold symbolCount ceilDiv
    omega
  exact this.trans_le symbols

/-- The index after an entry of OBUF fits the 15 bits of O (10_state.md R34). -/
theorem toNat_next_output {o : Nat} {d : IbufDepth} (inside : o < obufDepth d) :
    (BitVec.ofNat 15 (o + 1)).toNat = o + 1 :=
  toNat_ofNat_of_lt ((Nat.succ_le_of_lt inside).trans_lt (obufDepth_lt d))

/-! ## The micro-steps as they go on -/

section MicroSteps
variable {s : State}

/-- E_APPEND while input is left (41_encoder.md R131). -/
theorem stepEAppend_of_read {b : Byte} (more : s.i.toNat < s.n.toNat) (inside : s.i.toNat < s.depth.val)
    (read : s.ibuf.read s.i.toNat = some b) :
    stepEAppend s = .next { s with
      eAcc := BitVec.ofNat 13 (256 * s.eAcc.toNat + b.toNat)
      eCnt := BitVec.ofNat 4 (s.eCnt.toNat + 8)
      i := BitVec.ofNat 15 (s.i.toNat + 1)
      seq := .eExtract } := by
  have appended : (s.eAcc.toNat <<< 8) ||| b.toNat = 256 * s.eAcc.toNat + b.toNat := by
    rw [shiftLeft_or _ b.isLt]
    omega
  rw [stepEAppend, if_pos more, withIbuf_of_read _ inside read, appended]

/-- E_APPEND once the input is done (41_encoder.md R131). -/
theorem stepEAppend_of_done (done : s.n.toNat ≤ s.i.toNat) : stepEAppend s = .next { s with seq := .eFlush } := by
  rw [stepEAppend, if_neg (Nat.not_lt.mpr done)]

/-- E_EXTRACT while at least five bits remain (41_encoder.md R132). -/
theorem stepEExtract_of_five (five : 5 ≤ s.eCnt.toNat) (held : s.eAcc.toNat < 2 ^ s.eCnt.toNat)
    (inside : s.o.toNat < obufDepth s.depth) :
    stepEExtract s = .next { s with
      obuf := s.obuf.write s.o.toNat (romAlpha (BitVec.ofNat 5 (s.eAcc.toNat / 2 ^ (s.eCnt.toNat - 5))))
      o := BitVec.ofNat 15 (s.o.toNat + 1)
      eCnt := BitVec.ofNat 4 (s.eCnt.toNat - 5)
      eAcc := BitVec.ofNat 13 (s.eAcc.toNat % 2 ^ (s.eCnt.toNat - 5))
      seq := .eExtract } := by
  rw [stepEExtract, if_pos five, withObuf_of_lt _ _ inside, slice_oldest held five (by omega), and_mask]

/-- E_EXTRACT when fewer than five bits remain (41_encoder.md R132). -/
theorem stepEExtract_of_few (few : s.eCnt.toNat < 5) : stepEExtract s = .next { s with seq := .eAppend } := by
  rw [stepEExtract, if_neg (Nat.not_le.mpr few)]

/-- E_FLUSH when bits remain (41_encoder.md R133). -/
theorem stepEFlush_of_bits (left : 0 < s.eCnt.toNat) (few : s.eCnt.toNat ≤ 5) (held : s.eAcc.toNat < 2 ^ s.eCnt.toNat)
    (inside : s.o.toNat < obufDepth s.depth) :
    stepEFlush s = .next { s with
      obuf := s.obuf.write s.o.toNat (romAlpha (BitVec.ofNat 5 (s.eAcc.toNat * 2 ^ (5 - s.eCnt.toNat))))
      o := BitVec.ofNat 15 (s.o.toNat + 1)
      eCnt := 0
      eAcc := 0
      seq := .ePadInit } := by
  rw [stepEFlush, if_pos left, withObuf_of_lt _ _ inside, slice_zeroFilled held few]

/-- E_FLUSH when no bits remain (41_encoder.md R133). -/
theorem stepEFlush_of_empty (empty : s.eCnt.toNat = 0) : stepEFlush s = .next { s with seq := .ePadInit } := by
  rw [stepEFlush, if_neg (by omega)]

/-- E_PAD while padding is left (41_encoder.md R135). -/
theorem stepEPad_of_left (left : 0 < s.padCnt.toNat) (inside : s.o.toNat < obufDepth s.depth) :
    stepEPad s = .next { s with
      obuf := s.obuf.write s.o.toNat padCode
      o := BitVec.ofNat 15 (s.o.toNat + 1)
      padCnt := BitVec.ofNat 3 (s.padCnt.toNat - 1)
      seq := .ePad } := by
  rw [stepEPad, if_pos left, withObuf_of_lt _ _ inside]

/-- E_PAD once no padding is left: the completing step (41_encoder.md R135). -/
theorem stepEPad_of_done (done : s.padCnt.toNat = 0) : stepEPad s = .next (completeOk s.o.toNat s) := by
  rw [stepEPad, if_neg (by omega)]

end MicroSteps

/-- PADTAB_R as a list of numbers (30_encoding.md R87). -/
theorem toNat_padTabR (n : Nat) : (padTabR (n % 5)).toNat = [0, 6, 4, 3, 1].getD (n % 5) 0 := by
  rcases padTabR_cases n with ⟨hr, hp⟩ | ⟨hr, hp⟩ | ⟨hr, hp⟩ | ⟨hr, hp⟩ | ⟨hr, hp⟩ <;> rw [hp, hr] <;> rfl

end Sys2Proof.Machine

namespace Sys2Proof.Proofs

open Sys2Proof Sys2Proof.Machine

/-- Settles O32: at most four bits wait in E_ACC, so a byte below them fits its 13 bits. -/
theorem appendTakesOneByte : Obligations.AppendTakesOneByte := by
  intro s inv phase
  obtain ⟨few, held, -, -, -⟩ := encoderOk_of_eAppend inv phase
  have fits : s.n.toNat ≤ s.depth.val := input_fits_of_running inv (by simp [phase])
  rw [engineStep_eAppend phase]
  refine ⟨few, fun b more read => ?_, stepEAppend_of_done⟩
  have acc : s.eAcc.toNat < 2 ^ 4 := held.trans_le (Nat.pow_le_pow_right (by norm_num) few)
  have index := s.n.isLt
  refine ⟨_, stepEAppend_of_read more (more.trans_le fits) read, rfl, ?_, ?_, ?_⟩
  all_goals exact toNat_ofNat_of_lt (by omega)

/-- Settles O33: the five oldest bits are a quotient, the others its remainder. -/
theorem extractEmitsOldestFiveBits : Obligations.ExtractEmitsOldestFiveBits := by
  intro s inv phase
  have ok := encoderOk_of_eExtract inv phase
  have ⟨_, held, _⟩ := ok
  rw [engineStep_eExtract phase]
  refine ⟨fun five => ?_, stepEExtract_of_few⟩
  have inside : s.o.toNat < obufDepth s.depth :=
    output_inside_of_bits ok (input_fits_of_running inv (by simp [phase])) (by omega)
  refine ⟨_, stepEExtract_of_five five held inside, by simp only [← phase], Memory.read_write _ _ _,
    oldest_lt held five, toNat_next_output inside, ?_, ?_⟩
  · exact toNat_ofNat_of_lt ((Nat.sub_le _ _).trans_lt s.eCnt.isLt)
  · exact toNat_ofNat_of_lt ((Nat.mod_le _ _).trans_lt s.eAcc.isLt)

/-- Settles O34: of the 8*N bits taken all but a multiple of five are left, and those are fewer than five. -/
theorem flushEmitsZeroFilledSymbol : Obligations.FlushEmitsZeroFilledSymbol := by
  intro s inv phase
  obtain ⟨ok, all⟩ := encoderOk_of_eFlush inv phase
  have ⟨few, held, _, bits, _⟩ := ok
  rw [all] at bits
  rw [engineStep_eFlush phase]
  refine ⟨by omega, fun left => ?_, stepEFlush_of_empty⟩
  have inside : s.o.toNat < obufDepth s.depth :=
    output_inside_of_bits ok (input_fits_of_running inv (by simp [phase])) left
  exact ⟨_, stepEFlush_of_bits left (by omega) held inside, rfl, Memory.read_write _ _ _,
    zeroFilled_lt held (by omega), toNat_next_output inside⟩

/-- Settles O35: the whole output, padding and all, fits OBUF, so each `=` has its entry. -/
theorem paddingGeneratorEmitsPadding : Obligations.PaddingGeneratorEmitsPadding := by
  refine ⟨fun s phase => ?_, fun s inv phase => ?_⟩
  · rw [engineStep_ePadInit phase]
    refine ⟨_, rfl, rfl, ?_⟩
    show (if s.flag then padTabR (s.n.toNat % 5) else 0).toNat = _
    rw [apply_ite BitVec.toNat, toNat_padTabR]
    rfl
  · rw [engineStep_ePad phase]
    refine ⟨fun left => ?_, fun done => ⟨_, stepEPad_of_done done, ?_, rfl⟩⟩
    · have total := output_add_padding_of_ePad inv phase
      have holds := encodedLength_le_obufDepth s.flag (input_fits_of_running inv (by simp [phase]))
      have inside : s.o.toNat < obufDepth s.depth := by omega
      refine ⟨_, stepEPad_of_left left inside, by simp only [← phase], Memory.read_write _ _ _,
        toNat_next_output inside, ?_⟩
      exact toNat_ofNat_of_lt ((Nat.sub_le _ _).trans_lt s.padCnt.isLt)
    · exact toNat_ofNat_of_lt s.o.isLt

/-- Settles O31: E_INIT has one branch. -/
theorem encoderInitClearsDatapath : Obligations.EncoderInitClearsDatapath :=
  fun _ phase => engineStep_eInit phase

end Sys2Proof.Proofs

/-! PROOF. The decoder pipeline's micro-steps (42_decoder.md R160 to R173). -/

namespace Sys2Proof.Machine

/-! ## What the invariant says in the decoder's phases (42_decoder.md R163, R179, R180) -/

section Invariant
variable {s : State} (inv : s.Inv)
include inv

theorem content_le_depth_of_dScan (phase : s.seq = .dScan) : s.p.toNat ≤ s.depth.val := by
  have ok := inv.datapath
  rw [State.DatapathOk, phase] at ok
  obtain ⟨-, -, stripped⟩ := ok
  exact stripped.trans (input_fits_of_running inv (by simp [phase]))

theorem content_le_depth_of_dAccount (phase : s.seq = .dAccount) : s.p.toNat ≤ s.depth.val := by
  have ok := inv.datapath
  rw [State.DatapathOk, phase] at ok
  exact ok.2.trans (input_fits_of_running inv (by simp [phase]))

theorem accountOk_of_phase (phase : s.seq = .dTail ∨ s.seq = .dPadChk ∨ s.seq = .dLoopInit) : s.AccountOk := by
  have ok := inv.datapath
  rcases phase with phase | phase | phase
  all_goals
    rw [State.DatapathOk, phase] at ok
    exact ok.2

theorem decoderOk_of_dLoad (phase : s.seq = .dLoad) : s.DecoderOk := by
  have ok := inv.datapath
  rw [State.DatapathOk, phase] at ok
  exact ok.2

theorem decoderOk_of_dExtract (phase : s.seq = .dExtract) : s.DecoderOk ∧ 8 ≤ s.dCnt.toNat := by
  have ok := inv.datapath
  rw [State.DatapathOk, phase] at ok
  exact ok.2

end Invariant

/-- While fewer than 8 bits are held and output is due, content is left to load (42_decoder.md R180). -/
theorem content_left_of_few {s : State} (ok : s.DecoderOk) (few : s.dCnt.toNat < 8) : s.i.toNat < s.p.toNat := by
  obtain ⟨⟨-, lengths, -, -⟩, -, -, -, due, bits, -⟩ := ok
  omega

/-- The decoder's next output entry is inside OBUF, which holds more than IBUF (00_scope.md R4). -/
theorem output_inside_of_decoderOk {s : State} (ok : s.DecoderOk) (fits : s.n.toNat ≤ s.depth.val) :
    s.o.toNat < obufDepth s.depth := by
  obtain ⟨⟨content, lengths, -, -⟩, -, -, -, due, -, -⟩ := ok
  unfold obufDepth ceilDiv
  omega

/-! ## The bit accounting of D_ACCOUNT (42_decoder.md R162) -/

/-- The state with OL and TL set by P. -/
def State.accounted (s : State) : State :=
  { s with ol := BitVec.ofNat 14 (5 * s.p.toNat / 8), tl := BitVec.ofNat 3 (5 * s.p.toNat % 8) }

/-- OL fits its 14 bits, as P is at most IBUF_DEPTH. -/
theorem toNat_ol_accounted {s : State} (fits : s.p.toNat ≤ s.depth.val) :
    s.accounted.ol.toNat = 5 * s.p.toNat / 8 := by
  have := s.depth.2
  exact toNat_ofNat_of_lt (by omega)

theorem toNat_tl_accounted (s : State) : s.accounted.tl.toNat = 5 * s.p.toNat % 8 :=
  toNat_ofNat_of_lt (Nat.mod_lt _ (by norm_num))

/-- Five or more bits are left over, a whole symbol, exactly at these content lengths (42_decoder.md R162). -/
theorem five_le_tailBits_iff (p : Nat) : 5 ≤ 5 * p % 8 ↔ p % 8 = 1 ∨ p % 8 = 3 ∨ p % 8 = 6 := by
  have residue : p % 8 < 8 := Nat.mod_lt _ (by norm_num)
  rw [Nat.mul_mod]
  generalize p % 8 = r at residue
  interval_cases r <;> decide

/-! ## The length of the padding run (42_decoder.md R166, R167) -/

/-- The five residues a content length can have after D_ACCOUNT, each with the leftover bytes of OL, its missing bytes
and the padding expected. -/
theorem padding_by_content_length {p ol tl : Nat} (lengths : 5 * p = 8 * ol + tl) (tail : tl ≤ 4) :
    (p % 8, ol % 5, missingBytes ol, (padTabM (missingBytes ol)).toNat) ∈
      [(0, 0, 0, 0), (2, 1, 4, 6), (4, 2, 3, 4), (5, 3, 2, 3), (7, 4, 1, 1)] := by
  have residues : (p % 8 = 0 ∧ ol % 5 = 0) ∨ (p % 8 = 2 ∧ ol % 5 = 1) ∨ (p % 8 = 4 ∧ ol % 5 = 2) ∨
      (p % 8 = 5 ∧ ol % 5 = 3) ∨ (p % 8 = 7 ∧ ol % 5 = 4) := by
    interval_cases tl <;> omega
  rw [missingBytes_eq]
  rcases residues with ⟨hp, ho⟩ | ⟨hp, ho⟩ | ⟨hp, ho⟩ | ⟨hp, ho⟩ | ⟨hp, ho⟩ <;> rw [hp, ho] <;> decide

/-- The padding expected fills the content up to the next multiple of 8 (42_decoder.md R167). -/
theorem content_add_padding {p ol tl : Nat} (lengths : 5 * p = 8 * ol + tl) (tail : tl ≤ 4) :
    p + (padTabM (missingBytes ol)).toNat = 8 * ceilDiv p 8 := by
  have row := padding_by_content_length lengths tail
  simp only [List.mem_cons, Prod.mk.injEq, List.not_mem_nil, or_false] at row
  unfold ceilDiv
  omega

/-- PADTAB_M as a list of numbers (30_encoding.md R88). -/
theorem getElem?_padTabM (n : Nat) : [0, 1, 3, 4, 6][missingBytes n]? = some (padTabM (missingBytes n)).toNat := by
  have index : missingBytes n < 5 := by rw [missingBytes_eq]; omega
  generalize missingBytes n = m at index
  interval_cases m <;> rfl

/-! ## The micro-steps by their branches -/

section MicroSteps
variable {s : State}

/-- D_INIT of an empty text: the completing step (42_decoder.md R160). -/
theorem stepDInit_of_empty (empty : s.n.toNat = 0) : stepDInit s = .next (completeOk 0 s) := by
  rw [stepDInit, if_pos empty]

/-- D_INIT of a text that is not empty (42_decoder.md R160). -/
theorem stepDInit_of_text (text : s.n.toNat ≠ 0) : stepDInit s = .next { s with p := s.n, seq := .dScan } := by
  rw [stepDInit, if_neg text]

/-- D_SCAN once nothing is left (42_decoder.md R161). -/
theorem stepDScan_of_done (done : s.p.toNat = 0) : stepDScan s = .next { s with seq := .dAccount } := by
  rw [stepDScan, if_neg (by omega)]

/-- D_SCAN while characters are left (42_decoder.md R161). -/
theorem stepDScan_of_read {c : Byte} (left : 0 < s.p.toNat) (inside : s.p.toNat ≤ s.depth.val)
    (read : s.ibuf.read (s.p.toNat - 1) = some c) :
    stepDScan s =
      if c = padCode then .next { s with p := BitVec.ofNat 15 (s.p.toNat - 1), seq := .dScan }
      else .next { s with seq := .dAccount } := by
  rw [stepDScan, if_pos left, withIbuf_of_read _ (by omega) read]

/-- D_ACCOUNT by the two lengths it computes (42_decoder.md R162). -/
theorem stepDAccount_eq :
    stepDAccount s =
      if s.accounted.ol.toNat = 0 then .next (completeError .tooShort s.accounted)
      else if 5 ≤ s.accounted.tl.toNat then .next (completeError .redundantTrailingSymbol s.accounted)
      else .next { s.accounted with seq := .dTail } := rfl

/-- D_TAIL by the last content symbol (42_decoder.md R164). -/
theorem stepDTail_of_read {c : Byte} (inside : s.p.toNat - 1 < s.depth.val)
    (read : s.ibuf.read (s.p.toNat - 1) = some c) :
    stepDTail s =
      if lutValid c = false then .next (completeError .invalidCharacter s)
      else if (lutValue c).toNat % 2 ^ s.tl.toNat ≠ 0 then .next (completeError .nonzeroTailBits s)
      else .next { s with seq := .dPadChk } := by
  rw [stepDTail, withIbuf_of_read _ inside read, and_mask]

/-- D_PADCHK with FLAG = 0 (42_decoder.md R166). -/
theorem stepDPadChk_of_lenient (lenient : s.flag = false) : stepDPadChk s = .next { s with seq := .dLoopInit } := by
  rw [stepDPadChk, if_neg (by simp [lenient])]

/-- D_PADCHK with FLAG = 1 (42_decoder.md R166). -/
theorem stepDPadChk_of_strict (strict : s.flag = true) :
    stepDPadChk s =
      if s.n.toNat - s.p.toNat = (padTabM (missingBytes s.ol.toNat)).toNat then .next { s with seq := .dLoopInit }
      else .next (completeError .invalidPaddingLength s) := by
  simp only [stepDPadChk, strict, true_and, ne_eq, ite_not]

/-- D_LOAD while eight bits are held (42_decoder.md R171). -/
theorem stepDLoad_of_eight (eight : 8 ≤ s.dCnt.toNat) : stepDLoad s = .next { s with seq := .dExtract } := by
  rw [stepDLoad, if_pos eight]

/-- D_LOAD of the next content symbol (42_decoder.md R171). -/
theorem stepDLoad_of_read {c : Byte} (few : s.dCnt.toNat < 8) (inside : s.i.toNat < s.depth.val)
    (read : s.ibuf.read s.i.toNat = some c) :
    stepDLoad s =
      if lutValid c = false then .next (completeError .invalidCharacter s)
      else .next { s with
        dAcc := BitVec.ofNat 12 (32 * s.dAcc.toNat + (lutValue c).toNat)
        dCnt := BitVec.ofNat 4 (s.dCnt.toNat + 5)
        i := BitVec.ofNat 15 (s.i.toNat + 1)
        seq := .dLoad } := by
  have appended : (s.dAcc.toNat <<< 5) ||| (lutValue c).toNat = 32 * s.dAcc.toNat + (lutValue c).toNat := by
    rw [shiftLeft_or _ (lutValue c).isLt]
    omega
  rw [stepDLoad, if_neg (Nat.not_le.mpr few), withIbuf_of_read _ inside read, appended]

/-- The state with the 8 oldest bits held written out, and the others kept (42_decoder.md R172). -/
def State.extracted (s : State) : State :=
  { s with
    obuf := s.obuf.write s.o.toNat (BitVec.ofNat 8 (s.dAcc.toNat / 2 ^ (s.dCnt.toNat - 8)))
    o := BitVec.ofNat 15 (s.o.toNat + 1)
    dCnt := BitVec.ofNat 4 (s.dCnt.toNat - 8)
    dAcc := BitVec.ofNat 12 (s.dAcc.toNat % 2 ^ (s.dCnt.toNat - 8)) }

/-- D_EXTRACT, which completes at the last byte (42_decoder.md R172). -/
theorem stepDExtract_of_eight (eight : 8 ≤ s.dCnt.toNat) (held : s.dAcc.toNat < 2 ^ s.dCnt.toNat)
    (inside : s.o.toNat < obufDepth s.depth) :
    stepDExtract s =
      if s.o.toNat + 1 = s.ol.toNat then .next (completeOk s.ol.toNat s.extracted)
      else .next { s.extracted with seq := .dLoad } := by
  simp only [stepDExtract, withObuf_of_lt _ _ inside, slice_oldest held eight (by omega), and_mask,
    toNat_next_output inside]
  rfl

end MicroSteps

end Sys2Proof.Machine

namespace Sys2Proof.Proofs

open Sys2Proof Sys2Proof.Machine

/-- Settles O36: the last character left is inside IBUF, and D_SCAN goes by whether it is `=`. -/
theorem decoderStripsTrailingPadding : Obligations.DecoderStripsTrailingPadding := by
  refine ⟨fun s phase => ?_, fun s inv phase => ?_⟩
  · rw [engineStep_dInit phase]
    exact ⟨stepDInit_of_empty, stepDInit_of_text⟩
  · rw [engineStep_dScan phase]
    refine ⟨stepDScan_of_done, fun c left read => ?_⟩
    rw [stepDScan_of_read left (content_le_depth_of_dScan inv phase) read]
    refine ⟨fun padding => ⟨_, if_pos padding, by simp only [← phase], ?_⟩, fun content => if_neg content⟩
    exact toNat_ofNat_of_lt ((Nat.sub_le _ _).trans_lt s.p.isLt)

/-- Settles O37: OL is 0 exactly when P is 0 or 1, and five or more bits are left over at the three residues. -/
theorem accountRejectsImpossibleLengths : Obligations.AccountRejectsImpossibleLengths := by
  intro s inv phase
  have ol := toNat_ol_accounted (content_le_depth_of_dAccount inv phase)
  have tl := toNat_tl_accounted s
  rw [engineStep_dAccount phase, stepDAccount_eq, ol, tl]
  refine ⟨s.accounted, rfl, ol, tl, fun short => if_pos (by omega), fun long redundant => ?_, fun long possible => ?_⟩
  · rw [if_neg (by omega), if_pos ((five_le_tailBits_iff _).mpr redundant)]
  · rw [if_neg (by omega), if_neg (mt (five_le_tailBits_iff _).mp possible)]

/-- Settles O38: the last content symbol is inside IBUF, and the mask of D_TAIL keeps a remainder. -/
theorem tailBitsMustBeZero : Obligations.TailBitsMustBeZero := by
  intro s c inv phase read
  obtain ⟨content, lengths, nonempty, -⟩ := accountOk_of_phase inv (.inl phase)
  have fits : s.n.toNat ≤ s.depth.val := input_fits_of_running inv (by simp [phase])
  rw [engineStep_dTail phase, stepDTail_of_read (by omega) read]
  refine ⟨by omega, fun invalid => if_pos invalid, fun valid nonzero => ?_, fun valid zero => ?_⟩
  · rw [if_neg (by simp [valid]), if_pos nonzero]
  · rw [if_neg (by simp [valid]), if_neg (not_not.mpr zero)]

/-- Settles O39: the padding expected fills the content up to the next multiple of 8. -/
theorem strictPaddingFillsGroups : Obligations.StrictPaddingFillsGroups := by
  intro s inv phase
  obtain ⟨content, lengths, -, tail⟩ := accountOk_of_phase inv (.inr (.inl phase))
  rw [engineStep_dPadChk phase]
  refine ⟨_, _, rfl, getElem?_padTabM s.ol.toNat, fun strict differs => ?_, fun strict expected => ?_,
    stepDPadChk_of_lenient, padding_by_content_length lengths tail, ?_⟩
  · rw [stepDPadChk_of_strict strict, if_neg differs]
  · rw [stepDPadChk_of_strict strict, if_pos expected]
  · rw [← content_add_padding lengths tail]
    omega

/-- Settles O40: at most seven bits wait in D_ACC, so a symbol value below them fits its 12 bits. -/
theorem loadAppendsSymbolValue : Obligations.LoadAppendsSymbolValue := by
  refine ⟨fun s phase => engineStep_dLoopInit phase, fun s inv phase => ?_⟩
  have ok := decoderOk_of_dLoad inv phase
  have ⟨⟨content, _⟩, _, held, _⟩ := ok
  have fits : s.n.toNat ≤ s.depth.val := input_fits_of_running inv (by simp [phase])
  rw [engineStep_dLoad phase]
  refine ⟨stepDLoad_of_eight, content_left_of_few ok, fun c few read => ?_⟩
  have left := content_left_of_few ok few
  rw [stepDLoad_of_read few (by omega) read]
  refine ⟨fun invalid => if_pos invalid,
    fun valid => ⟨_, if_neg (by simp [valid]), by simp only [← phase], ?_, ?_, ?_⟩⟩
  · have acc : s.dAcc.toNat < 2 ^ 7 := held.trans_le (Nat.pow_le_pow_right (by norm_num) (by omega))
    have value := (lutValue c).isLt
    exact toNat_ofNat_of_lt (by omega)
  · exact toNat_ofNat_of_lt (by omega)
  · have index := s.p.isLt
    exact toNat_ofNat_of_lt (by omega)

/-- Settles O41: the 8 oldest bits are a quotient, the others its remainder. -/
theorem extractWritesOldestEightBits : Obligations.ExtractWritesOldestEightBits := by
  intro s inv phase
  obtain ⟨ok, eight⟩ := decoderOk_of_dExtract inv phase
  have ⟨_, _, held, _⟩ := ok
  have inside := output_inside_of_decoderOk ok (input_fits_of_running inv (by simp [phase]))
  have written := Memory.read_write s.obuf s.o.toNat (BitVec.ofNat 8 (s.dAcc.toNat / 2 ^ (s.dCnt.toNat - 8)))
  have count : s.extracted.dCnt.toNat = s.dCnt.toNat - 8 :=
    toNat_ofNat_of_lt ((Nat.sub_le _ _).trans_lt s.dCnt.isLt)
  have kept : s.extracted.dAcc.toNat = s.dAcc.toNat % 2 ^ (s.dCnt.toNat - 8) :=
    toNat_ofNat_of_lt ((Nat.mod_le _ _).trans_lt s.dAcc.isLt)
  have length : (BitVec.ofNat 15 s.ol.toNat).toNat = s.ol.toNat :=
    toNat_ofNat_of_lt (s.ol.isLt.trans (by norm_num))
  rw [engineStep_dExtract phase, stepDExtract_of_eight eight held inside]
  by_cases last : s.o.toNat + 1 = s.ol.toNat
  · exact ⟨_, if_pos last, written, oldest_lt held eight, toNat_next_output inside, count, kept,
      fun _ => ⟨length, rfl⟩, fun more => absurd last more⟩
  · exact ⟨_, if_neg last, written, oldest_lt held eight, toNat_next_output inside, count, kept,
      fun done => absurd done last, fun _ => rfl⟩

end Sys2Proof.Proofs

/-! PROOF. How a command ends: complete_ok and complete_error (60_exceptions.md R201, R202). -/

namespace Sys2Proof.Machine

/-- The calls of complete_ok and complete_error by phase. The state `u` they are made on is not always `s`: D_EXTRACT
has written its byte before, D_ACCOUNT has set OL and TL. -/
theorem engineStep_ends {s t : State} (running : s.seq ≠ .idle) (h : engineStep s = .next t) (ended : t.seq = .idle) :
    ((s.seq = .ePad ∨ s.seq = .dInit ∨ s.seq = .dExtract) ∧
      ∃ L u, t = completeOk L u ∧ u.status = s.status) ∨
    ((s.seq = .dAccount ∨ s.seq = .dTail ∨ s.seq = .dPadChk ∨ s.seq = .dLoad) ∧
      ∃ c u, t = completeError c u ∧ c ≠ .none ∧ u.status = s.status ∧ u.inLen = s.inLen ∧ u.ibuf = s.ibuf ∧
        u.obuf = s.obuf) := by
  cases phase : s.seq with
  | idle => exact absurd phase running
  | unused => rw [engineStep_unused phase] at h; cases h; simp [phase] at ended
  | eInit => rw [engineStep_eInit phase] at h; cases h; cases ended
  | ePadInit => rw [engineStep_ePadInit phase] at h; cases h; cases ended
  | dLoopInit => rw [engineStep_dLoopInit phase] at h; cases h; cases ended
  | eAppend =>
    rcases stepEAppend_next (engineStep_eAppend phase ▸ h) with ⟨-, -, _, -, rfl⟩ | ⟨-, rfl⟩ <;> cases ended
  | eExtract => rcases stepEExtract_next (engineStep_eExtract phase ▸ h) with ⟨-, -, rfl⟩ | ⟨-, rfl⟩ <;> cases ended
  | eFlush => rcases stepEFlush_next (engineStep_eFlush phase ▸ h) with ⟨-, -, rfl⟩ | ⟨-, rfl⟩ <;> cases ended
  | dScan =>
    rcases stepDScan_next (engineStep_dScan phase ▸ h) with ⟨-, -, rfl⟩ | ⟨-, -, rfl⟩ | ⟨-, rfl⟩ <;> cases ended
  | ePad =>
    rcases stepEPad_next (engineStep_ePad phase ▸ h) with ⟨-, -, rfl⟩ | ⟨-, rfl⟩
    · cases ended
    · exact .inl ⟨by decide, _, _, rfl, rfl⟩
  | dInit =>
    rcases stepDInit_next (engineStep_dInit phase ▸ h) with ⟨-, rfl⟩ | ⟨-, rfl⟩
    · exact .inl ⟨by decide, _, _, rfl, rfl⟩
    · cases ended
  | dExtract =>
    obtain ⟨-, u, rfl, ⟨-, rfl⟩ | ⟨-, rfl⟩⟩ := stepDExtract_next (engineStep_dExtract phase ▸ h)
    · exact .inl ⟨by decide, _, _, rfl, rfl⟩
    · cases ended
  | dAccount =>
    obtain ⟨u, rfl, ⟨-, rfl⟩ | ⟨-, -, rfl⟩ | ⟨-, -, rfl⟩⟩ := stepDAccount_next (engineStep_dAccount phase ▸ h)
    · exact .inr ⟨by decide, .tooShort, _, rfl, by decide, rfl, rfl, rfl, rfl⟩
    · exact .inr ⟨by decide, .redundantTrailingSymbol, _, rfl, by decide, rfl, rfl, rfl, rfl⟩
    · cases ended
  | dTail =>
    obtain ⟨_, -, ⟨-, rfl⟩ | ⟨-, -, rfl⟩ | ⟨-, -, rfl⟩⟩ := stepDTail_next (engineStep_dTail phase ▸ h)
    · exact .inr ⟨by decide, .invalidCharacter, _, rfl, by decide, rfl, rfl, rfl, rfl⟩
    · exact .inr ⟨by decide, .nonzeroTailBits, _, rfl, by decide, rfl, rfl, rfl, rfl⟩
    · cases ended
  | dPadChk =>
    rcases stepDPadChk_next (engineStep_dPadChk phase ▸ h) with ⟨-, -, rfl⟩ | ⟨-, rfl⟩
    · exact .inr ⟨by decide, .invalidPaddingLength, _, rfl, by decide, rfl, rfl, rfl, rfl⟩
    · cases ended
  | dLoad =>
    rcases stepDLoad_next (engineStep_dLoad phase ▸ h) with ⟨-, rfl⟩ | ⟨-, _, -, ⟨-, rfl⟩ | ⟨-, rfl⟩⟩
    · cases ended
    · exact .inr ⟨by decide, .invalidCharacter, _, rfl, by decide, rfl, rfl, rfl, rfl⟩
    · cases ended

end Sys2Proof.Machine

namespace Sys2Proof.Proofs

open Sys2Proof Sys2Proof.Machine

/-- Settles O19: a length up to OBUF_DEPTH fits OUT_LEN, and an engine step that ends a command does it by complete_ok
or complete_error. -/
theorem completionEndsTheCommand : Obligations.CompletionEndsTheCommand := by
  refine ⟨fun L s fits => ⟨_, rfl, ?_, rfl⟩, fun c s => rfl, fun s t running h ended => ?_⟩
  · exact toNat_ofNat_of_lt (fits.trans_lt (obufDepth_lt s.depth))
  · rcases engineStep_ends running h ended with
      ⟨phase, L, u, rfl, status⟩ | ⟨phase, c, u, rfl, error, status, inLen, ibuf, obuf⟩
    · rw [completeOk_status, status]
      exact .inl ⟨rfl, phase⟩
    · rw [completeError_status, status]
      exact .inr ⟨c, rfl, error, rfl, inLen, ibuf, obuf, phase⟩

end Sys2Proof.Proofs

/-! PROOF. The reset event (70_reset_and_hazards.md R220, R221). -/

namespace Sys2Proof.Machine

/-- A turn left in the schedule decides whose step comes next (20_memory.md R62). -/
theorem step_of_turns_cons {s : State} {t : Turn} {ts : List Turn} (h : s.turns = t :: ts) :
    step s = takeTurn t { s with turns := ts } := by
  rw [step, nextStep, h]

/-- The platform's turn is the reset event, whatever the engine is doing (70_reset_and_hazards.md R220). -/
theorem step_of_reset_turn {s : State} {ts : List Turn} (h : s.turns = .reset :: ts) :
    step s = .next (resetStep { s with turns := ts }) := by
  rw [step_of_turns_cons h, takeTurn]

end Sys2Proof.Machine

namespace Sys2Proof.Proofs

open Sys2Proof Sys2Proof.Machine

/-- Settles O30: the step is the reset event, which takes every field but DEPTH from the reset state; that state's buffers
are empty lists. -/
theorem resetEventSetsResetValues : Obligations.ResetEventSetsResetValues := by
  intro s ts resetTurn
  refine ⟨_, step_of_reset_turn resetTurn, ?_⟩
  simp [State.reset, State.doneO]

end Sys2Proof.Proofs

/-! PROOF. The decoder undoes the encoder (30_encoding.md R80 to R93), the entries of LUT (R85), the canonical final
symbols (42_decoder.md R165), and the codes of the causes (60_exceptions.md R200). -/

namespace Sys2Proof

/-! ## The command word (30_encoding.md R80, R81) -/

theorem decode_encode (i : Instr) : decode (encode i) = .ok i := by
  cases i with
  | clear f a => revert f a; decide
  | encode f a => revert f a; decide
  | decode f a => revert f a; decide

/-- A word that decodes to a command is that command's word. -/
theorem eq_encode_of_decode {w : Word} {i : Instr} (h : decode w = .ok i) : w = encode i := by
  rcases decode_cases w with ⟨-, hw⟩ | ⟨hres, hop, hw⟩ | ⟨hres, hop, hw⟩ | ⟨hres, hop, hw⟩ | ⟨-, -, hw⟩ <;> rw [hw] at h
  · cases h
  on_goal 4 => cases h
  all_goals
    cases h
    rw [encode, ← hop, commandWord_fields hres]

end Sys2Proof

namespace Sys2Proof.Machine

/-! ## LUT outside the alphabet (30_encoding.md R85) -/

theorem lut_of_invalid {c : Byte} (invalid : lutValid c = false) : lut c = 0 := by
  have entry : ∀ k < 32, BitVec.getLsbD (BitVec.ofNat 6 (32 + k)) 5 = true := by decide
  unfold lutValid at invalid
  unfold lut at invalid ⊢
  split at invalid
  · rw [entry _ (by omega)] at invalid
    cases invalid
  · rw [if_neg ‹_›]
    split at invalid
    · rw [entry _ (by omega)] at invalid
      cases invalid
    · rw [if_neg ‹_›]

theorem lutValid_of_above {c : Byte} (above : 0x5A < c.toNat) : lutValid c = false := by
  unfold lutValid lut
  rw [if_neg (by omega), if_neg (by omega)]
  rfl

/-! ## The final symbols that leave `tl` bits 0 (42_decoder.md R165) -/

/-- The codes of the values whose low `tl` bits are 0, in rising order. -/
def canonicalSymbols (tl : Nat) : List Byte :=
  ((List.range 32).filter (· % 2 ^ tl = 0)).map fun v => romAlpha (BitVec.ofNat 5 v)

/-- A character passes D_TAIL exactly when it is the code of such a value. -/
theorem mem_canonicalSymbols {c : Byte} {tl : Nat} :
    (lutValid c = true ∧ (lutValue c).toNat % 2 ^ tl = 0) ↔ c ∈ canonicalSymbols tl := by
  simp only [canonicalSymbols, List.mem_map, List.mem_filter, List.mem_range, decide_eq_true_eq]
  constructor
  · rintro ⟨valid, zero⟩
    obtain ⟨v, rfl⟩ := exists_romAlpha_of_lutValid valid
    rw [lutValue_romAlpha] at zero
    exact ⟨v.toNat, ⟨v.isLt, zero⟩, by simp⟩
  · rintro ⟨k, ⟨small, zero⟩, rfl⟩
    rw [lutValue_romAlpha, toNat_ofNat_of_lt small]
    exact ⟨lutValid_romAlpha _, zero⟩

end Sys2Proof.Machine

namespace Sys2Proof.Proofs

open Sys2Proof Sys2Proof.Machine

/-- Settles O1: the decoder undoes the encoder, and a word is made up of its fields. -/
theorem decodeEncodeAgree : Obligations.DecodeEncodeAgree :=
  fun _ i => ⟨eq_encode_of_decode, fun word => word ▸ decode_encode i⟩

/-- Settles O3: a word of the list decodes to its command because it is that command's word. -/
theorem sampleCommandWordsDecode : Obligations.SampleCommandWordsDecode :=
  ⟨decode_encode (.clear false false), decode_encode (.encode false false), decode_encode (.encode true false),
    decode_encode (.encode true true), decode_encode (.decode false false), decode_encode (.decode true false),
    decode_encode (.decode true true), by decide, by decide, by decide⟩

/-- Settles O5: a valid code is the code of a value, which LUT gives; every other code has the entry 0. -/
theorem lutMapsTheAlphabetOnly : Obligations.LutMapsTheAlphabetOnly := by
  refine ⟨fun c => ?_, by decide, by decide, fun c low _ => lutValid_of_above (by omega)⟩
  by_cases valid : lutValid c = true
  · obtain ⟨v, rfl⟩ := exists_romAlpha_of_lutValid valid
    exact .inl ⟨v, rfl, lut_romAlpha v⟩
  · refine .inr ⟨fun v code => valid (code ▸ lutValid_romAlpha v), lut_of_invalid (by simpa using valid)⟩

/-- Settles O7: the characters that pass are the codes of the values with low bits 0, which the texts list. -/
theorem canonicalFinalSymbols : Obligations.CanonicalFinalSymbols := by
  intro c passes
  have listed {tl : Nat} {codes : List Byte} (h : canonicalSymbols tl = codes) : passes tl ↔ c ∈ codes :=
    h ▸ mem_canonicalSymbols
  exact ⟨listed (by decide), listed (by decide), listed (by decide), listed (by decide), listed (by decide)⟩

/-- Settles O8, cause by cause. -/
theorem causeCodes : Obligations.CauseCodes :=
  ⟨by decide, fun c => by cases c <;> decide⟩

end Sys2Proof.Proofs

/-! PROOF. The host's side: what a CMD write can do, what a read leaves as it was, whose step comes next, and the lines
of the host assembler (20_memory.md R51, R60, R62; 30_encoding.md R94; 40_commands.md R100 to R110). -/

namespace Sys2Proof.Machine

/-! ## The outcomes of a CMD write (40_commands.md R101 to R110) -/

/-- What a CMD write can make of the state: dropped while a command runs; of an idle chip CLEAR's effect, an error, or
the start of an ENCODE or DECODE whose input fits IBUF. -/
inductive CmdWriteOutcome (s : State) : State → Prop where
  | dropped (busy : s.status.busy = true) : CmdWriteOutcome s (dropWrite s)
  | cleared (idle : s.status.busy = false) :
      CmdWriteOutcome s { s with status := ⟨false, false, false, false, .none⟩, outLen := 0 }
  | failed (idle : s.status.busy = false) (c : Cause) (cause : c ≠ .none) :
      CmdWriteOutcome s (completeError c (acceptCommand s))
  | started (idle : s.status.busy = false) (fits : s.inLen.toNat ≤ s.depth.val) (op : BitVec 2) (f : Bool)
      (known : op = 0b01#2 ∨ op = 0b10#2) : CmdWriteOutcome s (startCommand op f (acceptCommand s))

theorem issueData_outcome {op : BitVec 2} (known : op = 0b01#2 ∨ op = 0b10#2) (f a : Bool) (s : State) :
    CmdWriteOutcome s (issueData op f a s) := by
  rcases issueData_cases op f a s with ⟨busy, h⟩ | ⟨idle, -, h⟩ | ⟨idle, -, -, h⟩ | ⟨idle, -, fits, h⟩ <;> rw [h]
  · exact .dropped busy
  · exact .failed idle _ (by decide)
  · exact .failed idle _ (by decide)
  · exact .started idle fits op f known

theorem exec_outcome (i : Instr) (s : State) : ∃ t, exec i s = .next t ∧ CmdWriteOutcome s t := by
  cases i with
  | clear f a =>
    refine ⟨_, exec_clear f a s, ?_⟩
    cases busy : s.status.busy with
    | true => rw [clearCommand_of_busy busy]; exact .dropped busy
    | false => rw [clearCommand_of_idle busy]; exact .cleared busy
  | encode f a => exact ⟨_, exec_encode f a s, issueData_outcome (.inl rfl) f a s⟩
  | decode f a => exact ⟨_, exec_decode f a s, issueData_outcome (.inr rfl) f a s⟩

theorem cmdWrite_outcome (w : Word) (s : State) : ∃ t, cmdWrite w s = .next t ∧ CmdWriteOutcome s t := by
  cases selected : decode w with
  | ok i => rw [cmdWrite_of_command s selected]; exact exec_outcome i s
  | error r =>
    refine ⟨_, cmdWrite_of_reserved s selected, ?_⟩
    cases busy : s.status.busy with
    | true => rw [illegalCommand_of_busy busy]; exact .dropped busy
    | false => rw [illegalCommand_of_idle busy]; exact .failed busy _ (by decide)

/-! ## Reads (20_memory.md R54, R60) -/

/-- A read of `a` returns an unspecified value: one of OBUF outside the result (20_memory.md R54). -/
def ReadsOutsideResult (a : Addr) (s : State) : Prop :=
  ∃ i, a.toNat = 0x8000 + i ∧ i < obufDepth s.depth ∧ (s.status.busy = true ∨ s.outLen.toNat ≤ i)

theorem obufReadDraws_iff (s : State) (i : Nat) :
    obufReadDraws s i = true ↔ i < obufDepth s.depth ∧ (s.status.busy = true ∨ s.outLen.toNat ≤ i) := by
  simp [obufReadDraws]

theorem hostRead_draws_outside_result {a : Addr} {s : State} (outside : ReadsOutsideResult a s) :
    (hostRead a s).draws = s.draws + 1 := by
  obtain ⟨i, ha, drawn⟩ := outside
  simp [hostRead, regionOf_obuf ha, (obufReadDraws_iff s i).mpr drawn]

theorem readValue_outside_result {a : Addr} {s : State} (outside : ReadsOutsideResult a s) :
    readValue a s = (Config.readDraw s.draws).setWidth 32 := by
  obtain ⟨i, ha, drawn⟩ := outside
  rw [readValue_of_obuf s (regionOf_obuf ha) drawn.1, if_pos ((obufReadDraws_iff s i).mpr drawn)]

theorem hostRead_draws_elsewhere {a : Addr} {s : State} (elsewhere : ¬ReadsOutsideResult a s) :
    (hostRead a s).draws = s.draws := by
  rcases regionOf_cases a with ⟨-, r⟩ | ⟨-, r⟩ | ⟨-, r⟩ | ⟨-, r⟩ | ⟨-, r⟩ | ⟨-, r⟩ | ⟨-, -, r⟩ |
    ⟨_, -, -, r⟩ | ⟨i, ha, -, r⟩
  on_goal 9 =>
    have kept : ¬obufReadDraws s i = true := fun drawn => elsewhere ⟨i, ha, (obufReadDraws_iff s i).mp drawn⟩
    simp [hostRead, r, kept]
  all_goals simp [hostRead, r]

/-- No read depends on the words returned before. -/
theorem readValue_returned (a : Addr) (s : State) (words : List Word) :
    readValue a { s with returned := words } = readValue a s := rfl

/-! ## Whose step comes next (20_memory.md R62; logs 2 and 4) -/

theorem step_of_engine_enabled {s : State} (empty : s.turns = []) (enabled : engineEnabled s.seq = true) :
    step s = engineStep s := by
  rcases step_cases s with ⟨t, ts, turns, -⟩ | ⟨-, -, hs⟩ | ⟨-, disabled, -⟩
  · simp [empty] at turns
  · exact hs
  · simp [enabled] at disabled

theorem step_of_engine_disabled {s : State} (empty : s.turns = []) (disabled : engineEnabled s.seq = false) :
    step s = hostStep s := by
  rcases step_cases s with ⟨t, ts, turns, -⟩ | ⟨-, enabled, -⟩ | ⟨-, -, hs⟩
  · simp [empty] at turns
  · simp [disabled] at enabled
  · exact hs

theorem hostStep_of_done {s : State} (h : s.program = []) : hostStep s = .next s := by
  rw [hostStep, h]

theorem hostStep_of_write {s : State} {a : Addr} {w : Word} {rest : List HostOp} (h : s.program = .wr a w :: rest) :
    hostStep s = hostWrite a w { s with program := rest } := by
  rw [hostStep, h]

theorem hostStep_of_read {s : State} {a : Addr} {rest : List HostOp} (h : s.program = .rd a :: rest) :
    hostStep s = .next (hostRead a { s with program := rest }) := by
  rw [hostStep, h]

/-- WAIT reads STATUS, and stays next while BUSY = 1 (30_encoding.md R94). -/
theorem hostStep_of_wait {s : State} {rest : List HostOp} (h : s.program = .wait :: rest) :
    hostStep s = .next (hostRead statusAddr (if s.status.busy then s else { s with program := rest })) := by
  have cases := hostStep_cases s
  rw [h] at cases
  simpa using cases

/-- A read of STATUS returns its word and draws nothing. -/
theorem hostRead_statusAddr (s : State) :
    hostRead statusAddr s = { s with returned := statusWord s.status :: s.returned } := rfl

/-! ## The lines of the host assembler (30_encoding.md R94) -/

@[simp] theorem length_fillFrom (base : Nat) (bytes : List Byte) : (fillFrom base bytes).length = bytes.length := by
  induction bytes generalizing base with
  | nil => rfl
  | cons b bytes ih => simp [fillFrom, ih]

theorem getElem?_fillFrom (base : Nat) (bytes : List Byte) (k : Nat) :
    (fillFrom base bytes)[k]? = bytes[k]?.map fun b => .wr (BitVec.ofNat 16 (base + k)) (b.setWidth 32) := by
  induction bytes generalizing base k with
  | nil => rfl
  | cons b bytes ih =>
    cases k with
    | zero => rfl
    | succ k =>
      rw [← Nat.add_assoc, Nat.add_right_comm]
      exact ih (base + 1) k

/-- The `k`-th access of a FILL that stays in its window writes the `k`-th byte at 0x4000 + k. -/
theorem fillFrom_window {bytes : List Byte} (fits : bytes.length ≤ 0x4000) {k : Nat} (h : k < bytes.length) :
    ∃ a : Addr, (fillFrom 0x4000 bytes)[k]? = some (.wr a (bytes[k].setWidth 32)) ∧ a.toNat = 0x4000 + k :=
  ⟨_, by rw [getElem?_fillFrom, List.getElem?_eq_getElem h]; rfl, toNat_ofNat_of_lt (by omega)⟩

/-- The code of a 7-bit character is its number (30_encoding.md R84, R86; log 11). -/
theorem toNat_charCode {c : Char} (ascii : c.toNat < 128) : (charCode c).toNat = c.toNat :=
  toNat_ofNat_of_lt (by omega)

end Sys2Proof.Machine

namespace Sys2Proof.Proofs

open Sys2Proof Sys2Proof.Machine

/-- Settles O17: each outcome of a CMD write is an update of those six fields, and only a start, which raises BUSY,
touches the latches. -/
theorem commandsKeepBuffersAndDatapath : Obligations.CommandsKeepBuffersAndDatapath := by
  intro i s
  obtain ⟨t, executed, outcome⟩ := exec_outcome i s
  refine ⟨t, executed, ?_⟩
  cases outcome with
  | dropped busy => exact ⟨rfl, fun _ => rfl, fun _ => rfl, fun _ => ⟨rfl, rfl, rfl⟩⟩
  | cleared idle => exact ⟨rfl, fun _ => rfl, fun _ => rfl, fun _ => ⟨rfl, rfl, rfl⟩⟩
  | failed idle c cause => exact ⟨rfl, fun _ => rfl, fun _ => rfl, fun _ => ⟨rfl, rfl, rfl⟩⟩
  | started idle fits op f known =>
    exact ⟨rfl, fun _ => rfl, fun _ => rfl, fun same => absurd same (by simp [idle])⟩

/-- Settles O26: a read writes only the words returned and the count of draws, and no read value depends on the words
returned. -/
theorem readsChangeNothing : Obligations.ReadsChangeNothing := by
  refine fun a s => ⟨rfl, fun elsewhere => ?_, fun outside =>
    ⟨hostRead_draws_outside_result outside, readValue_outside_result outside⟩⟩
  have kept : (hostRead a s).draws = s.draws := hostRead_draws_elsewhere elsewhere
  have unchanged : hostRead a s = { s with returned := readValue a s :: s.returned } := by
    conv_rhs => rw [← kept]
    rfl
  exact ⟨kept, by rw [unchanged, readValue_returned]⟩

/-- Settles O28: the one-access lines by their words, FILL and DUMP entry by entry. -/
theorem assemblerLinesExpand : Obligations.AssemblerLinesExpand := by
  refine ⟨fun a w => ⟨rfl, rfl⟩, rfl, rfl, by decide, by decide, fun n => rfl, fun bytes fits => ?_,
    fun text fits ascii => ?_, by decide, by decide, fun k fits => ?_⟩
  · exact ⟨length_fillFrom _ _, fun k h => fillFrom_window fits h⟩
  · refine ⟨by simp [AsmLine.expand], fun k h => ?_⟩
    obtain ⟨a, entry, place⟩ :=
      fillFrom_window (bytes := text.map charCode) (by simpa using fits) (k := k) (by simpa using h)
    rw [List.getElem_map] at entry
    exact ⟨a, _, entry, place, rfl, toNat_charCode (ascii _ (List.getElem_mem h))⟩
  · refine ⟨by simp [AsmLine.expand], fun j h => ⟨BitVec.ofNat 16 (0x8000 + j), ?_, toNat_ofNat_of_lt (by omega)⟩⟩
    simp [AsmLine.expand, h]

/-- Settles O9: the host's turn comes first, or by default when the engine has no step; its access is the CMD write. -/
theorem stepRunsSelectedCommand : Obligations.StepRunsSelectedCommand := by
  intro s w i rest next selected
  have executed (ts : List Turn) :
      hostStep { s with turns := ts } = exec i { s with turns := ts, program := rest } := by
    rw [hostStep_of_write (s := { s with turns := ts }) next, hostWrite_of_cmd w regionOf_0x0001,
      cmdWrite_of_command _ selected]
  refine ⟨fun ts turn => ?_, fun empty disabled => ?_⟩
  · rw [step_of_turns_cons turn, takeTurn, executed]
  · rw [step_of_engine_disabled empty disabled]
    exact executed s.turns

/-- Settles O10: by the first turn, or by the default one; the host's step is the first access of its program. -/
theorem stepFollowsTurns : Obligations.StepFollowsTurns := by
  refine ⟨fun s ts turn => step_of_turns_cons turn, fun s ts turn => step_of_turns_cons turn,
    fun s empty idle unused => step_of_engine_enabled empty (engineEnabled_of_phase idle unused),
    fun s empty phase => step_of_engine_disabled empty ?_, fun s phase => ?_, fun s => hostStep_of_done,
    fun s a w rest => hostStep_of_write, fun s a rest => hostStep_of_read⟩
  · rcases phase with phase | phase <;> rw [phase] <;> rfl
  · rcases phase with phase | phase
    · exact engineStep_idle phase
    · exact engineStep_unused phase

/-- Settles O27: the two cases of BUSY at a WAIT. -/
theorem waitRepeatsWhileBusy : Obligations.WaitRepeatsWhileBusy := by
  intro s rest next
  rw [hostStep_of_wait next, hostRead_statusAddr]
  refine ⟨fun busy => ?_, fun idle => ?_⟩
  · rw [if_pos busy]
  · rw [if_neg (by simp [idle])]

end Sys2Proof.Proofs

/-! PROOF. What each agent's step leaves as it was, and what the engine's step depends on (10_state.md R38;
20_memory.md R61 to R64; 40_commands.md R110, R115). -/

namespace Sys2Proof.Machine

/-! ## The frames of the engine's and of the host's step (10_state.md R27, R38) -/

section Frames
variable {s t : State}

/-- All that an engine step can write; the input, the latches, the parameter and what is the host's are not among it. -/
theorem engineStep_frame (h : engineStep s = .next t) :
    t = { s with
      status := t.status, outLen := t.outLen, seq := t.seq, eAcc := t.eAcc, eCnt := t.eCnt, padCnt := t.padCnt
      dAcc := t.dAcc, dCnt := t.dCnt, i := t.i, o := t.o, p := t.p, ol := t.ol, tl := t.tl, obuf := t.obuf } := by
  cases phase : s.seq with
  | idle => rw [engineStep_idle phase] at h; cases h; rfl
  | eInit => rw [engineStep_eInit phase] at h; cases h; rfl
  | eAppend => rcases stepEAppend_next (engineStep_eAppend phase ▸ h) with ⟨-, -, _, -, rfl⟩ | ⟨-, rfl⟩ <;> rfl
  | eExtract => rcases stepEExtract_next (engineStep_eExtract phase ▸ h) with ⟨-, -, rfl⟩ | ⟨-, rfl⟩ <;> rfl
  | eFlush => rcases stepEFlush_next (engineStep_eFlush phase ▸ h) with ⟨-, -, rfl⟩ | ⟨-, rfl⟩ <;> rfl
  | ePadInit => rw [engineStep_ePadInit phase] at h; cases h; rfl
  | ePad => rcases stepEPad_next (engineStep_ePad phase ▸ h) with ⟨-, -, rfl⟩ | ⟨-, rfl⟩ <;> rfl
  | dInit => rcases stepDInit_next (engineStep_dInit phase ▸ h) with ⟨-, rfl⟩ | ⟨-, rfl⟩ <;> rfl
  | dScan =>
    rcases stepDScan_next (engineStep_dScan phase ▸ h) with ⟨-, -, rfl⟩ | ⟨-, -, rfl⟩ | ⟨-, rfl⟩ <;> rfl
  | dAccount =>
    obtain ⟨_, rfl, ⟨-, rfl⟩ | ⟨-, -, rfl⟩ | ⟨-, -, rfl⟩⟩ := stepDAccount_next (engineStep_dAccount phase ▸ h)
    all_goals rfl
  | dTail =>
    obtain ⟨_, -, ⟨-, rfl⟩ | ⟨-, -, rfl⟩ | ⟨-, -, rfl⟩⟩ := stepDTail_next (engineStep_dTail phase ▸ h) <;> rfl
  | dPadChk => rcases stepDPadChk_next (engineStep_dPadChk phase ▸ h) with ⟨-, -, rfl⟩ | ⟨-, rfl⟩ <;> rfl
  | dLoopInit => rw [engineStep_dLoopInit phase] at h; cases h; rfl
  | dLoad =>
    rcases stepDLoad_next (engineStep_dLoad phase ▸ h) with ⟨-, rfl⟩ | ⟨-, _, -, ⟨-, rfl⟩ | ⟨-, rfl⟩⟩ <;> rfl
  | dExtract =>
    obtain ⟨-, _, rfl, ⟨-, rfl⟩ | ⟨-, rfl⟩⟩ := stepDExtract_next (engineStep_dExtract phase ▸ h) <;> rfl
  | unused => rw [engineStep_unused phase] at h; cases h; rfl

/-- All that a host step can write; OBUF, the datapath, the parameter and the schedule are not among it. -/
theorem hostStep_frame (h : hostStep s = .next t) :
    t = { s with
      status := t.status, inLen := t.inLen, outLen := t.outLen, seq := t.seq, opc := t.opc, flag := t.flag, n := t.n
      ibuf := t.ibuf, program := t.program, returned := t.returned, draws := t.draws } := by
  rcases hostStep_cases s with ⟨-, hs⟩ | ⟨a, w, rest, -, hs⟩ | ⟨a, rest, -, hs⟩ | ⟨rest, -, hs⟩ <;> rw [hs] at h
  · cases h; rfl
  · rcases hostWrite_cases a w { s with program := rest } with ⟨-, hw⟩ | ⟨-, hw⟩ <;> rw [hw] at h
    · obtain ⟨u, hu, outcome⟩ := cmdWrite_outcome w { s with program := rest }
      rw [hu] at h
      cases h
      cases outcome <;> rfl
    · cases h
      rcases writePlain_cases a w { s with program := rest } with
        hp | ⟨-, hp⟩ | ⟨-, -, hp⟩ | ⟨-, _, -, -, hp⟩ <;> rw [hp]
      rfl
  · cases h; rfl
  · cases h; split <;> rfl

end Frames

/-! ## The outcome of a completed command (20_memory.md R64) -/

theorem seq_idle_of_not_busy {s : State} (inv : s.Inv) (idle : s.status.busy = false) : s.seq = .idle := by
  obtain ⟨running, -⟩ := inv.status
  exact by_contra fun other => absurd (running.mpr other) (by simp [idle])

/-- While no command runs, a host step that is not a CMD write changes nothing of the outcome. -/
theorem hostStep_keeps_outcome {s t : State} (idle : s.status.busy = false) (h : hostStep s = .next t)
    (noCommand : ∀ w rest, s.program ≠ .wr 0x0001#16 w :: rest) :
    t.status = s.status ∧ t.outLen = s.outLen ∧ t.seq = s.seq := by
  rcases hostStep_cases s with ⟨-, hs⟩ | ⟨a, w, rest, next, hs⟩ | ⟨a, rest, -, hs⟩ | ⟨rest, -, hs⟩ <;> rw [hs] at h
  · cases h; exact ⟨rfl, rfl, rfl⟩
  · rcases hostWrite_cases a w { s with program := rest } with ⟨region, -⟩ | ⟨-, hw⟩
    · exact absurd (regionOf_eq_cmd region ▸ next) (noCommand w rest)
    · rw [hw] at h
      cases h
      rcases writePlain_cases a w { s with program := rest } with hp | ⟨busy, -⟩ | ⟨-, -, hp⟩ | ⟨-, _, -, -, hp⟩
      · rw [hp]; exact ⟨rfl, rfl, rfl⟩
      · exact absurd busy (by simp [idle])
      · rw [hp]; exact ⟨rfl, rfl, rfl⟩
      · rw [hp]; exact ⟨rfl, rfl, rfl⟩
  · cases h; exact ⟨rfl, rfl, rfl⟩
  · cases h; split <;> exact ⟨rfl, rfl, rfl⟩

/-! ## A running command and the host (20_memory.md R63; 40_commands.md R110) -/

/-- A host write while a command runs changes at most OVR. -/
theorem hostWrite_of_busy (a : Addr) (w : Word) {s : State} (busy : s.status.busy = true) :
    hostWrite a w s = .next s ∨ hostWrite a w s = .next (dropWrite s) := by
  rcases hostWrite_cases a w s with ⟨-, hw⟩ | ⟨-, hw⟩ <;> rw [hw]
  · exact .inr (cmdWrite_of_busy w busy)
  · rcases writePlain_cases a w s with hp | ⟨-, hp⟩ | ⟨idle, -⟩ | ⟨idle, -⟩
    · rw [hp]; exact .inl rfl
    · rw [hp]; exact .inr rfl
    · simp [busy] at idle
    · simp [busy] at idle

theorem hostStep_keeps_underCommand {s t : State} (busy : s.status.busy = true) (h : hostStep s = .next t) :
    t.underCommand = s.underCommand := by
  rcases hostStep_cases s with ⟨-, hs⟩ | ⟨a, w, rest, -, hs⟩ | ⟨a, rest, -, hs⟩ | ⟨rest, -, hs⟩ <;> rw [hs] at h
  · cases h; rfl
  · rcases hostWrite_of_busy a w (s := { s with program := rest }) busy with hw | hw
    all_goals
      rw [hw] at h
      cases h
      rfl
  · cases h; rfl
  · cases h; split <;> rfl

theorem busy_of_underCommand {s t : State} (same : s.underCommand = t.underCommand) :
    s.status.busy = t.status.busy := by
  show s.underCommand.status.busy = t.underCommand.status.busy
  rw [same]

/-! ## What the engine's step depends on (40_commands.md R115) -/

/-- A function on states, applied to a step that goes on. -/
def onNext (f : State → State) : Result → Result
  | .next s => .next (f s)
  | .fault r => .fault r
  | .refused r => .refused r

theorem onNext_eq_next {f : State → State} {r : Result} {u : State} :
    onNext f r = .next u ↔ ∃ t, r = .next t ∧ f t = u := by
  cases r <;> simp [onNext]

theorem onNext_eq_fault {f : State → State} {r : Result} {e : Fault} : onNext f r = .fault e ↔ r = .fault e := by
  cases r <;> simp [onNext]

theorem onNext_withIbuf (f : State → State) (s : State) (i : Nat) (k : Byte → Result) :
    onNext f (withIbuf s i k) = withIbuf s i fun b => onNext f (k b) := by
  unfold withIbuf
  split
  · split <;> rfl
  · rfl

theorem onNext_withObuf (f : State → State) (s : State) (i : Nat) (b : Byte) (k : State → Result) :
    onNext f (withObuf s i b k) = withObuf s i b fun t => onNext f (k t) := by
  unfold withObuf
  split <;> rfl

/-- A micro-step neither reads nor writes what `underCommand` sets aside: it commutes with setting it aside. -/
theorem engineStep_underCommand (s : State) :
    engineStep s.underCommand = onNext State.underCommand (engineStep s) := by
  have same : s.underCommand.seq = s.seq := rfl
  cases phase : s.seq with
  | idle => rw [engineStep_idle phase, engineStep_idle (same.trans phase)]; rfl
  | eInit => rw [engineStep_eInit phase, engineStep_eInit (same.trans phase)]; rfl
  | eAppend =>
    rw [engineStep_eAppend phase, engineStep_eAppend (same.trans phase)]
    simp only [stepEAppend, apply_ite (onNext _), onNext_withIbuf]
    rfl
  | eExtract =>
    rw [engineStep_eExtract phase, engineStep_eExtract (same.trans phase)]
    simp only [stepEExtract, apply_ite (onNext _), onNext_withObuf]
    rfl
  | eFlush =>
    rw [engineStep_eFlush phase, engineStep_eFlush (same.trans phase)]
    simp only [stepEFlush, apply_ite (onNext _), onNext_withObuf]
    rfl
  | ePadInit => rw [engineStep_ePadInit phase, engineStep_ePadInit (same.trans phase)]; rfl
  | ePad =>
    rw [engineStep_ePad phase, engineStep_ePad (same.trans phase)]
    simp only [stepEPad, apply_ite (onNext _), onNext_withObuf]
    rfl
  | dInit =>
    rw [engineStep_dInit phase, engineStep_dInit (same.trans phase)]
    simp only [stepDInit, apply_ite (onNext _)]
    rfl
  | dScan =>
    rw [engineStep_dScan phase, engineStep_dScan (same.trans phase)]
    simp only [stepDScan, apply_ite (onNext _), onNext_withIbuf]
    rfl
  | dAccount =>
    rw [engineStep_dAccount phase, engineStep_dAccount (same.trans phase)]
    simp only [stepDAccount, apply_ite (onNext _)]
    rfl
  | dTail =>
    rw [engineStep_dTail phase, engineStep_dTail (same.trans phase)]
    simp only [stepDTail, apply_ite (onNext _), onNext_withIbuf]
    rfl
  | dPadChk =>
    rw [engineStep_dPadChk phase, engineStep_dPadChk (same.trans phase)]
    simp only [stepDPadChk, apply_ite (onNext _)]
    rfl
  | dLoopInit => rw [engineStep_dLoopInit phase, engineStep_dLoopInit (same.trans phase)]; rfl
  | dLoad =>
    rw [engineStep_dLoad phase, engineStep_dLoad (same.trans phase)]
    simp only [stepDLoad, apply_ite (onNext _), onNext_withIbuf]
    rfl
  | dExtract =>
    rw [engineStep_dExtract phase, engineStep_dExtract (same.trans phase)]
    simp only [stepDExtract, apply_ite (onNext _), onNext_withObuf]
    rfl
  | unused => rw [engineStep_unused phase, engineStep_unused (same.trans phase)]; rfl

/-- Two states that differ in nothing the command uses step alike. -/
theorem onNext_engineStep_congr {s s' : State} (same : s.underCommand = s'.underCommand) :
    onNext State.underCommand (engineStep s) = onNext State.underCommand (engineStep s') := by
  rw [← engineStep_underCommand, ← engineStep_underCommand, same]

theorem engineStep_next_congr {s s' t : State} (same : s.underCommand = s'.underCommand)
    (h : engineStep s = .next t) : ∃ t', engineStep s' = .next t' ∧ t'.underCommand = t.underCommand := by
  rw [← onNext_eq_next, ← onNext_engineStep_congr same, h]
  rfl

/-! ## Runs with the host's steps among the engine's (40_commands.md R115) -/

theorem engineRun_succ {s t : State} (h : engineStep s = .next t) (k : Nat) :
    engineRun (k + 1) s = engineRun k t := by
  rw [engineRun, h]

theorem runSteps_succ {s t : State} (h : step s = .next t) (k : Nat) : runSteps (k + 1) s = runSteps k t := by
  rw [runSteps, h]

theorem engineRun_one {s u : State} : engineRun 1 s = .next u ↔ engineStep s = .next u := by
  rw [engineRun]
  cases engineStep s <;> simp [engineRun]

/-- The schedule `ts` and one engine turn more, from a state that agrees with `s` on what the command uses, end where
the engine's steps alone end from `s`. By induction over the schedule. -/
theorem runSteps_of_interleaving (rest : List Turn) {u : State} (ts : List Turn) (noReset : .reset ∉ ts) :
    ∀ s v : State, v.underCommand = s.underCommand → v.turns = ts ++ .engine :: rest →
    (∀ j, j ≤ ts.count .engine → ∃ w, engineRun j s = .next w ∧ w.status.busy = true) →
    engineRun (ts.count .engine + 1) s = .next u →
    ∃ u', runSteps (ts.length + 1) v = .next u' ∧ u'.underCommand = u.underCommand ∧ u'.turns = rest := by
  induction ts with
  | nil =>
    intro s v same turns _ last
    obtain ⟨u', stepped, agrees⟩ :=
      engineStep_next_congr (s' := { v with turns := rest }) same.symm (engineRun_one.mp last)
    refine ⟨u', ?_, agrees, by rw [engineStep_frame stepped]⟩
    rw [List.length_nil, runSteps_succ (t := u')]
    · rfl
    · rw [step_of_turns_cons turns]; exact stepped
  | cons turn ts ih =>
    intro s v same turns busy last
    have ih := ih fun inside => noReset (List.mem_cons_of_mem _ inside)
    cases turn with
    | reset => exact absurd List.mem_cons_self noReset
    | host =>
      obtain ⟨w, hw⟩ := hostStep_next { v with turns := ts ++ .engine :: rest }
      rw [List.count_cons_of_ne (by decide)] at busy last
      obtain ⟨_, ⟨⟩, running⟩ := busy 0 (Nat.zero_le _)
      have kept : w.underCommand = v.underCommand :=
        hostStep_keeps_underCommand (s := { v with turns := ts ++ .engine :: rest })
          ((busy_of_underCommand same).trans running) hw
      rw [List.length_cons, runSteps_succ (t := w)]
      · exact ih s w (kept.trans same) (by rw [hostStep_frame hw]) busy last
      · rw [step_of_turns_cons turns]; exact hw
    | engine =>
      rw [List.count_cons_self] at busy last
      obtain ⟨s₁, one, -⟩ := busy 1 (Nat.le_add_left _ _)
      have stepped := engineRun_one.mp one
      obtain ⟨w, hw, agrees⟩ :=
        engineStep_next_congr (s' := { v with turns := ts ++ .engine :: rest }) same.symm stepped
      rw [List.length_cons, runSteps_succ (t := w)]
      · refine ih s₁ w agrees (by rw [engineStep_frame hw]) (fun j hj => ?_) ?_
        · rw [← engineRun_succ stepped]
          exact busy (j + 1) (Nat.succ_le_succ hj)
        · rwa [← engineRun_succ stepped]
      · rw [step_of_turns_cons turns]; exact hw

end Sys2Proof.Machine

namespace Sys2Proof.Proofs

open Sys2Proof Sys2Proof.Machine

/-- Settles O47, by the frames of the two agents' steps. -/
theorem eachBufferHasOneWriter : Obligations.EachBufferHasOneWriter := by
  refine ⟨fun s t h => ?_, fun s t h => by rw [hostStep_frame h], fun s t h => ?_⟩
  · rw [engineStep_frame h]
    exact ⟨rfl, rfl⟩
  · rcases step_cases s with ⟨turn, ts, -, hs⟩ | ⟨-, -, hs⟩ | ⟨-, -, hs⟩ <;> rw [hs] at h
    · cases turn with
      | host => rw [hostStep_frame (s := { s with turns := ts }) h]
      | engine => rw [engineStep_frame (s := { s with turns := ts }) h]
      | reset => cases h; rfl
    · rw [engineStep_frame h]
    · rw [hostStep_frame h]

/-- Settles O48: while no command runs SEQ is IDLE, so the engine has no step, and OBUF is not the host's to write. -/
theorem outcomeStaysUntilNextCommand : Obligations.OutcomeStaysUntilNextCommand := by
  intro s t inv idle h noReset noCommand
  have phase : s.seq = .idle := seq_idle_of_not_busy inv idle
  have byEngine {v : State} (quiet : v.seq = .idle) (hv : engineStep v = .next t) : t = v := by
    rw [engineStep_idle quiet] at hv
    cases hv; rfl
  have byHost {v : State} (hv : hostStep v = .next t) (busy : v.status.busy = false)
      (next : ∀ w rest, v.program ≠ .wr 0x0001#16 w :: rest) :
      t.status = v.status ∧ t.outLen = v.outLen ∧ t.seq = v.seq ∧ t.obuf = v.obuf := by
    obtain ⟨status, outLen, seq⟩ := hostStep_keeps_outcome busy hv next
    exact ⟨status, outLen, seq, by rw [hostStep_frame hv]⟩
  rw [← phase]
  rcases step_cases s with ⟨turn, ts, turns, hs⟩ | ⟨-, enabled, -⟩ | ⟨-, -, hs⟩
  · rw [hs] at h
    cases turn with
    | host =>
      obtain ⟨status, outLen, seq, obuf⟩ := byHost (v := { s with turns := ts }) h idle noCommand
      exact ⟨status, outLen, seq, fun j => by rw [obuf]⟩
    | engine =>
      rw [byEngine (v := { s with turns := ts }) phase h]
      exact ⟨rfl, rfl, rfl, fun j => rfl⟩
    | reset => exact absurd turns (noReset ts)
  · rw [phase] at enabled; cases enabled
  · rw [hs] at h
    obtain ⟨status, outLen, seq, obuf⟩ := byHost h idle noCommand
    exact ⟨status, outLen, seq, fun j => by rw [obuf]⟩

/-- Settles O49: every write is dropped while a command runs, and reads change nothing of B32C. -/
theorem hostStepKeepsRunningCommand : Obligations.HostStepKeepsRunningCommand :=
  fun _ _ => hostStep_keeps_underCommand

/-- Settles O50: the engine's step commutes with setting aside what a host can change. -/
theorem engineSeesOnlyTheCommand : Obligations.EngineSeesOnlyTheCommand := by
  refine fun s s' same => ⟨fun t => engineStep_next_congr same, fun r h => ?_⟩
  rw [← onNext_eq_fault, ← onNext_engineStep_congr same, h]
  rfl

/-- Settles O51: the schedule's host steps keep all that the command uses, and its engine steps are those of the command
alone. -/
theorem outcomeIgnoresInterleaving : Obligations.OutcomeIgnoresInterleaving :=
  fun s _ ts rest noReset busy last => runSteps_of_interleaving rest ts noReset s _ rfl rfl busy last

end Sys2Proof.Proofs

/-! PROOF. The invariant: reset establishes it, and every step of each agent keeps it (10_state.md R24, R30;
41_encoder.md R139, R140; 42_decoder.md R179, R180). -/

namespace Sys2Proof.Machine

/-! ## The buffers -/

theorem writtenBelow_zero (m : Memory) : writtenBelow m 0 := fun j hj => absurd hj (Nat.not_lt_zero j)

theorem writtenBelow_write {m : Memory} {k : Nat} (written : writtenBelow m k) (b : Byte) :
    writtenBelow (m.write k b) (k + 1) := by
  intro j hj
  apply Memory.read_write_ne_none
  rcases Nat.lt_or_eq_of_le (Nat.le_of_lt_succ hj) with below | here
  · exact .inr (written j below)
  · exact .inl here

theorem State.BuffersOk.writeObuf {s : State} (ok : s.BuffersOk) {i : Nat} (b : Byte) (inside : i < obufDepth s.depth) :
    State.BuffersOk { s with obuf := s.obuf.write i b } := by
  obtain ⟨ibufForm, obufForm, ibufSize, obufSize, length, written⟩ := ok
  exact ⟨ibufForm, Memory.write_wf obufForm i b, ibufSize, Memory.write_below b obufSize inside, length,
    fun j hj => Memory.read_write_ne_none (.inr (written j hj))⟩

theorem State.BuffersOk.writeIbuf {s : State} (ok : s.BuffersOk) {i : Nat} (b : Byte) (inside : i < s.depth.val) :
    State.BuffersOk { s with ibuf := s.ibuf.write i b } := by
  obtain ⟨ibufForm, obufForm, ibufSize, obufSize, length, written⟩ := ok
  exact ⟨Memory.write_wf ibufForm i b, obufForm, Memory.write_below b ibufSize inside, obufSize, length, written⟩

/-! ## How a step leaves the invariant: a command goes on, ends, or has not begun -/

theorem phase_of_engineEnabled {q : Seq} (enabled : engineEnabled q = true) : q ≠ .idle ∧ q ≠ .unused := by
  constructor <;> rintro rfl <;> cases enabled

section Keeps
variable {s t : State}

/-- A micro-step that goes on leaves STATUS, OUT_LEN, DEPTH and N; its buffers and its datapath are to be checked. -/
theorem State.Inv.goesOn (inv : s.Inv) {q : Seq} (phase : s.seq = q) (buffers : t.BuffersOk) (datapath : t.DatapathOk)
    (running : engineEnabled q = true := by rfl) (goesOn : engineEnabled t.seq = true := by rfl)
    (same : t.status = s.status ∧ t.outLen = s.outLen ∧ t.depth = s.depth ∧ t.n = s.n := by
      exact ⟨rfl, rfl, rfl, rfl⟩) :
    t.Inv := by
  obtain ⟨status, outLen, depth, n⟩ := same
  obtain ⟨notIdle, -⟩ := phase_of_engineEnabled (phase ▸ running)
  obtain ⟨notIdle', notUnused'⟩ := phase_of_engineEnabled goesOn
  obtain ⟨busy, -, exclusive, error, noError, empty⟩ := inv.status
  refine ⟨⟨?_, notUnused', ?_, ?_, ?_, ?_⟩, buffers, ?_, datapath⟩
  · rw [status]
    exact ⟨fun _ => notIdle', fun _ => busy.mpr notIdle⟩
  · rwa [status]
  · rwa [status]
  · rwa [status]
  · rwa [status, outLen]
  · rw [status, n, depth]
    exact inv.length

theorem inv_completeOk {L : Nat} (buffers : s.BuffersOk) (fits : L ≤ obufDepth s.depth)
    (written : writtenBelow s.obuf L) : (completeOk L s).Inv := by
  obtain ⟨ibufForm, obufForm, ibufSize, obufSize, -, -⟩ := buffers
  have length : (completeOk L s).outLen.toNat = L := toNat_ofNat_of_lt (fits.trans_lt (obufDepth_lt s.depth))
  refine ⟨by simp [State.StatusOk], ⟨ibufForm, obufForm, ibufSize, obufSize, ?_, ?_⟩, by simp, trivial⟩
  · rwa [length]
  · rwa [length]

theorem inv_completeError {c : Cause} (buffers : s.BuffersOk) (cause : c ≠ .none) : (completeError c s).Inv := by
  obtain ⟨ibufForm, obufForm, ibufSize, obufSize, -, -⟩ := buffers
  exact ⟨by simp [State.StatusOk, cause],
    ⟨ibufForm, obufForm, ibufSize, obufSize, Nat.zero_le _, writtenBelow_zero _⟩, by simp, trivial⟩

/-- An accepted CMD write, which clears OUT_LEN, leaves the buffers as they should be. -/
theorem State.BuffersOk.acceptCommand (ok : s.BuffersOk) : (Machine.acceptCommand s).BuffersOk := by
  obtain ⟨ibufForm, obufForm, ibufSize, obufSize, -, -⟩ := ok
  exact ⟨ibufForm, obufForm, ibufSize, obufSize, Nat.zero_le _, writtenBelow_zero _⟩

end Keeps

/-! ## The engine's micro-steps -/

section Engine
variable {s t : State} (inv : s.Inv)
include inv

theorem eInit_keeps_inv (phase : s.seq = .eInit) (h : stepEInit s = .next t) : t.Inv := by
  have ok := inv.datapath
  rw [State.DatapathOk, phase] at ok
  cases h
  exact inv.goesOn phase inv.buffers ⟨ok, Nat.zero_le _, by simp, Nat.zero_le _, rfl, writtenBelow_zero _⟩

theorem eAppend_keeps_inv (phase : s.seq = .eAppend) (h : stepEAppend s = .next t) : t.Inv := by
  have ok := inv.datapath
  rw [State.DatapathOk, phase] at ok
  obtain ⟨opc, few, held, taken, bits, written⟩ := ok
  rcases stepEAppend_next h with ⟨more, inside, b, read, -⟩ | ⟨done, rfl⟩
  · rw [stepEAppend_of_read more inside read] at h
    cases h
    refine inv.goesOn phase inv.buffers ⟨opc, ?_⟩
    have index := s.n.isLt
    have byte := b.isLt
    have small : s.eAcc.toNat < 2 ^ 4 := held.trans_le (Nat.pow_le_pow_right (by norm_num) few)
    have cnt : (BitVec.ofNat 4 (s.eCnt.toNat + 8)).toNat = s.eCnt.toNat + 8 := toNat_ofNat_of_lt (by omega)
    have i : (BitVec.ofNat 15 (s.i.toNat + 1)).toNat = s.i.toNat + 1 := toNat_ofNat_of_lt (by omega)
    have acc : (BitVec.ofNat 13 (256 * s.eAcc.toNat + b.toNat)).toNat = 256 * s.eAcc.toNat + b.toNat :=
      toNat_ofNat_of_lt (by omega)
    simp only [State.EncoderOk, cnt, i, acc, Nat.pow_add]
    exact ⟨by omega, by omega, by omega, by omega, written⟩
  · refine inv.goesOn phase inv.buffers ⟨opc, ⟨few, held, taken, bits, written⟩, BitVec.eq_of_toNat_eq ?_⟩
    exact Nat.le_antisymm taken done

theorem eExtract_keeps_inv (phase : s.seq = .eExtract) (h : stepEExtract s = .next t) : t.Inv := by
  have ok := inv.datapath
  rw [State.DatapathOk, phase] at ok
  obtain ⟨opc, most, held, taken, bits, written⟩ := ok
  rcases stepEExtract_next h with ⟨five, inside, -⟩ | ⟨few, rfl⟩
  · rw [stepEExtract_of_five five held inside] at h
    cases h
    refine inv.goesOn phase (inv.buffers.writeObuf _ inside) ⟨opc, ?_⟩
    have acc : (BitVec.ofNat 13 (s.eAcc.toNat % 2 ^ (s.eCnt.toNat - 5))).toNat =
        s.eAcc.toNat % 2 ^ (s.eCnt.toNat - 5) := toNat_ofNat_of_lt ((Nat.mod_le _ _).trans_lt s.eAcc.isLt)
    have cnt : (BitVec.ofNat 4 (s.eCnt.toNat - 5)).toNat = s.eCnt.toNat - 5 := toNat_ofNat_of_lt (by omega)
    simp only [State.EncoderOk, cnt, acc, toNat_next_output inside]
    exact ⟨by omega, Nat.mod_lt _ (by positivity), taken, by omega, writtenBelow_write written _⟩
  · exact inv.goesOn phase inv.buffers ⟨opc, Nat.le_of_lt_succ few, held, taken, bits, written⟩

theorem eFlush_keeps_inv (phase : s.seq = .eFlush) (h : stepEFlush s = .next t) : t.Inv := by
  have ok := inv.datapath
  rw [State.DatapathOk, phase] at ok
  obtain ⟨opc, ⟨few, held, -, bits, written⟩, all⟩ := ok
  rw [all] at bits
  rcases stepEFlush_next h with ⟨left, inside, -⟩ | ⟨empty, rfl⟩
  · rw [stepEFlush_of_bits left (by omega) held inside] at h
    cases h
    refine inv.goesOn phase (inv.buffers.writeObuf _ inside) ⟨opc, ?_⟩
    simp only [toNat_next_output inside]
    refine ⟨?_, writtenBelow_write written _⟩
    unfold symbolCount ceilDiv
    omega
  · refine inv.goesOn phase inv.buffers ⟨opc, ?_, written⟩
    show s.o.toNat = ceilDiv (8 * s.n.toNat) 5
    unfold ceilDiv
    omega

theorem ePadInit_keeps_inv (phase : s.seq = .ePadInit) (h : stepEPadInit s = .next t) : t.Inv := by
  have ok := inv.datapath
  rw [State.DatapathOk, phase] at ok
  obtain ⟨opc, symbols, written⟩ := ok
  cases h
  refine inv.goesOn phase inv.buffers ⟨opc, ?_, written⟩
  show s.o.toNat + (if s.flag then padTabR (s.n.toNat % 5) else 0).toNat = encodedLength s.n.toNat s.flag
  rw [symbols, encodedLength]
  cases s.flag with
  | true => exact symbols_add_padding s.n.toNat
  | false => rfl

theorem ePad_keeps_inv (phase : s.seq = .ePad) (h : stepEPad s = .next t) : t.Inv := by
  have ok := inv.datapath
  rw [State.DatapathOk, phase] at ok
  obtain ⟨opc, total, written⟩ := ok
  rcases stepEPad_next h with ⟨left, inside, rfl⟩ | ⟨done, rfl⟩
  · refine inv.goesOn phase (inv.buffers.writeObuf _ inside) ⟨opc, ?_⟩
    have cnt : (BitVec.ofNat 3 (s.padCnt.toNat - 1)).toNat = s.padCnt.toNat - 1 :=
      toNat_ofNat_of_lt ((Nat.sub_le _ _).trans_lt s.padCnt.isLt)
    simp only [cnt, toNat_next_output inside]
    exact ⟨by omega, writtenBelow_write written _⟩
  · have holds := encodedLength_le_obufDepth s.flag (input_fits_of_running inv (by simp [phase]))
    exact inv_completeOk inv.buffers (by omega) written

theorem dInit_keeps_inv (phase : s.seq = .dInit) (h : stepDInit s = .next t) : t.Inv := by
  have ok := inv.datapath
  rw [State.DatapathOk, phase] at ok
  rcases stepDInit_next h with ⟨-, rfl⟩ | ⟨text, rfl⟩
  · exact inv_completeOk inv.buffers (Nat.zero_le _) (writtenBelow_zero _)
  · exact inv.goesOn phase inv.buffers ⟨ok, Nat.pos_of_ne_zero text, Nat.le_refl _⟩

theorem dScan_keeps_inv (phase : s.seq = .dScan) (h : stepDScan s = .next t) : t.Inv := by
  have ok := inv.datapath
  rw [State.DatapathOk, phase] at ok
  obtain ⟨opc, text, stripped⟩ := ok
  rcases stepDScan_next h with ⟨-, -, rfl⟩ | ⟨-, -, rfl⟩ | ⟨-, rfl⟩
  · refine inv.goesOn phase inv.buffers ⟨opc, text, ?_⟩
    exact (toNat_ofNat_of_lt ((Nat.sub_le _ _).trans_lt s.p.isLt)).trans_le ((Nat.sub_le _ _).trans stripped)
  · exact inv.goesOn phase inv.buffers ⟨opc, stripped⟩
  · exact inv.goesOn phase inv.buffers ⟨opc, stripped⟩

theorem dAccount_keeps_inv (phase : s.seq = .dAccount) (h : stepDAccount s = .next t) : t.Inv := by
  have ok := inv.datapath
  rw [State.DatapathOk, phase] at ok
  obtain ⟨opc, stripped⟩ := ok
  have ol := toNat_ol_accounted (content_le_depth_of_dAccount inv phase)
  have tl := toNat_tl_accounted s
  obtain ⟨u, hu, outcome⟩ := stepDAccount_next h
  obtain rfl : u = s.accounted := hu
  have buffers : s.accounted.BuffersOk := inv.buffers
  rcases outcome with ⟨-, rfl⟩ | ⟨-, -, rfl⟩ | ⟨nonempty, tail, rfl⟩
  · exact inv_completeError buffers (by decide)
  · exact inv_completeError buffers (by decide)
  · refine inv.goesOn phase buffers ⟨opc, stripped, ?_, ?_, ?_⟩
    · show 5 * s.p.toNat = 8 * s.accounted.ol.toNat + s.accounted.tl.toNat
      omega
    · exact Nat.pos_of_ne_zero nonempty
    · exact Nat.le_of_lt_succ tail

theorem dTail_keeps_inv (phase : s.seq = .dTail) (h : stepDTail s = .next t) : t.Inv := by
  have ok := inv.datapath
  rw [State.DatapathOk, phase] at ok
  obtain ⟨_, -, ⟨-, rfl⟩ | ⟨-, -, rfl⟩ | ⟨-, -, rfl⟩⟩ := stepDTail_next h
  · exact inv_completeError inv.buffers (by decide)
  · exact inv_completeError inv.buffers (by decide)
  · exact inv.goesOn phase inv.buffers ok

theorem dPadChk_keeps_inv (phase : s.seq = .dPadChk) (h : stepDPadChk s = .next t) : t.Inv := by
  have ok := inv.datapath
  rw [State.DatapathOk, phase] at ok
  rcases stepDPadChk_next h with ⟨-, -, rfl⟩ | ⟨-, rfl⟩
  · exact inv_completeError inv.buffers (by decide)
  · exact inv.goesOn phase inv.buffers ok

theorem dLoopInit_keeps_inv (phase : s.seq = .dLoopInit) (h : stepDLoopInit s = .next t) : t.Inv := by
  have ok := inv.datapath
  rw [State.DatapathOk, phase] at ok
  obtain ⟨opc, account⟩ := ok
  have ⟨_, _, nonempty, _⟩ := account
  cases h
  exact inv.goesOn phase inv.buffers
    ⟨opc, account, Nat.zero_le _, by simp, Nat.zero_le _, nonempty, rfl, writtenBelow_zero _⟩

theorem dLoad_keeps_inv (phase : s.seq = .dLoad) (h : stepDLoad s = .next t) : t.Inv := by
  have ok := inv.datapath
  rw [State.DatapathOk, phase] at ok
  obtain ⟨opc, loop⟩ := ok
  have fits := input_fits_of_running inv (by simp [phase])
  have ⟨account, most, held, loaded, due, bits, written⟩ := loop
  rcases stepDLoad_next h with ⟨eight, rfl⟩ | ⟨few, c, read, ⟨-, rfl⟩ | ⟨valid, -⟩⟩
  · exact inv.goesOn phase inv.buffers ⟨opc, loop, eight⟩
  · exact inv_completeError inv.buffers (by decide)
  · have left := content_left_of_few loop few
    have ⟨content, _⟩ := account
    rw [stepDLoad_of_read few (by omega) read, if_neg (by simp [valid])] at h
    cases h
    refine inv.goesOn phase inv.buffers ⟨opc, account, ?_⟩
    have value := (lutValue c).isLt
    have index := s.p.isLt
    have small : s.dAcc.toNat < 2 ^ 7 := held.trans_le (Nat.pow_le_pow_right (by norm_num) (by omega))
    have cnt : (BitVec.ofNat 4 (s.dCnt.toNat + 5)).toNat = s.dCnt.toNat + 5 := toNat_ofNat_of_lt (by omega)
    have i : (BitVec.ofNat 15 (s.i.toNat + 1)).toNat = s.i.toNat + 1 := toNat_ofNat_of_lt (by omega)
    have acc : (BitVec.ofNat 12 (32 * s.dAcc.toNat + (lutValue c).toNat)).toNat =
        32 * s.dAcc.toNat + (lutValue c).toNat := toNat_ofNat_of_lt (by omega)
    simp only [cnt, i, acc, Nat.pow_add]
    exact ⟨by omega, by omega, by omega, due, by omega, written⟩

theorem dExtract_keeps_inv (phase : s.seq = .dExtract) (h : stepDExtract s = .next t) : t.Inv := by
  have ok := inv.datapath
  rw [State.DatapathOk, phase] at ok
  obtain ⟨opc, loop, eight⟩ := ok
  have fits := input_fits_of_running inv (by simp [phase])
  have inside := output_inside_of_decoderOk loop fits
  obtain ⟨account, most, held, loaded, due, bits, written⟩ := loop
  have buffers : s.extracted.BuffersOk := inv.buffers.writeObuf _ inside
  have written' : writtenBelow s.extracted.obuf (s.o.toNat + 1) := writtenBelow_write written _
  rw [stepDExtract_of_eight eight held inside] at h
  split at h <;> cases h
  · next last =>
    refine inv_completeOk buffers ?_ (last ▸ written')
    show s.ol.toNat ≤ obufDepth s.depth
    omega
  · next more =>
    refine inv.goesOn phase buffers ⟨opc, account, ?_⟩
    have cnt : s.extracted.dCnt.toNat = s.dCnt.toNat - 8 := toNat_ofNat_of_lt ((Nat.sub_le _ _).trans_lt s.dCnt.isLt)
    have acc : s.extracted.dAcc.toNat = s.dAcc.toNat % 2 ^ (s.dCnt.toNat - 8) :=
      toNat_ofNat_of_lt ((Nat.mod_le _ _).trans_lt s.dAcc.isLt)
    have o : s.extracted.o.toNat = s.o.toNat + 1 := toNat_next_output inside
    simp only [cnt, acc, o]
    have bits' : 5 * s.i.toNat = 8 * (s.o.toNat + 1) + (s.dCnt.toNat - 8) := by omega
    exact ⟨by omega, Nat.mod_lt _ (by positivity), loaded, Nat.lt_of_le_of_ne due more, bits', written'⟩

theorem engineStep_keeps_inv (h : engineStep s = .next t) : t.Inv := by
  cases phase : s.seq with
  | idle => rw [engineStep_idle phase] at h; cases h; exact inv
  | eInit => exact eInit_keeps_inv inv phase (engineStep_eInit phase ▸ h)
  | eAppend => exact eAppend_keeps_inv inv phase (engineStep_eAppend phase ▸ h)
  | eExtract => exact eExtract_keeps_inv inv phase (engineStep_eExtract phase ▸ h)
  | eFlush => exact eFlush_keeps_inv inv phase (engineStep_eFlush phase ▸ h)
  | ePadInit => exact ePadInit_keeps_inv inv phase (engineStep_ePadInit phase ▸ h)
  | ePad => exact ePad_keeps_inv inv phase (engineStep_ePad phase ▸ h)
  | dInit => exact dInit_keeps_inv inv phase (engineStep_dInit phase ▸ h)
  | dScan => exact dScan_keeps_inv inv phase (engineStep_dScan phase ▸ h)
  | dAccount => exact dAccount_keeps_inv inv phase (engineStep_dAccount phase ▸ h)
  | dTail => exact dTail_keeps_inv inv phase (engineStep_dTail phase ▸ h)
  | dPadChk => exact dPadChk_keeps_inv inv phase (engineStep_dPadChk phase ▸ h)
  | dLoopInit => exact dLoopInit_keeps_inv inv phase (engineStep_dLoopInit phase ▸ h)
  | dLoad => exact dLoad_keeps_inv inv phase (engineStep_dLoad phase ▸ h)
  | dExtract => exact dExtract_keeps_inv inv phase (engineStep_dExtract phase ▸ h)
  | unused => rw [engineStep_unused phase] at h; cases h; exact inv

end Engine

/-! ## The host's step and the reset event -/

section Host
variable {s t : State} (inv : s.Inv)
include inv

/-- The invariant does not speak of what is the host's, nor of OVR. -/
theorem State.Inv.congr_host (ovr : Bool) (program : List HostOp) (turns : List Turn) (returned : List Word)
    (draws : Nat) :
    State.Inv { s with
      status := { s.status with ovr := ovr }
      program := program, turns := turns, returned := returned, draws := draws } :=
  ⟨inv.status, inv.buffers, inv.length, inv.datapath⟩

theorem State.Inv.withProgram (program : List HostOp) : State.Inv { s with program := program } :=
  inv.congr_host s.status.ovr program s.turns s.returned s.draws

theorem State.Inv.withTurns (turns : List Turn) : State.Inv { s with turns := turns } :=
  inv.congr_host s.status.ovr s.program turns s.returned s.draws

theorem inv_hostRead (a : Addr) : (hostRead a s).Inv :=
  inv.congr_host s.status.ovr s.program s.turns _ _

theorem inv_dropWrite : (dropWrite s).Inv :=
  inv.congr_host true s.program s.turns s.returned s.draws

theorem inv_startCommand (fits : s.inLen.toNat ≤ s.depth.val) {op : BitVec 2}
    (f : Bool) (known : op = 0b01#2 ∨ op = 0b10#2) : (startCommand op f (acceptCommand s)).Inv := by
  have latched : (BitVec.ofNat 15 s.inLen.toNat).toNat = s.inLen.toNat :=
    toNat_ofNat_of_lt (fits.trans_lt (s.depth.2.2.trans_lt (by norm_num)))
  rcases known with rfl | rfl
  · exact ⟨by simp [State.StatusOk], inv.buffers.acceptCommand, fun _ => latched.trans_le fits, rfl⟩
  · exact ⟨by simp [State.StatusOk], inv.buffers.acceptCommand, fun _ => latched.trans_le fits, rfl⟩

theorem cmdWriteOutcome_keeps_inv (outcome : CmdWriteOutcome s t) : t.Inv := by
  cases outcome with
  | dropped busy => exact inv_dropWrite inv
  | cleared idle =>
    have phase := seq_idle_of_not_busy inv idle
    refine ⟨by simp [State.StatusOk, phase], inv.buffers.acceptCommand, by simp, ?_⟩
    rw [State.DatapathOk, phase]
    trivial
  | failed idle c cause => exact inv_completeError inv.buffers.acceptCommand cause
  | started idle fits op f known => exact inv_startCommand inv fits f known

theorem writePlain_keeps_inv (a : Addr) (w : Word) : (writePlain a w s).Inv := by
  rcases writePlain_cases a w s with h | ⟨-, h⟩ | ⟨-, -, h⟩ | ⟨-, i, -, inside, h⟩ <;> rw [h]
  · exact inv
  · exact inv_dropWrite inv
  · exact ⟨inv.status, inv.buffers, inv.length, inv.datapath⟩
  · exact ⟨inv.status, inv.buffers.writeIbuf _ inside, inv.length, inv.datapath⟩

theorem hostStep_keeps_inv (h : hostStep s = .next t) : t.Inv := by
  rcases hostStep_cases s with ⟨-, hs⟩ | ⟨a, w, rest, -, hs⟩ | ⟨a, rest, -, hs⟩ | ⟨rest, -, hs⟩ <;> rw [hs] at h
  · cases h; exact inv
  · have inv := inv.withProgram rest
    rcases hostWrite_cases a w { s with program := rest } with ⟨-, hw⟩ | ⟨-, hw⟩ <;> rw [hw] at h
    · obtain ⟨u, hu, outcome⟩ := cmdWrite_outcome w { s with program := rest }
      rw [hu] at h
      cases h
      exact cmdWriteOutcome_keeps_inv inv outcome
    · cases h; exact writePlain_keeps_inv inv a w
  · cases h; exact inv_hostRead (inv.withProgram rest) a
  · cases h
    split
    · exact inv_hostRead inv _
    · exact inv_hostRead (inv.withProgram rest) _

end Host

/-- The reset values meet the invariant at every IBUF_DEPTH: no command runs, and the buffers are empty. -/
theorem inv_resetStep (s : State) : (resetStep s).Inv :=
  ⟨by simp [State.StatusOk, State.reset],
    ⟨Memory.nil_wf, Memory.nil_wf, fun _ h => absurd h List.not_mem_nil, fun _ h => absurd h List.not_mem_nil,
      Nat.zero_le _, writtenBelow_zero _⟩,
    by simp [State.reset], trivial⟩

theorem inv_reset : State.reset.Inv := by
  obtain ⟨status, -, length, datapath⟩ := inv_resetStep State.reset
  exact ⟨status, (inv_resetStep State.reset).buffers, length, datapath⟩

theorem step_keeps_inv {s t : State} (inv : s.Inv) (h : step s = .next t) : t.Inv := by
  rcases step_cases s with ⟨turn, ts, -, hs⟩ | ⟨-, -, hs⟩ | ⟨-, -, hs⟩ <;> rw [hs] at h
  · cases turn with
    | host => exact hostStep_keeps_inv (inv.withTurns ts) h
    | engine => exact engineStep_keeps_inv (inv.withTurns ts) h
    | reset => cases h; exact inv_resetStep _
  · exact engineStep_keeps_inv inv h
  · exact hostStep_keeps_inv inv h

end Sys2Proof.Machine

namespace Sys2Proof.Proofs

open Sys2Proof Sys2Proof.Machine

/-- Settles O42: no command runs after reset, and the buffers are empty. -/
theorem invariantHoldsAfterReset : Obligations.InvariantHoldsAfterReset := inv_reset

/-- Settles O43, agent by agent; the engine's step phase by phase. -/
theorem everyStepKeepsInvariant : Obligations.EveryStepKeepsInvariant := fun _ _ => step_keeps_inv

end Sys2Proof.Proofs

/-! PROOF. The buffer accesses of the engine, the faults and the refusals a step can end in, and the end of every
started command (20_memory.md R61; 70_reset_and_hazards.md R221, R226). -/

namespace Sys2Proof.Machine

/-! ## The entry that a micro-step reads or writes (20_memory.md R61) -/

/-- The IBUF entry that the engine's next step reads. -/
def State.readIndex (s : State) : Option Nat :=
  match s.seq with
  | .eAppend => if s.i.toNat < s.n.toNat then some s.i.toNat else none
  | .dScan => if 0 < s.p.toNat then some (s.p.toNat - 1) else none
  | .dTail => some (s.p.toNat - 1)
  | .dLoad => if 8 ≤ s.dCnt.toNat then none else some s.i.toNat
  | _ => none

/-- The OBUF entry that the engine's next step writes. -/
def State.writeIndex (s : State) : Option Nat :=
  match s.seq with
  | .eExtract => if 5 ≤ s.eCnt.toNat then some s.o.toNat else none
  | .eFlush => if 0 < s.eCnt.toNat then some s.o.toNat else none
  | .ePad => if 0 < s.padCnt.toNat then some s.o.toNat else none
  | .dExtract => some s.o.toNat
  | _ => none

/-- Why the engine's next step cannot go on. -/
inductive EngineFault (s : State) : Fault → Prop where
  | readOutside (j : Nat) (reads : s.readIndex = some j) (outside : s.depth.val ≤ j) : EngineFault s .bufferBounds
  | readUnwritten (j : Nat) (reads : s.readIndex = some j) (inside : j < s.depth.val)
      (unwritten : s.ibuf.read j = none) : EngineFault s .unwrittenInput
  | writeOutside (j : Nat) (writes : s.writeIndex = some j) (outside : obufDepth s.depth ≤ j) :
      EngineFault s .bufferBounds

/-- A step goes on, or faults for such a reason. -/
def GoesOnOrFaults (s : State) (r : Result) : Prop :=
  (∃ t, r = .next t) ∨ ∃ e, r = .fault e ∧ EngineFault s e

section Accesses
variable {s : State}

theorem goesOn_next (t : State) : GoesOnOrFaults s (.next t) := .inl ⟨t, rfl⟩

theorem goesOn_ite {c : Prop} [Decidable c] {r r' : Result} (h : c → GoesOnOrFaults s r)
    (h' : ¬c → GoesOnOrFaults s r') : GoesOnOrFaults s (if c then r else r') := by
  split
  · exact h ‹_›
  · exact h' ‹_›

theorem goesOn_withIbuf {j : Nat} (reads : s.readIndex = some j) {k : Byte → Result} (h : ∀ b, GoesOnOrFaults s (k b)) :
    GoesOnOrFaults s (withIbuf s j k) := by
  unfold withIbuf
  split
  · split
    · exact h _
    · exact .inr ⟨_, rfl, .readUnwritten j reads ‹_› ‹_›⟩
  · exact .inr ⟨_, rfl, .readOutside j reads (by omega)⟩

theorem goesOn_withObuf {j : Nat} (writes : s.writeIndex = some j) (b : Byte) {k : State → Result}
    (h : ∀ t, GoesOnOrFaults s (k t)) : GoesOnOrFaults s (withObuf s j b k) := by
  unfold withObuf
  split
  · exact h _
  · exact .inr ⟨_, rfl, .writeOutside j writes (by omega)⟩

/-- Every engine step goes on, but for an access outside its buffer or a read of an entry not written. -/
theorem engineStep_outcome (s : State) : GoesOnOrFaults s (engineStep s) := by
  cases phase : s.seq with
  | idle => rw [engineStep_idle phase]; exact goesOn_next _
  | eInit => rw [engineStep_eInit phase]; exact goesOn_next _
  | eAppend =>
    rw [engineStep_eAppend phase]
    exact goesOn_ite (fun more => goesOn_withIbuf (by simp [State.readIndex, phase, more]) fun b => goesOn_next _)
      fun _ => goesOn_next _
  | eExtract =>
    rw [engineStep_eExtract phase]
    exact goesOn_ite (fun five => goesOn_withObuf (by simp [State.writeIndex, phase, five]) _ fun t => goesOn_next _)
      fun _ => goesOn_next _
  | eFlush =>
    rw [engineStep_eFlush phase]
    exact goesOn_ite (fun left => goesOn_withObuf (by simp [State.writeIndex, phase, left]) _ fun t => goesOn_next _)
      fun _ => goesOn_next _
  | ePadInit => rw [engineStep_ePadInit phase]; exact goesOn_next _
  | ePad =>
    rw [engineStep_ePad phase]
    exact goesOn_ite (fun left => goesOn_withObuf (by simp [State.writeIndex, phase, left]) _ fun t => goesOn_next _)
      fun _ => goesOn_next _
  | dInit =>
    rw [engineStep_dInit phase]
    exact goesOn_ite (fun _ => goesOn_next _) fun _ => goesOn_next _
  | dScan =>
    rw [engineStep_dScan phase]
    exact goesOn_ite (fun left => goesOn_withIbuf (by simp [State.readIndex, phase, left]) fun c =>
      goesOn_ite (fun _ => goesOn_next _) fun _ => goesOn_next _) fun _ => goesOn_next _
  | dAccount =>
    rw [engineStep_dAccount phase]
    exact goesOn_ite (fun _ => goesOn_next _) fun _ => goesOn_ite (fun _ => goesOn_next _) fun _ => goesOn_next _
  | dTail =>
    rw [engineStep_dTail phase]
    exact goesOn_withIbuf (by simp [State.readIndex, phase]) fun c =>
      goesOn_ite (fun _ => goesOn_next _) fun _ => goesOn_ite (fun _ => goesOn_next _) fun _ => goesOn_next _
  | dPadChk =>
    rw [engineStep_dPadChk phase]
    exact goesOn_ite (fun _ => goesOn_next _) fun _ => goesOn_next _
  | dLoopInit => rw [engineStep_dLoopInit phase]; exact goesOn_next _
  | dLoad =>
    rw [engineStep_dLoad phase]
    exact goesOn_ite (fun _ => goesOn_next _) fun few =>
      goesOn_withIbuf (by simp [State.readIndex, phase, few]) fun c =>
        goesOn_ite (fun _ => goesOn_next _) fun _ => goesOn_next _
  | dExtract =>
    rw [engineStep_dExtract phase]
    exact goesOn_withObuf (by simp [State.writeIndex, phase])
      (BitVec.ofNat 8 (slice s.dAcc.toNat (s.dCnt.toNat - 1) (s.dCnt.toNat - 8))) fun t =>
      goesOn_ite (fun _ => goesOn_next _) fun _ => goesOn_next _
  | unused => rw [engineStep_unused phase]; exact goesOn_next _

theorem withIbuf_of_unwritten {j : Nat} (k : Byte → Result) (inside : j < s.depth.val)
    (unwritten : s.ibuf.read j = none) : withIbuf s j k = .fault .unwrittenInput := by
  simp [withIbuf, inside, unwritten]

/-- A micro-step that reads an entry not written stops there (70_reset_and_hazards.md R221; log 5). -/
theorem engineStep_of_unwritten {j : Nat} (reads : s.readIndex = some j) (inside : j < s.depth.val)
    (unwritten : s.ibuf.read j = none) : engineStep s = .fault .unwrittenInput := by
  unfold State.readIndex at reads
  split at reads
  · rw [engineStep_eAppend ‹_›, stepEAppend]
    split at reads <;> cases reads
    rw [if_pos ‹_›, withIbuf_of_unwritten _ inside unwritten]
  · rw [engineStep_dScan ‹_›, stepDScan]
    split at reads <;> cases reads
    rw [if_pos ‹_›, withIbuf_of_unwritten _ inside unwritten]
  · cases reads
    rw [engineStep_dTail ‹_›, stepDTail, withIbuf_of_unwritten _ inside unwritten]
  · rw [engineStep_dLoad ‹_›, stepDLoad]
    split at reads <;> cases reads
    rw [if_neg ‹_›, withIbuf_of_unwritten _ inside unwritten]
  · cases reads

/-! ## The invariant keeps every access inside its buffer -/

/-- The engine reads only entries of its input, all of which are inside IBUF. -/
theorem readIndex_lt_n (inv : s.Inv) {j : Nat} (reads : s.readIndex = some j) :
    j < s.n.toNat ∧ s.n.toNat ≤ s.depth.val := by
  unfold State.readIndex at reads
  split at reads
  · next phase =>
    split at reads <;> cases reads
    exact ⟨‹_›, input_fits_of_running inv (by simp [phase])⟩
  · next phase =>
    split at reads <;> cases reads
    have ok := inv.datapath
    rw [State.DatapathOk, phase] at ok
    obtain ⟨-, -, stripped⟩ := ok
    exact ⟨by omega, input_fits_of_running inv (by simp [phase])⟩
  · next phase =>
    cases reads
    obtain ⟨stripped, lengths, nonempty, -⟩ := accountOk_of_phase inv (.inl phase)
    exact ⟨by omega, input_fits_of_running inv (by simp [phase])⟩
  · next phase =>
    split at reads <;> cases reads
    have ok := decoderOk_of_dLoad inv phase
    have left := content_left_of_few ok (by omega)
    obtain ⟨⟨stripped, -⟩, -⟩ := ok
    exact ⟨by omega, input_fits_of_running inv (by simp [phase])⟩
  · cases reads

theorem writeIndex_lt_obufDepth (inv : s.Inv) {j : Nat} (writes : s.writeIndex = some j) : j < obufDepth s.depth := by
  unfold State.writeIndex at writes
  split at writes
  · next phase =>
    split at writes <;> cases writes
    have fits := input_fits_of_running inv (by simp [phase])
    exact output_inside_of_bits (encoderOk_of_eExtract inv phase) fits (by omega)
  · next phase =>
    split at writes <;> cases writes
    obtain ⟨ok, -⟩ := encoderOk_of_eFlush inv phase
    exact output_inside_of_bits ok (input_fits_of_running inv (by simp [phase])) ‹_›
  · next phase =>
    split at writes <;> cases writes
    have total := output_add_padding_of_ePad inv phase
    have holds := encodedLength_le_obufDepth s.flag (input_fits_of_running inv (by simp [phase]))
    omega
  · next phase =>
    cases writes
    obtain ⟨ok, -⟩ := decoderOk_of_dExtract inv phase
    exact output_inside_of_decoderOk ok (input_fits_of_running inv (by simp [phase]))
  · cases writes

/-- So the one fault left is that of an input entry not written. -/
theorem engineStep_fault (inv : s.Inv) {r : Fault} (h : engineStep s = .fault r) :
    r = .unwrittenInput ∧ ∃ j, j < s.n.toNat ∧ s.ibuf.read j = none := by
  rcases engineStep_outcome s with ⟨t, ht⟩ | ⟨e, he, reason⟩
  · rw [ht] at h; cases h
  · rw [he] at h
    cases h
    cases reason with
    | readOutside j reads outside =>
      obtain ⟨input, fits⟩ := readIndex_lt_n inv reads
      omega
    | readUnwritten j reads inside unwritten =>
      obtain ⟨input, -⟩ := readIndex_lt_n inv reads
      exact ⟨rfl, j, input, unwritten⟩
    | writeOutside j writes outside => exact absurd (writeIndex_lt_obufDepth inv writes) (Nat.not_lt.mpr outside)

theorem engineStep_not_refused (s : State) (r : Refusal) : engineStep s ≠ .refused r := by
  rcases engineStep_outcome s with ⟨t, ht⟩ | ⟨e, he, -⟩
  · rw [ht]; exact nofun
  · rw [he]; exact nofun

/-- With all its input written, the engine goes on. -/
theorem engineStep_next_of_written (inv : s.Inv) (written : ∀ j, j < s.n.toNat → s.ibuf.read j ≠ none) :
    ∃ t, engineStep s = .next t := by
  rcases engineStep_outcome s with next | ⟨e, he, -⟩
  · exact next
  · obtain ⟨-, j, input, unwritten⟩ := engineStep_fault inv he
    exact absurd unwritten (written j input)

/-- A step that does not go on is the engine's. -/
theorem step_stops {r : Result} (h : step s = r) (stops : ∀ t, r ≠ .next t) :
    ∃ ts, engineStep { s with turns := ts } = r := by
  have hostGoesOn (v : State) : hostStep v ≠ r := by
    obtain ⟨t, ht⟩ := hostStep_next v
    exact fun same => stops t (same ▸ ht)
  rcases step_cases s with ⟨turn, ts, -, hs⟩ | ⟨-, -, hs⟩ | ⟨-, -, hs⟩ <;> rw [hs] at h
  · cases turn with
    | host => exact absurd h (hostGoesOn _)
    | engine => exact ⟨ts, h⟩
    | reset => exact absurd h.symm (stops _)
  · exact ⟨s.turns, h⟩
  · exact absurd h (hostGoesOn s)

end Accesses

/-! ## Runs of a command that nothing interleaves (70_reset_and_hazards.md R227) -/

/-- `k` steps lead from `s` to `t`, each of them with a command running before it. -/
inductive BusyRun : Nat → State → State → Prop where
  | done (s : State) : BusyRun 0 s s
  | step {k : Nat} {s t u : State} (busy : s.status.busy = true) (first : Machine.step s = .next t)
      (rest : BusyRun k t u) : BusyRun (k + 1) s u

theorem BusyRun.trans {k l : Nat} {s t u : State} (h : BusyRun k s t) (h' : BusyRun l t u) : BusyRun (k + l) s u := by
  induction h with
  | done s => rwa [Nat.zero_add]
  | step busy first rest ih => rw [Nat.add_right_comm]; exact .step busy first (ih h')

theorem BusyRun.single {s t : State} (busy : s.status.busy = true) (first : Machine.step s = .next t) : BusyRun 1 s t :=
  .step busy first (.done t)

/-- A run that ends with no command running is a completion. -/
theorem BusyRun.completesIn {k : Nat} {s u : State} (h : BusyRun k s u) (ended : u.status.busy = false) :
    s.CompletesIn k u := by
  induction h with
  | done s => exact ⟨rfl, ended, fun j hj => absurd hj (Nat.not_lt_zero j)⟩
  | step busy first rest ih =>
    obtain ⟨last, -, before⟩ := ih ended
    refine ⟨by rw [runSteps_succ first, last], ended, fun j hj => ?_⟩
    cases j with
    | zero => exact ⟨_, rfl, busy⟩
    | succ j => rw [runSteps_succ first]; exact before j (Nat.lt_of_succ_lt_succ hj)

/-! ## Every started command ends (70_reset_and_hazards.md R226) -/

/-- A bound on the engine steps left: what each phase takes until the next, and for the loops 20 a byte or character
still to take, and what the bits held take. -/
def State.stepsLeft (s : State) : Nat :=
  match s.seq with
  | .idle => 0
  | .eInit => 20 * s.n.toNat + 11
  | .eAppend => 20 * (s.n.toNat - s.i.toNat) + 10
  | .eExtract => 20 * (s.n.toNat - s.i.toNat) + s.eCnt.toNat + 11
  | .eFlush => 9
  | .ePadInit => 8
  | .ePad => s.padCnt.toNat
  | .dInit => 20 * s.n.toNat + 7
  | .dScan => 20 * s.p.toNat + 6
  | .dAccount => 20 * s.p.toNat + 5
  | .dTail => 20 * s.p.toNat + 4
  | .dPadChk => 20 * s.p.toNat + 3
  | .dLoopInit => 20 * s.p.toNat + 2
  | .dLoad => 20 * (s.p.toNat - s.i.toNat) + 2 * s.dCnt.toNat + 1
  | .dExtract => 20 * (s.p.toNat - s.i.toNat) + 2 * s.dCnt.toNat
  | .unused => 0

/-- An engine step ends the command or brings its end nearer. -/
theorem engineStep_progress {s t : State} (inv : s.Inv) (running : s.seq ≠ .idle) (h : engineStep s = .next t) :
    t.seq = .idle ∨ t.stepsLeft < s.stepsLeft := by
  obtain ⟨-, used, -⟩ := inv.status
  cases phase : s.seq with
  | idle => exact absurd phase running
  | unused => exact absurd phase used
  | eInit =>
    rw [engineStep_eInit phase] at h
    cases h
    right
    simp [State.stepsLeft, phase]
  | eAppend =>
    obtain ⟨few, -⟩ := encoderOk_of_eAppend inv phase
    rcases stepEAppend_next (engineStep_eAppend phase ▸ h) with ⟨more, -, _, -, rfl⟩ | ⟨-, rfl⟩
    all_goals
      right
      simp only [State.stepsLeft, phase, BitVec.toNat_ofNat]
      omega
  | eExtract =>
    rcases stepEExtract_next (engineStep_eExtract phase ▸ h) with ⟨five, -, rfl⟩ | ⟨-, rfl⟩
    all_goals
      right
      simp only [State.stepsLeft, phase, BitVec.toNat_ofNat]
      omega
  | eFlush =>
    rcases stepEFlush_next (engineStep_eFlush phase ▸ h) with ⟨-, -, rfl⟩ | ⟨-, rfl⟩
    all_goals
      right
      simp [State.stepsLeft, phase]
  | ePadInit =>
    rw [engineStep_ePadInit phase] at h
    cases h
    right
    simp only [State.stepsLeft, phase]
    exact BitVec.isLt _
  | ePad =>
    rcases stepEPad_next (engineStep_ePad phase ▸ h) with ⟨left, -, rfl⟩ | ⟨-, rfl⟩
    · right
      simp only [State.stepsLeft, phase, BitVec.toNat_ofNat]
      omega
    · exact .inl rfl
  | dInit =>
    rcases stepDInit_next (engineStep_dInit phase ▸ h) with ⟨-, rfl⟩ | ⟨-, rfl⟩
    · exact .inl rfl
    · right
      simp [State.stepsLeft, phase]
  | dScan =>
    rcases stepDScan_next (engineStep_dScan phase ▸ h) with ⟨left, -, rfl⟩ | ⟨-, -, rfl⟩ | ⟨-, rfl⟩
    all_goals
      right
      simp only [State.stepsLeft, phase, BitVec.toNat_ofNat]
      omega
  | dAccount =>
    obtain ⟨_, rfl, ⟨-, rfl⟩ | ⟨-, -, rfl⟩ | ⟨-, -, rfl⟩⟩ := stepDAccount_next (engineStep_dAccount phase ▸ h)
    · exact .inl rfl
    · exact .inl rfl
    · right
      simp [State.stepsLeft, phase]
  | dTail =>
    obtain ⟨_, -, ⟨-, rfl⟩ | ⟨-, -, rfl⟩ | ⟨-, -, rfl⟩⟩ := stepDTail_next (engineStep_dTail phase ▸ h)
    · exact .inl rfl
    · exact .inl rfl
    · right
      simp [State.stepsLeft, phase]
  | dPadChk =>
    rcases stepDPadChk_next (engineStep_dPadChk phase ▸ h) with ⟨-, -, rfl⟩ | ⟨-, rfl⟩
    · exact .inl rfl
    · right
      simp [State.stepsLeft, phase]
  | dLoopInit =>
    rw [engineStep_dLoopInit phase] at h
    cases h
    right
    simp [State.stepsLeft, phase]
  | dLoad =>
    have left := content_left_of_few (decoderOk_of_dLoad inv phase)
    rcases stepDLoad_next (engineStep_dLoad phase ▸ h) with ⟨-, rfl⟩ | ⟨few, _, -, ⟨-, rfl⟩ | ⟨-, rfl⟩⟩
    · right
      simp [State.stepsLeft, phase]
    · exact .inl rfl
    · right
      have left := left few
      simp only [State.stepsLeft, phase, BitVec.toNat_ofNat]
      omega
  | dExtract =>
    obtain ⟨-, eight⟩ := decoderOk_of_dExtract inv phase
    obtain ⟨-, _, rfl, ⟨-, rfl⟩ | ⟨-, rfl⟩⟩ := stepDExtract_next (engineStep_dExtract phase ▸ h)
    · exact .inl rfl
    · right
      simp only [State.stepsLeft, phase, BitVec.toNat_ofNat]
      omega

/-- From a state of the invariant with all its input written, a run of the engine alone ends. By induction over the
bound on the steps left. -/
theorem exists_busyRun_to_end (bound : Nat) : ∀ s : State, s.stepsLeft < bound → s.Inv → s.turns = [] →
    (∀ j, j < s.n.toNat → s.ibuf.read j ≠ none) → ∃ k u, BusyRun k s u ∧ u.status.busy = false := by
  induction bound with
  | zero => exact fun s small => absurd small (Nat.not_lt_zero _)
  | succ bound ih =>
    intro s small inv turns written
    cases busy : s.status.busy with
    | false => exact ⟨0, s, .done s, busy⟩
    | true =>
      obtain ⟨running, used, -⟩ := inv.status
      obtain ⟨t, ht⟩ := engineStep_next_of_written inv written
      have stepped : step s = .next t :=
        (step_of_engine_enabled turns (engineEnabled_of_phase (running.mp busy) used)).trans ht
      have frame := engineStep_frame ht
      have invT := engineStep_keeps_inv inv ht
      rcases engineStep_progress inv (running.mp busy) ht with ended | nearer
      · obtain ⟨runningT, -⟩ := invT.status
        have idle : t.status.busy = false := Bool.eq_false_of_not_eq_true fun b => runningT.mp b ended
        exact ⟨1, t, .single busy stepped, idle⟩
      · obtain ⟨k, u, run, ended⟩ := ih t (by omega) invT (by rw [frame, turns]) (by rw [frame]; exact written)
        exact ⟨k + 1, u, .step busy stepped run, ended⟩

end Sys2Proof.Machine

namespace Sys2Proof.Proofs

open Sys2Proof Sys2Proof.Machine

/-- Settles O44: the faulting step is the engine's, whose accesses the invariant keeps inside their buffers. -/
theorem noEngineAccessOutsideItsBuffer : Obligations.NoEngineAccessOutsideItsBuffer := by
  intro s inv h
  obtain ⟨ts, stopped⟩ := step_stops h (by simp)
  obtain ⟨unwritten, -⟩ := engineStep_fault (inv.withTurns ts) stopped
  cases unwritten

/-- Settles O45, by the engine's faults under the invariant, and by the entry each reading micro-step reads. -/
theorem onlyUnwrittenInputFaults : Obligations.OnlyUnwrittenInputFaults := by
  refine ⟨fun s r inv h => ?_, fun s inv reading => ?_⟩
  · obtain ⟨ts, stopped⟩ := step_stops h (by simp)
    exact engineStep_fault (inv.withTurns ts) stopped
  · obtain ⟨j, reads, unwritten⟩ : ∃ j, s.readIndex = some j ∧ s.ibuf.read j = none := by
      rcases reading with ⟨phase, more, unwritten⟩ | ⟨phase, left, unwritten⟩ | ⟨phase, unwritten⟩ |
        ⟨phase, few, unwritten⟩
      · exact ⟨_, by simp [State.readIndex, phase, more], unwritten⟩
      · exact ⟨_, by simp [State.readIndex, phase, left], unwritten⟩
      · exact ⟨_, by simp [State.readIndex, phase], unwritten⟩
      · exact ⟨_, by simp [State.readIndex, phase, Nat.not_le.mpr few], unwritten⟩
    obtain ⟨input, fits⟩ := readIndex_lt_n inv reads
    exact engineStep_of_unwritten reads (input.trans_le fits) unwritten

/-- Settles O46: host steps and resets go on, and so does the engine but for a fault. -/
theorem noStepIsRefused : Obligations.NoStepIsRefused := by
  intro s r h
  obtain ⟨ts, stopped⟩ := step_stops h (by simp)
  exact engineStep_not_refused _ r stopped

/-- Settles O52: each engine step brings the end nearer, and none faults. -/
theorem everyStartedCommandEnds : Obligations.EveryStartedCommandEnds := by
  intro s inv turns written
  obtain ⟨k, u, run, ended⟩ := exists_busyRun_to_end _ s (Nat.lt_succ_self _) inv turns written
  exact ⟨k, u, run.completesIn ended⟩

end Sys2Proof.Proofs

/-! PROOF. The closed forms as bit strings: fields, the two pipelines' bit strings, the length of an encoding and the
round trip (41_encoder.md R137, R141, R142; 42_decoder.md R175, R178). -/

namespace Sys2Proof.Machine

/-! ## Fields of a bit string (20_memory.md R56) -/

section Fields
variable (B : List Bool)

@[simp] theorem fieldValue_zero (start : Nat) : fieldValue B start 0 = 0 := rfl

theorem fieldValue_succ (start width : Nat) :
    fieldValue B start (width + 1) = 2 * fieldValue B start width + (B.getD (start + width) false).toNat := by
  simp [fieldValue, List.range_succ]

/-- A field in two parts: the first is the more significant. -/
theorem fieldValue_add (start a b : Nat) :
    fieldValue B start (a + b) = fieldValue B start a * 2 ^ b + fieldValue B (start + a) b := by
  induction b with
  | zero => simp
  | succ b ih =>
    rw [← Nat.add_assoc, fieldValue_succ, ih, fieldValue_succ, Nat.add_assoc start a b, Nat.pow_succ]
    ring

theorem fieldValue_lt (start width : Nat) : fieldValue B start width < 2 ^ width := by
  induction width with
  | zero => simp
  | succ width ih =>
    have bit := Bool.toNat_le (B.getD (start + width) false)
    rw [fieldValue_succ, Nat.pow_succ]
    omega

/-- The first bits of a field are a quotient. -/
theorem fieldValue_div (start : Nat) {width a : Nat} (h : a ≤ width) :
    fieldValue B start width / 2 ^ (width - a) = fieldValue B start a := by
  obtain ⟨b, rfl⟩ := Nat.exists_eq_add_of_le h
  rw [fieldValue_add, Nat.add_sub_cancel_left, Nat.mul_comm, Nat.mul_add_div (by positivity),
    Nat.div_eq_of_lt (fieldValue_lt B _ b), Nat.add_zero]

/-- The other bits are its remainder. -/
theorem fieldValue_mod (start : Nat) {width a : Nat} (h : a ≤ width) :
    fieldValue B start width % 2 ^ (width - a) = fieldValue B (start + a) (width - a) := by
  obtain ⟨b, rfl⟩ := Nat.exists_eq_add_of_le h
  rw [fieldValue_add, Nat.add_sub_cancel_left, Nat.mul_add_mod_self_right, Nat.mod_eq_of_lt (fieldValue_lt B _ b)]

/-- The bits of a field are those of the string. -/
theorem testBit_fieldValue (start : Nat) {width j : Nat} (h : j < width) :
    (fieldValue B start width).testBit (width - 1 - j) = B.getD (start + j) false := by
  induction width with
  | zero => exact absurd h (Nat.not_lt_zero j)
  | succ width ih =>
    rw [fieldValue_succ]
    rcases Nat.lt_or_eq_of_le (Nat.le_of_lt_succ h) with inner | rfl
    · have place : width + 1 - 1 - j = width - 1 - j + 1 := by omega
      have half (v : Nat) (b : Bool) : (2 * v + b.toNat) / 2 = v := by
        have := Bool.toNat_le b
        omega
      rw [place, Nat.testBit_succ, half, ih inner]
    · cases B.getD (start + j) false <;> simp

variable {B} {B' : List Bool}

theorem fieldValue_congr {start start' width : Nat}
    (same : ∀ j < width, B.getD (start + j) false = B'.getD (start' + j) false) :
    fieldValue B start width = fieldValue B' start' width := by
  induction width with
  | zero => rfl
  | succ width ih =>
    rw [fieldValue_succ, fieldValue_succ, ih fun j hj => same j (Nat.lt_succ_of_lt hj), same width (Nat.lt_succ_self _)]

/-- A field with the bits of a number that fits it is that number. -/
theorem fieldValue_eq_of_testBit {start width v : Nat} (fits : v < 2 ^ width)
    (bits : ∀ j < width, B.getD (start + j) false = v.testBit (width - 1 - j)) : fieldValue B start width = v := by
  apply Nat.eq_of_testBit_eq
  intro k
  by_cases inside : k < width
  · have place : width - 1 - (width - 1 - k) = k := by omega
    rw [← place, testBit_fieldValue B start (by omega), bits _ (by omega)]
  · have above : 2 ^ width ≤ 2 ^ k := Nat.pow_le_pow_right (by norm_num) (Nat.not_lt.mp inside)
    rw [Nat.testBit_lt_two_pow ((fieldValue_lt B start width).trans_le above),
      Nat.testBit_lt_two_pow (fits.trans_le above)]

theorem fieldValue_eq_zero_iff {start width : Nat} :
    fieldValue B start width = 0 ↔ ∀ j < width, B.getD (start + j) false = false := by
  constructor
  · intro zero j hj
    rw [← testBit_fieldValue B start hj, zero, Nat.zero_testBit]
  · intro zero
    exact fieldValue_eq_of_testBit (by positivity) fun j hj => by rw [zero j hj, Nat.zero_testBit]

/-- A field that reaches into zeros is its first bits, filled with zeros below. -/
theorem fieldValue_zeroFilled {start a width : Nat} (h : a ≤ width)
    (zeros : ∀ k, start + a ≤ k → B.getD k false = false) :
    fieldValue B start width = fieldValue B start a * 2 ^ (width - a) := by
  obtain ⟨b, rfl⟩ := Nat.exists_eq_add_of_le h
  rw [fieldValue_add, Nat.add_sub_cancel_left,
    fieldValue_eq_zero_iff.mpr fun j _ => zeros _ (Nat.le_add_right (start + a) j), Nat.add_zero]

/-- Strings with the same fields of one width have the same bits as far as the fields reach. -/
theorem getD_eq_of_fields {width count : Nat}
    (same : ∀ i < count, fieldValue B (width * i) width = fieldValue B' (width * i) width) {k : Nat}
    (h : k < width * count) : B.getD k false = B'.getD k false := by
  have positive : 0 < width := Nat.pos_of_ne_zero fun zero => by simp [zero] at h
  have inside := Nat.mod_lt k positive
  rw [← Nat.div_add_mod k width, ← testBit_fieldValue B _ inside, ← testBit_fieldValue B' _ inside,
    same _ (Nat.div_lt_of_lt_mul h)]

end Fields

/-! ## Strings made of numbers of one width -/

section Strings
variable {α : Type} (width : Nat) (g : α → Nat)

@[simp] theorem length_bitsMsbFirst (v : Nat) : (bitsMsbFirst width v).length = width := by
  simp [bitsMsbFirst]

theorem getD_bitsMsbFirst {v j : Nat} (h : j < width) :
    (bitsMsbFirst width v).getD j false = v.testBit (width - 1 - j) := by
  simp [bitsMsbFirst, List.getD, h]

theorem length_flatMap_bits (xs : List α) :
    (xs.flatMap fun a => bitsMsbFirst width (g a)).length = width * xs.length := by
  simp [List.length_flatMap, Nat.mul_comm]

theorem getD_flatMap_bits (xs : List α) (rest : List Bool) {i j : Nat} (hi : i < xs.length) (hj : j < width) :
    ((xs.flatMap fun a => bitsMsbFirst width (g a)) ++ rest).getD (width * i + j) false =
      (g xs[i]).testBit (width - 1 - j) := by
  induction xs generalizing i with
  | nil => exact absurd hi (Nat.not_lt_zero i)
  | cons x xs ih =>
    rw [List.flatMap_cons, List.append_assoc]
    cases i with
    | zero =>
      rw [List.getD_append _ _ _ _ (by simpa using hj)]
      simpa using getD_bitsMsbFirst width hj
    | succ i =>
      have place : width * (i + 1) + j = width + (width * i + j) := by ring
      rw [List.getD_append_right _ _ _ _ (by simp [place]), length_bitsMsbFirst, place, Nat.add_sub_cancel_left]
      exact ih (Nat.lt_of_succ_lt_succ hi)

/-- Field by field such a string gives the numbers back. -/
theorem fieldValue_flatMap_bits (xs : List α) (rest : List Bool) {i : Nat} (hi : i < xs.length)
    (fits : g xs[i] < 2 ^ width) :
    fieldValue ((xs.flatMap fun a => bitsMsbFirst width (g a)) ++ rest) (width * i) width = g xs[i] :=
  fieldValue_eq_of_testBit fits fun _ hj => getD_flatMap_bits width g xs rest hi hj

end Strings

/-! ## The bit string of an ENCODE (41_encoder.md R141) -/

theorem fieldValue_encodeBits (x : List Byte) {i : Nat} (hi : i < x.length) :
    fieldValue (encodeBits x) (8 * i) 8 = x[i].toNat :=
  fieldValue_flatMap_bits 8 BitVec.toNat x _ hi x[i].isLt

/-- After the input's bits come zeros. -/
theorem encodeBits_beyond (x : List Byte) {k : Nat} (h : 8 * x.length ≤ k) : (encodeBits x).getD k false = false := by
  rw [encodeBits, List.getD_append_right _ _ _ _ (by rw [length_flatMap_bits]; exact h)]
  simp [List.getD, List.getElem?_replicate]
  split <;> rfl

/-! ## The content of a text (42_decoder.md R161) -/

theorem contentLength_le (t : List Byte) : contentLength t ≤ t.length := Nat.sub_le _ _

/-- A trailing padding character is not content. -/
theorem contentLength_append_padding (t : List Byte) : contentLength (t ++ [padCode]) = contentLength t := by
  simp [contentLength]

/-- A text that ends in another character is all content. -/
theorem contentLength_append_content (t : List Byte) {c : Byte} (content : c ≠ padCode) :
    contentLength (t ++ [c]) = t.length + 1 := by
  simp [contentLength, content]

theorem contentLength_append_replicate (t : List Byte) (m : Nat) :
    contentLength (t ++ List.replicate m padCode) = contentLength t := by
  induction m with
  | zero => simp
  | succ m ih => rw [List.replicate_succ', ← List.append_assoc, contentLength_append_padding, ih]

theorem contentLength_of_no_padding (t : List Byte) (content : ∀ c ∈ t, c ≠ padCode) : contentLength t = t.length := by
  cases t using List.reverseRecOn with
  | nil => rfl
  | append_singleton t c => rw [contentLength_append_content t (content c (by simp))]; simp

/-- A text is its content and then padding only. -/
theorem content_append_padding (t : List Byte) :
    t.take (contentLength t) ++ List.replicate (t.length - contentLength t) padCode = t := by
  induction t using List.reverseRecOn with
  | nil => rfl
  | append_singleton t c ih =>
    by_cases padding : c = padCode
    · subst padding
      have shorter := contentLength_le t
      rw [contentLength_append_padding, List.take_append_of_le_length shorter, List.length_append,
        List.length_singleton, Nat.succ_sub shorter, List.replicate_succ', ← List.append_assoc, ih]
    · rw [contentLength_append_content t padding]
      simp

/-- The content of a content is all of it. -/
theorem contentLength_take (t : List Byte) : contentLength (t.take (contentLength t)) = contentLength t := by
  conv_rhs => rw [← content_append_padding t, contentLength_append_replicate]

/-! ## The bit string of a DECODE (42_decoder.md R178) -/

section Content
variable {t : List Byte}

/-- Field by field the bit string gives the values of the content symbols. -/
theorem fieldValue_contentBits {content : List Byte} (h : t.take (contentLength t) = content) {i : Nat}
    (hi : i < content.length) : fieldValue (contentBits t) (5 * i) 5 = (lutValue content[i]).toNat := by
  subst h
  have field := fieldValue_flatMap_bits 5 (fun c => (lutValue c).toNat) _ [] hi (BitVec.isLt _)
  rwa [List.append_nil] at field

theorem length_content : (t.take (contentLength t)).length = contentLength t := by
  rw [List.length_take, Nat.min_eq_left (contentLength_le t)]

theorem fieldValue_contentBits_getD {i : Nat} (hi : i < contentLength t) :
    fieldValue (contentBits t) (5 * i) 5 = (lutValue (t.getD i 0)).toNat := by
  rw [fieldValue_contentBits rfl (by rwa [length_content]), List.getElem_take, List.getD_eq_getElem]

theorem contentBits_beyond {k : Nat} (h : 5 * contentLength t ≤ k) : (contentBits t).getD k false = false := by
  rw [contentBits, List.getD_eq_default]
  rwa [length_flatMap_bits, length_content]

/-- The low `tail` bits of the last symbol's value are the last bits of the content. -/
theorem tailBits_eq {tail : Nat} (small : tail ≤ 5) (nonempty : 0 < contentLength t) :
    (lutValue (t.getD (contentLength t - 1) 0)).toNat % 2 ^ tail =
      fieldValue (contentBits t) (5 * contentLength t - tail) tail := by
  have inside : contentLength t - 1 < contentLength t := by omega
  have width : 5 - (5 - tail) = tail := by omega
  have place : 5 * (contentLength t - 1) + (5 - tail) = 5 * contentLength t - tail := by omega
  have split := fieldValue_mod (contentBits t) (5 * (contentLength t - 1)) (Nat.sub_le 5 tail)
  rwa [width, place, fieldValue_contentBits_getD inside] at split

end Content

/-! ## The symbols of an encoding (41_encoder.md R141, R142) -/

/-- The symbols of an encoding, without its padding. -/
def encodedSymbols (x : List Byte) : List Byte :=
  (List.range (symbolCount x.length)).map fun k => romAlpha (BitVec.ofNat 5 (fieldValue (encodeBits x) (5 * k) 5))

/-- How many padding characters end an encoding. -/
def paddingCount (n : Nat) (f : Bool) : Nat := if f then 8 * ceilDiv n 5 - symbolCount n else 0

theorem encodeText_eq (x : List Byte) (f : Bool) :
    encodeText x f = encodedSymbols x ++ List.replicate (paddingCount x.length f) padCode := by
  cases f <;> simp [encodeText, encodedSymbols, paddingCount]

@[simp] theorem length_encodedSymbols (x : List Byte) : (encodedSymbols x).length = symbolCount x.length := by
  simp [encodedSymbols]

theorem getElem_encodedSymbols (x : List Byte) {k : Nat} (h : k < (encodedSymbols x).length) :
    (encodedSymbols x)[k] = romAlpha (BitVec.ofNat 5 (fieldValue (encodeBits x) (5 * k) 5)) := by
  simp [encodedSymbols]

theorem exists_romAlpha_of_mem {x : List Byte} {c : Byte} (h : c ∈ encodedSymbols x) : ∃ v, c = romAlpha v := by
  obtain ⟨k, -, rfl⟩ := List.mem_map.mp h
  exact ⟨_, rfl⟩

/-- Padding is not in the alphabet, so no symbol is padding. -/
theorem romAlpha_ne_padCode (v : BitVec 5) : romAlpha v ≠ padCode := by
  intro same
  have valid := lutValid_romAlpha v
  rw [same] at valid
  exact absurd valid (by decide)

theorem contentLength_encodeText (x : List Byte) (f : Bool) :
    contentLength (encodeText x f) = symbolCount x.length := by
  rw [encodeText_eq, contentLength_append_replicate, contentLength_of_no_padding, length_encodedSymbols]
  intro c h
  obtain ⟨v, rfl⟩ := exists_romAlpha_of_mem h
  exact romAlpha_ne_padCode v

theorem take_encodeText (x : List Byte) (f : Bool) :
    (encodeText x f).take (contentLength (encodeText x f)) = encodedSymbols x := by
  rw [contentLength_encodeText, encodeText_eq, List.take_left' (length_encodedSymbols x)]

theorem symbolCount_le (n : Nat) : symbolCount n ≤ 8 * ceilDiv n 5 := by
  unfold symbolCount ceilDiv
  omega

/-- The symbols and the padding of an encoding (41_encoder.md R137). -/
theorem length_encodeText (x : List Byte) (f : Bool) : (encodeText x f).length = encodedLength x.length f := by
  have le := symbolCount_le x.length
  rw [encodeText_eq, List.length_append, length_encodedSymbols, List.length_replicate, paddingCount, encodedLength]
  split <;> omega

/-- Without padding an encoding is its symbols. -/
theorem encodeText_false (x : List Byte) : encodeText x false = encodedSymbols x := by
  simp [encodeText_eq, paddingCount]

/-! ## When a text is accepted, and what it then decodes to (42_decoder.md R178) -/

/-- The bytes of a text's content. -/
def decodedBytes (t : List Byte) : List Byte :=
  (List.range (5 * contentLength t / 8)).map fun k => BitVec.ofNat 8 (fieldValue (contentBits t) (8 * k) 8)

/-- What DECODE checks of a text that is not empty. -/
structure Accepts (t : List Byte) (f : Bool) : Prop where
  nonempty : 5 * contentLength t / 8 ≠ 0
  tail : 5 * contentLength t % 8 < 5
  valid : ∀ c ∈ t.take (contentLength t), lutValid c = true
  zero : (lutValue (t.getD (contentLength t - 1) 0)).toNat % 2 ^ (5 * contentLength t % 8) = 0
  padding : f = true → t.length - contentLength t = (padTabM (missingBytes (5 * contentLength t / 8))).toNat

@[simp] theorem length_decodedBytes (t : List Byte) : (decodedBytes t).length = 5 * contentLength t / 8 := by
  simp [decodedBytes]

theorem getElem_decodedBytes (t : List Byte) {k : Nat} (h : k < (decodedBytes t).length) :
    (decodedBytes t)[k] = BitVec.ofNat 8 (fieldValue (contentBits t) (8 * k) 8) := by
  simp [decodedBytes]

theorem last_mem_content {t : List Byte} (nonempty : 0 < contentLength t) :
    t.getD (contentLength t - 1) 0 ∈ t.take (contentLength t) := by
  have fits := contentLength_le t
  rw [List.getD_eq_getElem _ _ (by omega), List.mem_take_iff_getElem]
  exact ⟨contentLength t - 1, by omega, rfl⟩

/-- The checks of a text that is not empty, in their order. -/
theorem decodeText_of_text {t : List Byte} (text : t ≠ []) (f : Bool) :
    decodeText t f =
      if 5 * contentLength t / 8 = 0 then .error .tooShort
      else if 5 ≤ 5 * contentLength t % 8 then .error .redundantTrailingSymbol
      else if lutValid (t.getD (contentLength t - 1) 0) = false then .error .invalidCharacter
      else if (lutValue (t.getD (contentLength t - 1) 0)).toNat % 2 ^ (5 * contentLength t % 8) ≠ 0 then
        .error .nonzeroTailBits
      else if f = true ∧ t.length - contentLength t ≠ (padTabM (missingBytes (5 * contentLength t / 8))).toNat then
        .error .invalidPaddingLength
      else if ∃ c ∈ t.take (contentLength t), lutValid c = false then .error .invalidCharacter
      else .ok (decodedBytes t) := by
  have long : t.length ≠ 0 := fun h => text (List.length_eq_zero_iff.mp h)
  simp only [decodeText, long, if_false, and_mask, List.any_eq_true, Bool.not_eq_true', decodedBytes]

theorem decodeText_of_accepts {t : List Byte} {f : Bool} (text : t ≠ []) (ok : Accepts t f) :
    decodeText t f = .ok (decodedBytes t) := by
  have positive : 0 < contentLength t := Nat.pos_of_ne_zero fun none => ok.nonempty (by simp [none])
  have last := ok.valid _ (last_mem_content positive)
  have valid : ¬∃ c ∈ t.take (contentLength t), lutValid c = false := by
    rintro ⟨c, mem, invalid⟩
    simp [ok.valid c mem] at invalid
  rw [decodeText_of_text text, if_neg ok.nonempty, if_neg (Nat.not_le.mpr ok.tail), if_neg (ne_false_of_eq_true last),
    if_neg (not_not.mpr ok.zero), if_neg fun fails => fails.2 (ok.padding fails.1), if_neg valid]

theorem decodeText_eq_ok_iff {t y : List Byte} {f : Bool} (text : t ≠ []) :
    decodeText t f = .ok y ↔ Accepts t f ∧ y = decodedBytes t := by
  constructor
  · intro h
    rw [decodeText_of_text text] at h
    split at h
    · cases h
    split at h
    · cases h
    split at h
    · cases h
    split at h
    · cases h
    split at h
    · cases h
    split at h
    · cases h
    next nonempty tail _ zero padding valid =>
      cases h
      exact ⟨⟨nonempty, Nat.not_le.mp tail, by simpa using valid, not_not.mp zero, by simpa using padding⟩, rfl⟩
  · rintro ⟨ok, rfl⟩
    exact decodeText_of_accepts text ok

/-! ## The round trip (42_decoder.md R175) -/

/-- The content of an encoding has the bits that were encoded. -/
theorem contentBits_encodeText (x : List Byte) (f : Bool) (k : Nat) :
    (contentBits (encodeText x f)).getD k false = (encodeBits x).getD k false := by
  by_cases inside : k < 5 * symbolCount x.length
  · refine getD_eq_of_fields (fun i hi => ?_) inside
    rw [fieldValue_contentBits (take_encodeText x f) (by rwa [length_encodedSymbols]), getElem_encodedSymbols,
      lutValue_romAlpha, toNat_ofNat_of_lt (fieldValue_lt _ _ _)]
  · have enough : 8 * x.length ≤ 5 * symbolCount x.length := by unfold symbolCount ceilDiv; omega
    rw [contentBits_beyond (by rw [contentLength_encodeText]; omega), encodeBits_beyond x (by omega)]

/-- The bits of an encoding's symbols are whole bytes and fewer than five bits more. -/
theorem symbolCount_bits (n : Nat) : 5 * symbolCount n / 8 = n ∧ 5 * symbolCount n % 8 = 5 * symbolCount n - 8 * n ∧
    5 * symbolCount n % 8 < 5 ∧ 8 * n ≤ 5 * symbolCount n := by
  obtain ⟨r, few, total⟩ : ∃ r < 5, 5 * symbolCount n = 8 * n + r := by
    unfold symbolCount ceilDiv
    exact ⟨5 * ((8 * n + 5 - 1) / 5) - 8 * n, by omega, by omega⟩
  rw [total]
  clear total
  omega

theorem decodedBytes_encodeText (x : List Byte) (f : Bool) : decodedBytes (encodeText x f) = x := by
  obtain ⟨bytes, -⟩ := symbolCount_bits x.length
  have length : (decodedBytes (encodeText x f)).length = x.length := by
    rw [length_decodedBytes, contentLength_encodeText, bytes]
  refine List.ext_getElem length fun k h hx => ?_
  rw [getElem_decodedBytes, fieldValue_congr fun j _ => contentBits_encodeText x f (8 * k + j),
    fieldValue_encodeBits x hx, BitVec.ofNat_toNat, BitVec.setWidth_eq]

/-- An encoding is accepted, strictly when it has its padding. -/
theorem accepts_encodeText {x : List Byte} (input : x ≠ []) {f strict : Bool} (padded : strict = true → f = true) :
    Accepts (encodeText x f) strict := by
  obtain ⟨bytes, tail, few, covered⟩ := symbolCount_bits x.length
  have length : x.length ≠ 0 := fun h => input (List.length_eq_zero_iff.mp h)
  have symbols := contentLength_encodeText x f
  have positive : 0 < contentLength (encodeText x f) := by clear bytes tail few; omega
  refine ⟨by rwa [symbols, bytes], by rwa [symbols], fun c h => ?_, ?_, fun isStrict => ?_⟩
  · rw [take_encodeText] at h
    obtain ⟨v, rfl⟩ := exists_romAlpha_of_mem h
    exact lutValid_romAlpha v
  · rw [tailBits_eq (by rw [symbols]; exact few.le) positive, fieldValue_eq_zero_iff]
    intro j _
    rw [contentBits_encodeText, encodeBits_beyond x (by rw [symbols, tail]; omega)]
  · have total := symbols_add_padding x.length
    obtain rfl : f = true := padded isStrict
    rw [length_encodeText, symbols, bytes, padTabM_missingBytes]
    show 8 * ceilDiv x.length 5 - ceilDiv (8 * x.length) 5 = _
    omega

theorem decodeText_nil (f : Bool) : decodeText [] f = .ok [] := rfl

theorem encodeText_nil (f : Bool) : encodeText [] f = [] := by
  cases f <;> rfl

theorem encodeText_ne_nil {x : List Byte} (input : x ≠ []) (f : Bool) : encodeText x f ≠ [] := by
  intro empty
  have symbols := contentLength_encodeText x f
  obtain ⟨bytes, -⟩ := symbolCount_bits x.length
  rw [← symbols, empty] at bytes
  exact input (List.length_eq_zero_iff.mp bytes.symm)

theorem decodeText_encodeText (x : List Byte) {f strict : Bool} (padded : strict = true → f = true) :
    decodeText (encodeText x f) strict = .ok x := by
  by_cases input : x = []
  · subst input
    rw [encodeText_nil, decodeText_nil]
  · rw [decodeText_eq_ok_iff (encodeText_ne_nil input f), decodedBytes_encodeText]
    exact ⟨accepts_encodeText input padded, rfl⟩

/-! ## Acceptance is canonicity (42_decoder.md R175) -/

section Canonicity
variable {t : List Byte} {f : Bool} (ok : Accepts t f)
include ok

theorem Accepts.content_pos : 0 < contentLength t :=
  Nat.pos_of_ne_zero fun none => ok.nonempty (by simp [none])

/-- Encoding the decoded bytes gives the bits of the content back: what the bytes leave over is 0. -/
theorem encodeBits_decodedBytes (k : Nat) :
    (encodeBits (decodedBytes t)).getD k false = (contentBits t).getD k false := by
  have whole := Nat.div_add_mod (5 * contentLength t) 8
  by_cases inside : k < 8 * (5 * contentLength t / 8)
  · refine getD_eq_of_fields (fun i hi => ?_) inside
    rw [fieldValue_encodeBits _ (by rwa [length_decodedBytes]), getElem_decodedBytes,
      toNat_ofNat_of_lt (fieldValue_lt _ _ _)]
  · rw [encodeBits_beyond _ (by rw [length_decodedBytes]; omega), eq_comm]
    by_cases content : k < 5 * contentLength t
    · have residue := ok.zero
      have tail := ok.tail
      rw [tailBits_eq (by omega) ok.content_pos, fieldValue_eq_zero_iff] at residue
      have zero := residue (k - 8 * (5 * contentLength t / 8)) (by omega)
      have place : 5 * contentLength t - 5 * contentLength t % 8 + (k - 8 * (5 * contentLength t / 8)) = k := by omega
      rwa [place] at zero
    · exact contentBits_beyond (by omega)

theorem symbolCount_decodedBytes : symbolCount (decodedBytes t).length = contentLength t := by
  have tail := ok.tail
  rw [length_decodedBytes]
  unfold symbolCount ceilDiv
  omega

/-- The content of an accepted text is the encoding of the decoded bytes. -/
theorem encodedSymbols_decodedBytes : encodedSymbols (decodedBytes t) = t.take (contentLength t) := by
  refine List.ext_getElem (by rw [length_encodedSymbols, symbolCount_decodedBytes ok, length_content]) fun k h hk => ?_
  have valid := ok.valid _ (List.getElem_mem hk)
  obtain ⟨v, code⟩ := exists_romAlpha_of_lutValid valid
  rw [getElem_encodedSymbols, fieldValue_congr fun j _ => encodeBits_decodedBytes ok (5 * k + j),
    fieldValue_contentBits rfl hk, ← code, lutValue_romAlpha, BitVec.ofNat_toNat, BitVec.setWidth_eq]

/-- A strictly accepted text is the padded encoding of the decoded bytes. -/
theorem encodeText_decodedBytes (strict : f = true) : encodeText (decodedBytes t) true = t := by
  have total := symbols_add_padding (decodedBytes t).length
  have symbols := symbolCount_decodedBytes ok
  have padding := ok.padding strict
  rw [padTabM_missingBytes, ← length_decodedBytes] at padding
  have count : paddingCount (decodedBytes t).length true = t.length - contentLength t := by
    rw [paddingCount, if_pos rfl, symbols, padding]
    show _ - contentLength t = _
    rw [← symbols]
    unfold symbolCount
    omega
  rw [encodeText_eq, encodedSymbols_decodedBytes ok, count, content_append_padding]

end Canonicity

/-- Without strict padding a DECODE looks at the content only. -/
theorem accepts_false_of_take {t : List Byte} (ok : Accepts (t.take (contentLength t)) false) : Accepts t false := by
  obtain ⟨nonempty, tail, valid, zero, -⟩ := ok
  have last : (t.take (contentLength t)).getD (contentLength t - 1) 0 = t.getD (contentLength t - 1) 0 := by
    have fits := contentLength_le t
    rw [contentLength_take] at nonempty
    rw [List.getD_eq_getElem _ _ (by rw [length_content]; omega), List.getElem_take, List.getD_eq_getElem]
  rw [contentLength_take] at nonempty tail zero
  rw [contentLength_take, List.take_take, Nat.min_self] at valid
  exact ⟨nonempty, tail, valid, last ▸ zero, nofun⟩

theorem decodedBytes_take (t : List Byte) : decodedBytes (t.take (contentLength t)) = decodedBytes t := by
  rw [decodedBytes, decodedBytes, contentBits, contentBits, contentLength_take, List.take_take, Nat.min_self]

/-- A text that is not empty decodes to `x` exactly when `x` is not empty and its content, or strictly the whole text,
is the encoding of `x`. -/
theorem decodeText_eq_ok_iff_encodeText {t x : List Byte} {f : Bool} (text : t ≠ []) :
    decodeText t f = .ok x ↔
      (x ≠ [] ∧ if f then t = encodeText x true else t.take (contentLength t) = encodeText x false) := by
  rw [decodeText_eq_ok_iff text]
  constructor
  · rintro ⟨ok, rfl⟩
    refine ⟨fun empty => ok.nonempty (by rw [← length_decodedBytes, empty, List.length_nil]), ?_⟩
    cases f with
    | true => exact (encodeText_decodedBytes ok rfl).symm
    | false => exact ((encodeText_false _).trans (encodedSymbols_decodedBytes ok)).symm
  · rintro ⟨input, canonical⟩
    cases f with
    | true =>
      obtain rfl : t = encodeText x true := canonical
      exact ⟨accepts_encodeText input id, (decodedBytes_encodeText x true).symm⟩
    | false =>
      have content : t.take (contentLength t) = encodeText x false := canonical
      refine ⟨accepts_false_of_take (content ▸ accepts_encodeText input id), ?_⟩
      rw [← decodedBytes_take, content, decodedBytes_encodeText]

end Sys2Proof.Machine

namespace Sys2Proof.Proofs

open Sys2Proof Sys2Proof.Machine

/-- Settles O57: symbols and padding, counted and listed. -/
theorem encodingLengthAndAlphabet : Obligations.EncodingLengthAndAlphabet := by
  refine fun x f => ⟨length_encodeText x f, fun c h => ?_⟩
  rw [encodeText_eq, List.mem_append] at h
  rcases h with symbol | padding
  · exact .inr (exists_romAlpha_of_mem symbol)
  · exact .inl (List.eq_of_mem_replicate padding)

/-- Settles O58: an encoding is accepted, and its content has the bits that were encoded. -/
theorem decodingAnEncodingGivesTheInput : Obligations.DecodingAnEncodingGivesTheInput :=
  fun x => ⟨decodeText_encodeText x id, decodeText_encodeText x nofun, decodeText_encodeText x id⟩

end Sys2Proof.Proofs

/-! PROOF. ENCODE from its start to its completion: the loop of E_APPEND and E_EXTRACT gives out the fields of the bit
string, then come the zero-filled symbol and the padding (41_encoder.md R141; 70_reset_and_hazards.md R227). -/

namespace Sys2Proof.Machine

/-! ## A started command and what it has written -/

/-- In `s` a command that was started in `s₀` on the input `x` with FLAG `f` runs, and nothing interleaves it. -/
structure Started (s₀ : State) (x : List Byte) (f : Bool) (s : State) : Prop where
  given : s₀.HasInput x
  status : s.status = ⟨true, false, false, s₀.status.ovr, .none⟩
  turns : s.turns = []
  length : s.n.toNat = x.length
  flag : s.flag = f
  depth : s.depth = s₀.depth
  ibuf : s.ibuf = s₀.ibuf
  inLen : s.inLen = s₀.inLen
  program : s.program = s₀.program
  returned : s.returned = s₀.returned

/-- OBUF holds `y` from entry 0 on, and above it what it held in `s₀`; O is the next entry. -/
structure Written (s₀ : State) (y : List Byte) (s : State) : Prop where
  next : s.o.toNat = y.length
  read : ∀ j, s.obuf.read j = y[j]?.or (s₀.obuf.read j)

/-- In `u` the command has ended with `st` as STATUS, and what is the host's is as it was in `s₀`. -/
structure Ended (s₀ : State) (st : Status) (u : State) : Prop where
  status : u.status = st
  seq : u.seq = .idle
  ibuf : u.ibuf = s₀.ibuf
  inLen : u.inLen = s₀.inLen
  program : u.program = s₀.program
  returned : u.returned = s₀.returned

/-- In `u` the command has ended with the output `y` (60_exceptions.md R201). -/
structure Succeeded (s₀ : State) (y : List Byte) (u : State) : Prop where
  ended : Ended s₀ ⟨false, true, false, s₀.status.ovr, .none⟩ u
  length : u.outLen.toNat = y.length
  entries : ∀ j, u.obuf.read j = y[j]?.or (s₀.obuf.read j)

section Running
variable {s₀ s t : State} {x y : List Byte} {f : Bool}

theorem Started.busy (run : Started s₀ x f s) : s.status.busy = true := by rw [run.status]

/-- The input fits IBUF, and its entries are written. -/
theorem Started.fits (run : Started s₀ x f s) : x.length ≤ s.depth.val := by
  obtain ⟨-, fits, -⟩ := run.given
  rwa [run.depth]

theorem Started.read (run : Started s₀ x f s) {j : Nat} (h : j < x.length) : s.ibuf.read j = some x[j] := by
  obtain ⟨-, -, entries⟩ := run.given
  rw [run.ibuf, entries j h]

/-- An engine step of the command that keeps STATUS. -/
theorem Started.next (run : Started s₀ x f s) (h : engineStep s = .next t) (status : t.status = s.status) :
    Started s₀ x f t := by
  have frame := engineStep_frame h
  refine ⟨run.given, status.trans run.status, ?_, ?_, ?_, ?_, ?_, ?_, ?_, ?_⟩ <;> rw [frame]
  exacts [run.turns, run.length, run.flag, run.depth, run.ibuf, run.inLen, run.program, run.returned]

/-- An engine step of the command that ends it. -/
theorem Started.ended (run : Started s₀ x f s) (h : engineStep s = .next t) (seq : t.seq = .idle) :
    Ended s₀ t.status t := by
  have frame := engineStep_frame h
  refine ⟨rfl, seq, ?_, ?_, ?_, ?_⟩ <;> rw [frame]
  exacts [run.ibuf, run.inLen, run.program, run.returned]

/-- An engine step that completes the command without error (60_exceptions.md R201). -/
theorem Started.completed (run : Started s₀ x f s) {u : State} {L : Nat} (status : u.status = s.status)
    (h : engineStep s = .next (completeOk L u)) :
    Ended s₀ ⟨false, true, false, s₀.status.ovr, .none⟩ (completeOk L u) := by
  have ended := run.ended h rfl
  rwa [completeOk_status, status, run.status] at ended

/-- One engine step is one step of the machine. -/
theorem Started.busyRun (run : Started s₀ x f s) {q : Seq} (phase : s.seq = q) (h : engineStep s = .next t)
    (enabled : engineEnabled q = true := by rfl) : BusyRun 1 s t :=
  .single run.busy ((step_of_engine_enabled run.turns (phase ▸ enabled)).trans h)

theorem written_nil (next : s.o.toNat = 0) (obuf : s.obuf = s₀.obuf) : Written s₀ [] s :=
  ⟨next, fun j => by rw [obuf]; rfl⟩

/-- An entry more, at O. -/
theorem Written.append (out : Written s₀ y s) {b : Byte} (next : t.o.toNat = s.o.toNat + 1)
    (obuf : t.obuf = s.obuf.write s.o.toNat b) : Written s₀ (y ++ [b]) t := by
  refine ⟨by rw [next, out.next, List.length_append, List.length_singleton], fun j => ?_⟩
  rw [obuf, Memory.read_write, out.next, out.read]
  rcases Nat.lt_trichotomy j y.length with below | here | above
  · rw [if_neg below.ne, List.getElem?_append_left below]
  · rw [if_pos here, here]
    simp
  · have outside : (y ++ [b]).length ≤ j := by simpa using above
    rw [if_neg above.ne', List.getElem?_eq_none above.le, List.getElem?_eq_none outside]

/-- The next entry of a list that has been written up to there. -/
theorem Written.take_succ {o : Nat} (out : Written s₀ (y.take o) s) (h : o < y.length)
    (next : t.o.toNat = s.o.toNat + 1) (obuf : t.obuf = s.obuf.write s.o.toNat y[o]) :
    Written s₀ (y.take (o + 1)) t := by
  rw [List.take_succ_eq_append_getElem h]
  exact out.append next obuf

theorem Written.writtenBelow (out : Written s₀ y s) : writtenBelow s.obuf s.o.toNat := by
  intro j h
  rw [out.next] at h
  rw [out.read, List.getElem?_eq_getElem h]
  simp

theorem Succeeded.hasOutput (ok : Succeeded s₀ y s) : s.HasOutput y :=
  ⟨ok.length, fun j h => by rw [ok.entries, List.getElem?_eq_getElem h]; rfl⟩

theorem Succeeded.read_above (ok : Succeeded s₀ y s) {j : Nat} (h : y.length ≤ j) :
    s.obuf.read j = s₀.obuf.read j := by
  rw [ok.entries, List.getElem?_eq_none h]
  rfl

end Running

/-- ENCODE of an input in range starts (40_commands.md R106). -/
theorem exec_encode_started {s₀ : State} {x : List Byte} (f : Bool) (idle : s₀.status.busy = false)
    (turns : s₀.turns = []) (given : s₀.HasInput x) :
    ∃ s, exec (.encode f false) s₀ = .next s ∧ Started s₀ x f s ∧ s.seq = .eInit ∧ s.obuf = s₀.obuf := by
  have ⟨length, fits, _⟩ := given
  obtain ⟨⟨s, executed, latched, frame, -⟩, -⟩ := Proofs.encodeAndDecodeStart.2 f s₀ idle (length.trans_le fits)
  refine ⟨s, executed, ⟨given, ?_, ?_, latched.trans length, ?_, ?_, ?_, ?_, ?_, ?_⟩, ?_, ?_⟩ <;> rw [frame]
  exact turns

/-! ## The loop of E_APPEND and E_EXTRACT -/

/-- `i` bytes are taken and `o` symbols given out; E_ACC holds the bits between (41_encoder.md R140). -/
structure EncodeLoop (s₀ : State) (x : List Byte) (f : Bool) (i o : Nat) (s : State) : Prop where
  run : Started s₀ x f s
  taken : s.i.toNat = i
  inside : i ≤ x.length
  bits : 5 * o + s.eCnt.toNat = 8 * i
  held : s.eAcc.toNat = fieldValue (encodeBits x) (5 * o) s.eCnt.toNat
  next : s.o.toNat = o
  out : Written s₀ ((encodedSymbols x).take o) s

section Loop
variable {s₀ s : State} {x : List Byte} {f : Bool} {i o : Nat}

theorem EncodeLoop.encoderOk (loop : EncodeLoop s₀ x f i o s) {most : Nat} (few : s.eCnt.toNat ≤ most) :
    s.EncoderOk most := by
  obtain ⟨run, taken, inside, bits, held, next, out⟩ := loop
  refine ⟨few, ?_, by rw [taken, run.length]; exact inside, by rw [taken, next]; exact bits.symm, out.writtenBelow⟩
  rw [held]
  exact fieldValue_lt _ _ _

/-- While bits are held, there is room for the next symbol. -/
theorem EncodeLoop.room (loop : EncodeLoop s₀ x f i o s) (left : 0 < s.eCnt.toNat) : s.o.toNat < obufDepth s.depth :=
  output_inside_of_bits (loop.encoderOk le_rfl) (loop.run.length.trans_le loop.run.fits) left

/-- E_APPEND takes the next byte. -/
theorem EncodeLoop.append (loop : EncodeLoop s₀ x f i o s) (phase : s.seq = .eAppend) (few : s.eCnt.toNat < 5)
    (more : i < x.length) : ∃ t, BusyRun 1 s t ∧ t.seq = .eExtract ∧ EncodeLoop s₀ x f (i + 1) o t := by
  obtain ⟨run, taken, inside, bits, held, next, out⟩ := loop
  subst taken
  have stepped := (engineStep_eAppend phase).trans
    (stepEAppend_of_read (by rwa [run.length]) (more.trans_le run.fits) (run.read more))
  refine ⟨_, run.busyRun phase stepped, rfl, ?_⟩
  have small : s.eAcc.toNat < 2 ^ 4 := by
    rw [held]
    exact (fieldValue_lt _ _ _).trans_le (Nat.pow_le_pow_right (by norm_num) (by omega))
  have cnt : (BitVec.ofNat 4 (s.eCnt.toNat + 8)).toNat = s.eCnt.toNat + 8 := toNat_ofNat_of_lt (by omega)
  have fits := run.length ▸ s.n.isLt
  have acc : (BitVec.ofNat 13 (256 * s.eAcc.toNat + x[s.i.toNat].toNat)).toNat =
      256 * s.eAcc.toNat + x[s.i.toNat].toNat := toNat_ofNat_of_lt (by have := x[s.i.toNat].isLt; omega)
  refine ⟨run.next stepped rfl, ?_, more, ?_, ?_, next, ⟨out.next, out.read⟩⟩
  · exact toNat_ofNat_of_lt (by omega)
  · show 5 * o + (BitVec.ofNat 4 (s.eCnt.toNat + 8)).toNat = _
    omega
  · show (BitVec.ofNat 13 _).toNat = fieldValue _ _ (BitVec.ofNat 4 (s.eCnt.toNat + 8)).toNat
    rw [acc, cnt, fieldValue_add, bits, fieldValue_encodeBits x more, held]
    omega

/-- E_EXTRACT gives the next symbol out. -/
theorem EncodeLoop.extract (loop : EncodeLoop s₀ x f i o s) (phase : s.seq = .eExtract) (five : 5 ≤ s.eCnt.toNat) :
    ∃ t, BusyRun 1 s t ∧ t.seq = .eExtract ∧ EncodeLoop s₀ x f i (o + 1) t := by
  have room := loop.room (by omega)
  obtain ⟨run, taken, inside, bits, held, next, out⟩ := loop
  have stepped := (engineStep_eExtract phase).trans
    (stepEExtract_of_five five (by rw [held]; exact fieldValue_lt _ _ _) room)
  refine ⟨_, run.busyRun phase stepped, rfl, ?_⟩
  have symbol : o < (encodedSymbols x).length := by
    rw [length_encodedSymbols]
    unfold symbolCount ceilDiv
    omega
  have cnt : (BitVec.ofNat 4 (s.eCnt.toNat - 5)).toNat = s.eCnt.toNat - 5 :=
    toNat_ofNat_of_lt ((Nat.sub_le _ _).trans_lt s.eCnt.isLt)
  have acc : (BitVec.ofNat 13 (s.eAcc.toNat % 2 ^ (s.eCnt.toNat - 5))).toNat = s.eAcc.toNat % 2 ^ (s.eCnt.toNat - 5) :=
    toNat_ofNat_of_lt ((Nat.mod_le _ _).trans_lt s.eAcc.isLt)
  have place := toNat_next_output room
  refine ⟨run.next stepped rfl, taken, inside, ?_, ?_, place.trans (by rw [next]), out.take_succ symbol place ?_⟩
  · show 5 * (o + 1) + (BitVec.ofNat 4 (s.eCnt.toNat - 5)).toNat = _
    omega
  · show (BitVec.ofNat 13 _).toNat = fieldValue _ _ (BitVec.ofNat 4 (s.eCnt.toNat - 5)).toNat
    rw [acc, cnt, held, fieldValue_mod _ _ five]
    rfl
  · rw [getElem_encodedSymbols, held, fieldValue_div _ _ five]

/-- E_EXTRACT gives out all whole symbols held. By induction over their number. -/
theorem EncodeLoop.drain (phase : s.seq = .eExtract) (k : Nat) (loop : EncodeLoop s₀ x f i o s)
    (count : o + k = 8 * i / 5) :
    ∃ t, BusyRun (k + 1) s t ∧ t.seq = .eAppend ∧ EncodeLoop s₀ x f i (8 * i / 5) t := by
  induction k generalizing s o with
  | zero =>
    have bits := loop.bits
    obtain rfl : o = 8 * i / 5 := count
    have stepped := (engineStep_eExtract phase).trans (stepEExtract_of_few (by omega))
    obtain ⟨run, taken, inside, bits, held, next, out⟩ := loop
    exact ⟨_, run.busyRun phase stepped, rfl,
      run.next stepped rfl, taken, inside, bits, held, next, ⟨out.next, out.read⟩⟩
  | succ k ih =>
    have bits := loop.bits
    obtain ⟨t, first, phase', loop'⟩ := loop.extract phase (by omega)
    obtain ⟨u, rest, done⟩ := ih phase' loop' (by omega)
    exact ⟨u, by rw [Nat.add_comm]; exact first.trans rest, done⟩

/-- The loop takes all bytes. By induction over the number left. -/
theorem EncodeLoop.finish (phase : s.seq = .eAppend) (k : Nat) (loop : EncodeLoop s₀ x f i (8 * i / 5) s)
    (count : i + k = x.length) :
    ∃ t, BusyRun (2 * k + (8 * x.length / 5 - 8 * i / 5) + 1) s t ∧ t.seq = .eFlush ∧
      EncodeLoop s₀ x f x.length (8 * x.length / 5) t := by
  have bits := loop.bits
  induction k generalizing s i with
  | zero =>
    obtain ⟨run, taken, inside, bits, held, next, out⟩ := loop
    obtain rfl : i = x.length := count
    have stepped := (engineStep_eAppend phase).trans (stepEAppend_of_done (by rw [run.length, taken]))
    exact ⟨_, by simpa using run.busyRun phase stepped, rfl,
      run.next stepped rfl, taken, le_rfl, bits, held, next, ⟨out.next, out.read⟩⟩
  | succ k ih =>
    obtain ⟨t, first, phase', loop'⟩ := loop.append phase (by omega) (by omega)
    obtain ⟨u, extracts, phase'', loop''⟩ := loop'.drain phase' (8 * (i + 1) / 5 - 8 * i / 5) (by omega)
    obtain ⟨v, rest, done⟩ := ih phase'' loop'' (by omega) loop''.bits
    refine ⟨v, ?_, done⟩
    have total : 1 + (8 * (i + 1) / 5 - 8 * i / 5 + 1) + (2 * k + (8 * x.length / 5 - 8 * (i + 1) / 5) + 1) =
        2 * (k + 1) + (8 * x.length / 5 - 8 * i / 5) + 1 := by omega
    rw [← total]
    exact (first.trans extracts).trans rest

/-! ## The final symbol and the padding -/

/-- E_FLUSH gives out the bits left, if any, as the last symbol (41_encoder.md R133). -/
theorem EncodeLoop.flush (loop : EncodeLoop s₀ x f x.length (8 * x.length / 5) s) (phase : s.seq = .eFlush) :
    ∃ t, BusyRun 1 s t ∧ t.seq = .ePadInit ∧ Started s₀ x f t ∧ Written s₀ (encodedSymbols x) t := by
  have room := loop.room
  obtain ⟨run, taken, inside, bits, held, next, out⟩ := loop
  have symbols : (encodedSymbols x).length = if s.eCnt.toNat = 0 then 8 * x.length / 5 else 8 * x.length / 5 + 1 := by
    rw [length_encodedSymbols]
    unfold symbolCount ceilDiv
    split <;> omega
  by_cases empty : s.eCnt.toNat = 0
  · rw [if_pos empty] at symbols
    have stepped := (engineStep_eFlush phase).trans (stepEFlush_of_empty empty)
    rw [← symbols, List.take_length] at out
    exact ⟨_, run.busyRun phase stepped, rfl, run.next stepped rfl, ⟨out.next, out.read⟩⟩
  · rw [if_neg empty] at symbols
    have left : 0 < s.eCnt.toNat := Nat.pos_of_ne_zero empty
    have stepped := (engineStep_eFlush phase).trans
      (stepEFlush_of_bits left (by omega) (by rw [held]; exact fieldValue_lt _ _ _) (room left))
    refine ⟨_, run.busyRun phase stepped, rfl, run.next stepped rfl, ?_⟩
    have filled : s.eAcc.toNat * 2 ^ (5 - s.eCnt.toNat) = fieldValue (encodeBits x) (5 * (8 * x.length / 5)) 5 := by
      rw [held]
      exact (fieldValue_zeroFilled (by omega) fun k beyond => encodeBits_beyond x (bits ▸ beyond)).symm
    rw [← List.take_length (l := encodedSymbols x), symbols]
    exact out.take_succ (by omega) (toNat_next_output (room left)) (by rw [getElem_encodedSymbols, filled])

end Loop

/-- E_PAD writes the padding left and completes. By induction over PADCNT. -/
theorem pad_completes {s₀ s : State} {x y : List Byte} {f : Bool} (run : Started s₀ x f s) (phase : s.seq = .ePad)
    (k : Nat) (count : s.padCnt.toNat = k) (out : Written s₀ y s) (room : y.length + k ≤ obufDepth s.depth) :
    ∃ u, BusyRun (k + 1) s u ∧ Succeeded s₀ (y ++ List.replicate k padCode) u := by
  induction k generalizing s y with
  | zero =>
    have stepped := (engineStep_ePad phase).trans (stepEPad_of_done count)
    rw [List.replicate_zero, List.append_nil]
    exact ⟨_, run.busyRun phase stepped, run.completed rfl stepped, (toNat_ofNat_of_lt s.o.isLt).trans out.next,
      out.read⟩
  | succ k ih =>
    have inside : s.o.toNat < obufDepth s.depth := by rw [out.next]; omega
    have stepped := (engineStep_ePad phase).trans (stepEPad_of_left (by omega) inside)
    have rest := ih (y := y ++ [padCode]) (run.next stepped rfl) rfl
      ((toNat_ofNat_of_lt (by omega)).trans (by omega)) (out.append (toNat_next_output inside) rfl)
      (by rw [List.length_append, List.length_singleton]; show _ ≤ obufDepth s.depth; omega)
    obtain ⟨u, steps, done⟩ := rest
    rw [List.append_assoc, List.singleton_append, ← List.replicate_succ] at done
    exact ⟨u, by rw [Nat.add_comm]; exact (run.busyRun phase stepped).trans steps, done⟩

/-- The padding a strict ENCODE adds is what PADTAB_R gives (41_encoder.md R138). -/
theorem toNat_padCnt (n : Nat) (f : Bool) :
    (if f then padTabR (n % 5) else 0 : BitVec 3).toNat = paddingCount n f := by
  have total := symbols_add_padding n
  cases f with
  | false => rfl
  | true =>
    show (padTabR (n % 5)).toNat = 8 * ceilDiv n 5 - ceilDiv (8 * n) 5
    omega

theorem encodeStepCount_eq (n : Nat) (f : Bool) :
    encodeStepCount n f = 1 + (2 * n + 8 * n / 5 + 1) + 1 + 1 + (paddingCount n f + 1) := by
  rw [encodeStepCount, ← toNat_padCnt]
  cases f <;> simp <;> omega

/-- A started ENCODE completes with the closed form, after the steps of 70_reset_and_hazards.md R227. -/
theorem encode_completes {s₀ s : State} {x : List Byte} {f : Bool} (run : Started s₀ x f s) (phase : s.seq = .eInit)
    (obuf : s.obuf = s₀.obuf) :
    ∃ u, BusyRun (encodeStepCount x.length f) s u ∧ Succeeded s₀ (encodeText x f) u := by
  have initStep : engineStep s = .next _ := engineStep_eInit phase
  have init := run.busyRun phase initStep
  have loop : EncodeLoop s₀ x f 0 (8 * 0 / 5)
      { s with eAcc := 0, eCnt := 0, i := 0, o := 0, padCnt := 0, seq := .eAppend } :=
    ⟨run.next initStep rfl, rfl, Nat.zero_le _, rfl, rfl, rfl, written_nil rfl obuf⟩
  obtain ⟨s₁, loopSteps, phase₁, loop₁⟩ := loop.finish rfl x.length (Nat.zero_add _)
  obtain ⟨s₂, flushStep, phase₂, run₂, out₂⟩ := loop₁.flush phase₁
  have padStep : engineStep s₂ = .next _ := engineStep_ePadInit phase₂
  have padInit := run₂.busyRun phase₂ padStep
  have count : (if s₂.flag then padTabR (s₂.n.toNat % 5) else 0 : BitVec 3).toNat = paddingCount x.length f := by
    rw [toNat_padCnt, run₂.flag, run₂.length]
  have room : (encodedSymbols x).length + paddingCount x.length f ≤ obufDepth s₂.depth := by
    have holds := encodedLength_le_obufDepth f run₂.fits
    rwa [← length_encodeText, encodeText_eq, List.length_append, List.length_replicate] at holds
  obtain ⟨u, padSteps, done⟩ := pad_completes (run₂.next padStep rfl) rfl _ count ⟨out₂.next, out₂.read⟩ room
  rw [← encodeText_eq] at done
  refine ⟨u, ?_, done⟩
  rw [encodeStepCount_eq]
  exact (((init.trans loopSteps).trans flushStep).trans padInit).trans padSteps

end Sys2Proof.Machine

namespace Sys2Proof.Proofs

open Sys2Proof Sys2Proof.Machine

/-- Settles O53: the run of a started ENCODE phase by phase. -/
theorem encodeComputesClosedForm : Obligations.EncodeComputesClosedForm := by
  intro s x f idle turns given
  obtain ⟨t, executed, run, phase, obuf⟩ := exec_encode_started f idle turns given
  obtain ⟨u, steps, ok⟩ := encode_completes run phase obuf
  have ended := ok.ended
  exact ⟨t, u, executed, steps.completesIn (by rw [ended.status]), ended.status, ended.seq, ok.hasOutput,
    fun j => ok.read_above, ended.ibuf, ended.inLen, ended.program, ended.returned⟩

end Sys2Proof.Proofs

/-! PROOF. DECODE from its start to its completion: the scan, the four checks, and the loop of D_LOAD and D_EXTRACT,
with the steps each outcome takes (42_decoder.md R174, R175, R178; 70_reset_and_hazards.md R227). -/

namespace Sys2Proof.Machine

/-! ## Completions are unique, and so are outputs -/

theorem completesIn_unique {s u u' : State} {k k' : Nat} (h : s.CompletesIn k u) (h' : s.CompletesIn k' u') :
    k = k' ∧ u = u' := by
  obtain ⟨last, ended, before⟩ := h
  obtain ⟨last', ended', before'⟩ := h'
  have absurdBefore {j : Nat} {v : State} (run : runSteps j s = .next v) (idle : v.status.busy = false)
      (busy : ∃ w, runSteps j s = .next w ∧ w.status.busy = true) : False := by
    obtain ⟨w, hw, running⟩ := busy
    rw [run] at hw
    cases hw
    simp [idle] at running
  rcases Nat.lt_trichotomy k k' with less | rfl | more
  · exact (absurdBefore last ended (before' k less)).elim
  · rw [last] at last'
    cases last'
    exact ⟨rfl, rfl⟩
  · exact (absurdBefore last' ended' (before k' more)).elim

theorem hasOutput_unique {u : State} {y y' : List Byte} (h : u.HasOutput y) (h' : u.HasOutput y') : y = y' := by
  obtain ⟨length, entries⟩ := h
  obtain ⟨length', entries'⟩ := h'
  refine List.ext_getElem (length.symm.trans length') fun j hj hj' => ?_
  exact Option.some.inj ((entries j hj).symm.trans (entries' j hj'))

/-! ## The outcomes of a DECODE -/

/-- In `u` the command has ended with the cause `c` and no output (60_exceptions.md R202). -/
structure Failed (s₀ : State) (c : Cause) (u : State) : Prop where
  ended : Ended s₀ ⟨false, true, true, s₀.status.ovr, c⟩ u
  outLen : u.outLen = 0

section Outcomes
variable {s₀ s : State} {x y : List Byte} {f : Bool}

theorem Started.failed (run : Started s₀ x f s) {u : State} {c : Cause} (status : u.status = s.status)
    (h : engineStep s = .next (completeError c u)) : Failed s₀ c (completeError c u) := by
  have ended := run.ended h rfl
  rw [completeError_status, status, run.status] at ended
  exact ⟨ended, rfl⟩

end Outcomes

/-- How many engine steps a DECODE of a text `x` that fails with a cause takes (70_reset_and_hazards.md R227); it fails
with no other cause than these. -/
def DecodeFailsAfter (x : List Byte) : Cause → Nat → Prop
  | .tooShort, k => k = x.length - contentLength x + 3
  | .redundantTrailingSymbol, k => k = x.length - contentLength x + 3
  | .invalidCharacter, k =>
    (lutValid (x.getD (contentLength x - 1) 0) = false → k = x.length - contentLength x + 4) ∧
    k ≤ x.length + 6 + 2 * (5 * contentLength x / 8)
  | .nonzeroTailBits, k => k = x.length - contentLength x + 4
  | .invalidPaddingLength, k => k = x.length - contentLength x + 5
  | .none, _ => False
  | .invalidArgument, _ => False
  | .illegalCommand, _ => False
  | .capacity, _ => False

/-- What a DECODE of `x` that was started in `s₀` comes to, and after how many engine steps. -/
inductive DecodeOutcome (s₀ : State) (x : List Byte) (f : Bool) (k : Nat) (u : State) : Prop where
  | empty (text : x = []) (steps : k = 1) (ok : Succeeded s₀ [] u)
  | failed (text : x ≠ []) (c : Cause) (decoded : decodeText x f = .error c) (steps : DecodeFailsAfter x c k)
      (failed : Failed s₀ c u)
  | succeeded (text : x ≠ []) (accepts : Accepts x f) (steps : k = x.length + 6 + 2 * (5 * contentLength x / 8))
      (ok : Succeeded s₀ (decodedBytes x) u) (acc : u.dAcc = 0#12) (cnt : u.dCnt.toNat = 5 * contentLength x % 8)
      (loaded : u.i.toNat = contentLength x)

theorem DecodeFailsAfter.le {x : List Byte} {c : Cause} {k : Nat} (h : DecodeFailsAfter x c k) :
    k ≤ x.length + 6 + 2 * (5 * contentLength x / 8) := by
  cases c with
  | invalidCharacter => exact h.2
  | tooShort | redundantTrailingSymbol | nonzeroTailBits | invalidPaddingLength =>
    rw [show k = _ from h]
    omega
  | none | invalidArgument | illegalCommand | capacity => exact h.elim

/-! ## The scan (42_decoder.md R161) -/

/-- The content of the first `p + 1` characters, by the last of them. -/
theorem contentLength_take_succ {x : List Byte} {p : Nat} (h : p < x.length) :
    contentLength (x.take (p + 1)) = if x[p] = padCode then contentLength (x.take p) else p + 1 := by
  rw [List.take_succ_eq_append_getElem h]
  split
  · next padding => rw [padding, contentLength_append_padding]
  · next content => rw [contentLength_append_content _ content, List.length_take, Nat.min_eq_left h.le]

section Scan
variable {s₀ s : State} {x : List Byte} {f : Bool}

/-- D_SCAN strips the padding, one character a step. By induction over what is left. -/
theorem scan_finds_content (run : Started s₀ x f s) (phase : s.seq = .dScan) (p : Nat) (left : s.p.toNat = p)
    (inside : p ≤ x.length) (content : contentLength (x.take p) = contentLength x) (obuf : s.obuf = s₀.obuf) :
    ∃ t, BusyRun (p - contentLength x + 1) s t ∧ t.seq = .dAccount ∧ Started s₀ x f t ∧
      t.p.toNat = contentLength x ∧ t.obuf = s₀.obuf := by
  induction p generalizing s with
  | zero =>
    have stepped := (engineStep_dScan phase).trans (stepDScan_of_done left)
    have empty : contentLength x = 0 := content.symm
    exact ⟨_, by simpa using run.busyRun phase stepped, rfl, run.next stepped rfl,
      left.trans empty.symm, obuf⟩
  | succ p ih =>
    have read : s.ibuf.read (s.p.toNat - 1) = some x[p] := by
      rw [left]
      exact run.read inside
    have stepped := (engineStep_dScan phase).trans
      (stepDScan_of_read (by omega) (by have := run.fits; omega) read)
    rw [contentLength_take_succ inside] at content
    by_cases padding : x[p] = padCode
    · rw [if_pos padding] at content stepped
      have le := contentLength_le (x.take p)
      rw [List.length_take, content] at le
      have small := s.p.isLt
      obtain ⟨t, rest, done⟩ := ih (run.next stepped rfl) rfl ((toNat_ofNat_of_lt (by omega)).trans (by omega))
        (by omega) content obuf
      refine ⟨t, ?_, done⟩
      rw [show p + 1 - contentLength x + 1 = 1 + (p - contentLength x + 1) by omega]
      exact (run.busyRun phase stepped).trans rest
    · rw [if_neg padding] at content stepped
      refine ⟨_, ?_, rfl, run.next stepped rfl, left.trans content, obuf⟩
      rw [← content, Nat.sub_self]
      exact run.busyRun phase stepped

end Scan

/-! ## The loop of D_LOAD and D_EXTRACT -/

/-- A text that has passed all the checks before the loop. -/
structure Checked (x : List Byte) (f : Bool) : Prop where
  text : x ≠ []
  nonempty : 5 * contentLength x / 8 ≠ 0
  tail : 5 * contentLength x % 8 < 5
  last : lutValid (x.getD (contentLength x - 1) 0) = true
  zero : (lutValue (x.getD (contentLength x - 1) 0)).toNat % 2 ^ (5 * contentLength x % 8) = 0
  padding : f = true → x.length - contentLength x = (padTabM (missingBytes (5 * contentLength x / 8))).toNat

theorem Checked.decodeText_of_invalid {x : List Byte} {f : Bool} (ok : Checked x f)
    (invalid : ∃ c ∈ x.take (contentLength x), lutValid c = false) : decodeText x f = .error .invalidCharacter := by
  rw [decodeText_of_text ok.text, if_neg ok.nonempty, if_neg (Nat.not_le.mpr ok.tail),
    if_neg (ne_false_of_eq_true ok.last), if_neg (not_not.mpr ok.zero),
    if_neg fun fails => fails.2 (ok.padding fails.1), if_pos invalid]

/-- `i` symbols are loaded, all of them valid, and `o` bytes given out; D_ACC holds the bits between (42_decoder.md
R180). -/
structure DecodeLoop (s₀ : State) (x : List Byte) (f : Bool) (i o : Nat) (s : State) : Prop where
  run : Started s₀ x f s
  output : s.ol.toNat = 5 * contentLength x / 8
  taken : s.i.toNat = i
  inside : i ≤ contentLength x
  valid : ∀ c ∈ x.take i, lutValid c = true
  bits : 8 * o + s.dCnt.toNat = 5 * i
  few : s.dCnt.toNat ≤ 12
  held : s.dAcc.toNat = fieldValue (contentBits x) (8 * o) s.dCnt.toNat
  next : s.o.toNat = o
  due : o < 5 * contentLength x / 8
  out : Written s₀ ((decodedBytes x).take o) s

section Loop
variable {s₀ s : State} {x : List Byte} {f : Bool} {i o : Nat}

theorem DecodeLoop.content_fits (loop : DecodeLoop s₀ x f i o s) : contentLength x ≤ s.depth.val :=
  (contentLength_le x).trans loop.run.fits

/-- D_LOAD of a character outside the alphabet fails. -/
theorem DecodeLoop.load_fails (loop : DecodeLoop s₀ x f i o s) (phase : s.seq = .dLoad) (few : s.dCnt.toNat < 8)
    (more : i < x.length) (invalid : lutValid x[i] = false) :
    ∃ u, BusyRun 1 s u ∧ Failed s₀ .invalidCharacter u := by
  have fits := loop.run.fits
  obtain ⟨run, output, taken, inside, valid, bits, -, held, next, due, out⟩ := loop
  subst taken
  have stepped := (engineStep_dLoad phase).trans (stepDLoad_of_read few (more.trans_le fits) (run.read more))
  rw [if_pos invalid] at stepped
  exact ⟨_, run.busyRun phase stepped, run.failed rfl stepped⟩

/-- D_LOAD takes the next symbol. -/
theorem DecodeLoop.load (loop : DecodeLoop s₀ x f i o s) (phase : s.seq = .dLoad) (few : s.dCnt.toNat < 8)
    (more : i < contentLength x) (inText : i < x.length) (valid : lutValid x[i] = true) :
    ∃ t, BusyRun 1 s t ∧ t.seq = .dLoad ∧ DecodeLoop s₀ x f (i + 1) o t := by
  have fits := loop.run.fits
  obtain ⟨run, output, taken, inside, validBefore, bits, -, held, next, due, out⟩ := loop
  subst taken
  have stepped := (engineStep_dLoad phase).trans (stepDLoad_of_read few (inText.trans_le fits) (run.read inText))
  rw [if_neg (ne_false_of_eq_true valid)] at stepped
  refine ⟨_, run.busyRun phase stepped, rfl, ?_⟩
  have small : s.dAcc.toNat < 2 ^ 7 := by
    rw [held]
    exact (fieldValue_lt _ _ _).trans_le (Nat.pow_le_pow_right (by norm_num) (by omega))
  have value := (lutValue x[s.i.toNat]).isLt
  have length := run.length ▸ s.n.isLt
  have cnt : (BitVec.ofNat 4 (s.dCnt.toNat + 5)).toNat = s.dCnt.toNat + 5 := toNat_ofNat_of_lt (by omega)
  have acc : (BitVec.ofNat 12 (32 * s.dAcc.toNat + (lutValue x[s.i.toNat]).toNat)).toNat =
      32 * s.dAcc.toNat + (lutValue x[s.i.toNat]).toNat := toNat_ofNat_of_lt (by omega)
  refine ⟨run.next stepped rfl, output, toNat_ofNat_of_lt (by omega), more, fun c mem => ?_, ?_, ?_, ?_, next, due,
    ⟨out.next, out.read⟩⟩
  · rw [List.take_succ_eq_append_getElem inText, List.mem_append, List.mem_singleton] at mem
    rcases mem with before | rfl
    · exact validBefore c before
    · exact valid
  · show 8 * o + (BitVec.ofNat 4 (s.dCnt.toNat + 5)).toNat = _
    omega
  · exact cnt.trans_le (by omega)
  · show (BitVec.ofNat 12 _).toNat = fieldValue _ _ (BitVec.ofNat 4 (s.dCnt.toNat + 5)).toNat
    rw [acc, cnt, fieldValue_add, bits, fieldValue_contentBits_getD more, List.getD_eq_getElem _ _ inText, held]
    omega

/-- With eight bits held, D_LOAD goes to D_EXTRACT, which gives a byte out: the loop goes on, or this was the last
byte. -/
theorem DecodeLoop.extract (loop : DecodeLoop s₀ x f i o s) (phase : s.seq = .dLoad) (eight : 8 ≤ s.dCnt.toNat) :
    (o + 1 < 5 * contentLength x / 8 ∧ ∃ t, BusyRun 2 s t ∧ t.seq = .dLoad ∧ DecodeLoop s₀ x f i (o + 1) t) ∨
    (o + 1 = 5 * contentLength x / 8 ∧ ∃ u, BusyRun 2 s u ∧ Succeeded s₀ (decodedBytes x) u ∧ u.i.toNat = i ∧
      u.dCnt.toNat = s.dCnt.toNat - 8 ∧
      u.dAcc.toNat = fieldValue (contentBits x) (8 * (o + 1)) (s.dCnt.toNat - 8)) := by
  have content := loop.content_fits
  obtain ⟨run, output, taken, inside, valid, bits, few, held, next, due, out⟩ := loop
  have toExtract := (engineStep_dLoad phase).trans (stepDLoad_of_eight eight)
  have first := run.busyRun phase toExtract
  have run' := run.next toExtract rfl
  have room : s.o.toNat < obufDepth s.depth := by
    unfold obufDepth ceilDiv
    omega
  have stepped : engineStep { s with seq := .dExtract } = _ :=
    stepDExtract_of_eight eight (show s.dAcc.toNat < 2 ^ s.dCnt.toNat by rw [held]; exact fieldValue_lt _ _ _) room
  have last : s.o.toNat + 1 = s.ol.toNat ↔ o + 1 = 5 * contentLength x / 8 := by rw [next, output]
  have cnt : (BitVec.ofNat 4 (s.dCnt.toNat - 8)).toNat = s.dCnt.toNat - 8 :=
    toNat_ofNat_of_lt ((Nat.sub_le _ _).trans_lt s.dCnt.isLt)
  have acc : (BitVec.ofNat 12 (s.dAcc.toNat % 2 ^ (s.dCnt.toNat - 8))).toNat =
      fieldValue (contentBits x) (8 * (o + 1)) (s.dCnt.toNat - 8) := by
    rw [toNat_ofNat_of_lt ((Nat.mod_le _ _).trans_lt s.dAcc.isLt), held, fieldValue_mod _ _ eight]
    rfl
  have byte : (decodedBytes x)[o]'(by rwa [length_decodedBytes]) =
      BitVec.ofNat 8 (s.dAcc.toNat / 2 ^ (s.dCnt.toNat - 8)) := by
    rw [getElem_decodedBytes, held, fieldValue_div _ _ eight]
  have place := toNat_next_output room
  have written {t : State} (next : t.o = BitVec.ofNat 15 (s.o.toNat + 1))
      (obuf : t.obuf = s.obuf.write s.o.toNat (BitVec.ofNat 8 (s.dAcc.toNat / 2 ^ (s.dCnt.toNat - 8)))) :
      Written s₀ ((decodedBytes x).take (o + 1)) t :=
    out.take_succ (by rwa [length_decodedBytes]) (next ▸ place) (byte ▸ obuf)
  by_cases ends : o + 1 = 5 * contentLength x / 8
  · rw [if_pos (last.mpr ends)] at stepped
    have all : (decodedBytes x).take (o + 1) = decodedBytes x :=
      List.take_of_length_le (by rw [length_decodedBytes, ends])
    have out' := written (t := completeOk s.ol.toNat (State.extracted { s with seq := .dExtract })) rfl rfl
    rw [all] at out'
    refine .inr ⟨ends, _, first.trans (run'.busyRun rfl stepped), ⟨run'.completed rfl stepped, ?_, out'.read⟩, taken,
      cnt, acc⟩
    rw [length_decodedBytes, ← output]
    exact toNat_ofNat_of_lt (s.ol.isLt.trans (by norm_num))
  · rw [if_neg (mt last.mp ends)] at stepped
    refine .inl ⟨by omega, _, first.trans (run'.busyRun rfl stepped), rfl, ?_⟩
    refine ⟨run'.next stepped rfl, output, taken, inside, valid, ?_, ?_, ?_, place.trans (by rw [next]), by omega,
      written rfl rfl⟩
    · show 8 * (o + 1) + (BitVec.ofNat 4 (s.dCnt.toNat - 8)).toNat = _
      omega
    · exact cnt.trans_le (by omega)
    · show (BitVec.ofNat 12 _).toNat = fieldValue _ _ (BitVec.ofNat 4 (s.dCnt.toNat - 8)).toNat
      rw [acc, cnt]

/-- The loop fails at the first character outside the alphabet, or gives out all bytes with a residue of 0
(42_decoder.md R174). By induction over the symbols and bytes left. -/
theorem DecodeLoop.finish (checked : Checked x f) (m : Nat) (phase : s.seq = .dLoad) (loop : DecodeLoop s₀ x f i o s)
    (left : contentLength x - i + (5 * contentLength x / 8 - o) = m) :
    ∃ k u, BusyRun k s u ∧
      ((k = contentLength x - i + 2 * (5 * contentLength x / 8 - o) ∧ Succeeded s₀ (decodedBytes x) u ∧
          (∀ c ∈ x.take (contentLength x), lutValid c = true) ∧ u.dAcc = 0#12 ∧
          u.dCnt.toNat = 5 * contentLength x % 8 ∧ u.i.toNat = contentLength x) ∨
        (k ≤ contentLength x - i + 2 * (5 * contentLength x / 8 - o) ∧ Failed s₀ .invalidCharacter u ∧
          ∃ c ∈ x.take (contentLength x), lutValid c = false)) := by
  induction m generalizing s i o with
  | zero =>
    have due := loop.due
    omega
  | succ m ih =>
    have due := loop.due
    have bits := loop.bits
    have few := loop.few
    have inside := loop.inside
    have tail := checked.tail
    rcases Nat.lt_or_ge s.dCnt.toNat 8 with load | eight
    · have more : i < contentLength x := by omega
      have inText := more.trans_le (contentLength_le x)
      cases valid : lutValid x[i] with
      | false =>
        obtain ⟨u, step, failed⟩ := loop.load_fails phase load inText valid
        refine ⟨1, u, step, .inr ⟨by omega, failed, x[i], ?_, valid⟩⟩
        exact List.mem_take_iff_getElem.mpr ⟨i, lt_min more inText, rfl⟩
      | true =>
        obtain ⟨t, step, phase', loop'⟩ := loop.load phase load more inText valid
        obtain ⟨k, u, rest, result⟩ := ih phase' loop' (by omega)
        refine ⟨1 + k, u, step.trans rest, result.imp ?_ ?_⟩
        · exact fun ⟨steps, done⟩ => ⟨by omega, done⟩
        · exact fun ⟨steps, done⟩ => ⟨by omega, done⟩
    · rcases loop.extract phase eight with ⟨more, t, step, phase', loop'⟩ | ⟨ends, u, step, ok, taken, cnt, acc⟩
      · obtain ⟨k, u, rest, result⟩ := ih phase' loop' (by omega)
        refine ⟨2 + k, u, step.trans rest, result.imp ?_ ?_⟩
        · exact fun ⟨steps, done⟩ => ⟨by omega, done⟩
        · exact fun ⟨steps, done⟩ => ⟨by omega, done⟩
      · have all : i = contentLength x := by omega
        have residue : s.dCnt.toNat - 8 = 5 * contentLength x % 8 := by omega
        have zero := checked.zero
        have place : 8 * (o + 1) = 5 * contentLength x - 5 * contentLength x % 8 := by omega
        rw [tailBits_eq (by omega) (by omega)] at zero
        rw [residue, place, zero] at acc
        exact ⟨2, u, step, .inl ⟨by omega, ok, all ▸ loop.valid, BitVec.eq_of_toNat_eq acc, by omega, by omega⟩⟩

end Loop

/-! ## The checks before the loop, and the whole run (42_decoder.md R162 to R166, R178) -/

section Checks
variable {s₀ s : State} {x : List Byte} {f : Bool}

/-- The state after the scan: P is the content length. -/
structure Scanned (s₀ : State) (x : List Byte) (f : Bool) (s : State) : Prop where
  run : Started s₀ x f s
  text : x ≠ []
  content : s.p.toNat = contentLength x
  obuf : s.obuf = s₀.obuf

/-- The state after D_ACCOUNT: OL and TL are the quotient and the remainder of the content's bits. -/
structure Accounted (s₀ : State) (x : List Byte) (f : Bool) (s : State) : Prop extends Scanned s₀ x f s where
  output : s.ol.toNat = 5 * contentLength x / 8
  rest : s.tl.toNat = 5 * contentLength x % 8
  nonempty : 5 * contentLength x / 8 ≠ 0
  tail : 5 * contentLength x % 8 < 5

/-- The next step ends the command with the cause `c`, which is the one the closed form gives. -/
def FailsNext (s₀ : State) (x : List Byte) (f : Bool) (c : Cause) (s : State) : Prop :=
  ∃ u, BusyRun 1 s u ∧ Failed s₀ c u ∧ decodeText x f = .error c

theorem Scanned.next {t : State} (scanned : Scanned s₀ x f s) (h : engineStep s = .next t)
    (status : t.status = s.status) (p : t.p = s.p) (obuf : t.obuf = s.obuf) : Scanned s₀ x f t :=
  ⟨scanned.run.next h status, scanned.text, p ▸ scanned.content, obuf ▸ scanned.obuf⟩

/-- D_ACCOUNT (42_decoder.md R162). -/
theorem Scanned.account (scanned : Scanned s₀ x f s) (phase : s.seq = .dAccount) :
    (∃ c, (c = .tooShort ∨ c = .redundantTrailingSymbol) ∧ FailsNext s₀ x f c s) ∨
    ∃ t, BusyRun 1 s t ∧ t.seq = .dTail ∧ Accounted s₀ x f t := by
  have run := scanned.run
  have content := scanned.content
  have decoded := decodeText_of_text scanned.text f
  have fits : s.p.toNat ≤ s.depth.val := content.trans_le ((contentLength_le x).trans run.fits)
  have ol : s.accounted.ol.toNat = 5 * contentLength x / 8 := content ▸ toNat_ol_accounted fits
  have tl : s.accounted.tl.toNat = 5 * contentLength x % 8 := content ▸ toNat_tl_accounted s
  have stepped := (engineStep_dAccount phase).trans stepDAccount_eq
  rw [ol, tl] at stepped
  by_cases short : 5 * contentLength x / 8 = 0
  · rw [if_pos short] at stepped decoded
    exact .inl ⟨_, .inl rfl, _, run.busyRun phase stepped, run.failed rfl stepped, decoded⟩
  rw [if_neg short] at stepped decoded
  by_cases redundant : 5 ≤ 5 * contentLength x % 8
  · rw [if_pos redundant] at stepped decoded
    exact .inl ⟨_, .inr rfl, _, run.busyRun phase stepped, run.failed rfl stepped, decoded⟩
  rw [if_neg redundant] at stepped
  exact .inr ⟨_, run.busyRun phase stepped, rfl, scanned.next stepped rfl rfl rfl, ol, tl, short,
    Nat.not_le.mp redundant⟩

/-- D_TAIL (42_decoder.md R164). -/
theorem Accounted.checkTail (accounted : Accounted s₀ x f s) (phase : s.seq = .dTail) :
    (∃ c, (c = .invalidCharacter ∨ c = .nonzeroTailBits) ∧ FailsNext s₀ x f c s) ∨
    (lutValid (x.getD (contentLength x - 1) 0) = true ∧
      (lutValue (x.getD (contentLength x - 1) 0)).toNat % 2 ^ (5 * contentLength x % 8) = 0 ∧
      ∃ t, BusyRun 1 s t ∧ t.seq = .dPadChk ∧ Accounted s₀ x f t) := by
  have ⟨scanned, output, rest, nonempty, tail⟩ := accounted
  have run := scanned.run
  have content := scanned.content
  have decoded := decodeText_of_text scanned.text f
  have le := contentLength_le x
  have read : s.ibuf.read (s.p.toNat - 1) = some (x.getD (contentLength x - 1) 0) := by
    rw [content, List.getD_eq_getElem _ _ (by omega)]
    exact run.read _
  have fits := run.fits
  have stepped := (engineStep_dTail phase).trans (stepDTail_of_read (by omega) read)
  rw [rest] at stepped
  rw [if_neg nonempty, if_neg (Nat.not_le.mpr tail)] at decoded
  by_cases invalid : lutValid (x.getD (contentLength x - 1) 0) = false
  · rw [if_pos invalid] at stepped decoded
    exact .inl ⟨_, .inl rfl, _, run.busyRun phase stepped, run.failed rfl stepped, decoded⟩
  rw [if_neg invalid] at stepped decoded
  by_cases nonzero : (lutValue (x.getD (contentLength x - 1) 0)).toNat % 2 ^ (5 * contentLength x % 8) ≠ 0
  · rw [if_pos nonzero] at stepped decoded
    exact .inl ⟨_, .inr rfl, _, run.busyRun phase stepped, run.failed rfl stepped, decoded⟩
  rw [if_neg nonzero] at stepped
  exact .inr ⟨by simpa using invalid, not_not.mp nonzero, _, run.busyRun phase stepped, rfl,
    scanned.next stepped rfl rfl rfl, output, rest, nonempty, tail⟩

/-- D_PADCHK (42_decoder.md R166): the last check before the loop. -/
theorem Accounted.checkPadding (accounted : Accounted s₀ x f s) (phase : s.seq = .dPadChk)
    (last : lutValid (x.getD (contentLength x - 1) 0) = true)
    (zero : (lutValue (x.getD (contentLength x - 1) 0)).toNat % 2 ^ (5 * contentLength x % 8) = 0) :
    FailsNext s₀ x f .invalidPaddingLength s ∨
    (Checked x f ∧ ∃ t, BusyRun 1 s t ∧ t.seq = .dLoopInit ∧ Accounted s₀ x f t) := by
  have ⟨scanned, output, rest, nonempty, tail⟩ := accounted
  have run := scanned.run
  have goesOn (stepped : engineStep s = .next { s with seq := .dLoopInit }) :
      ∃ t, BusyRun 1 s t ∧ t.seq = .dLoopInit ∧ Accounted s₀ x f t :=
    ⟨_, run.busyRun phase stepped, rfl, scanned.next stepped rfl rfl rfl, output, rest, nonempty, tail⟩
  cases strict : f with
  | false =>
    subst strict
    have stepped := (engineStep_dPadChk phase).trans (stepDPadChk_of_lenient run.flag)
    exact .inr ⟨⟨scanned.text, nonempty, tail, last, zero, nofun⟩, goesOn stepped⟩
  | true =>
    subst strict
    have stepped := (engineStep_dPadChk phase).trans (stepDPadChk_of_strict run.flag)
    rw [run.length, scanned.content, output] at stepped
    by_cases filled : x.length - contentLength x = (padTabM (missingBytes (5 * contentLength x / 8))).toNat
    · rw [if_pos filled] at stepped
      exact .inr ⟨⟨scanned.text, nonempty, tail, last, zero, fun _ => filled⟩, goesOn stepped⟩
    · rw [if_neg filled] at stepped
      have decoded := decodeText_of_text scanned.text true
      rw [if_neg nonempty, if_neg (Nat.not_le.mpr tail), if_neg (ne_false_of_eq_true last), if_neg (not_not.mpr zero),
        if_pos ⟨rfl, filled⟩] at decoded
      exact .inl ⟨_, run.busyRun phase stepped, run.failed rfl stepped, decoded⟩

/-- D_LOOPINIT (42_decoder.md R170). -/
theorem Accounted.startLoop (accounted : Accounted s₀ x f s) (phase : s.seq = .dLoopInit) :
    ∃ t, BusyRun 1 s t ∧ t.seq = .dLoad ∧ DecodeLoop s₀ x f 0 0 t := by
  have ⟨⟨run, _, _, obuf⟩, output, rest, nonempty, tail⟩ := accounted
  have stepped : engineStep s = .next _ := engineStep_dLoopInit phase
  exact ⟨_, run.busyRun phase stepped, rfl,
    run.next stepped rfl, output, rfl, Nat.zero_le _, nofun, rfl, Nat.zero_le _, rfl, rfl, Nat.pos_of_ne_zero nonempty,
    written_nil rfl obuf⟩

/-- The loop's part of the run, with the steps and the cause of the whole. -/
theorem DecodeLoop.outcome (loop : DecodeLoop s₀ x f 0 0 s) (phase : s.seq = .dLoad) (checked : Checked x f) :
    ∃ k u, BusyRun k s u ∧ DecodeOutcome s₀ x f (x.length - contentLength x + 6 + k) u := by
  have le := contentLength_le x
  obtain ⟨k, u, run, ⟨steps, ok, valid, acc, cnt, loaded⟩ | ⟨steps, failed, invalid⟩⟩ := loop.finish checked _ phase rfl
  · refine ⟨k, u, run, .succeeded checked.text ?_ (by omega) ok acc cnt loaded⟩
    exact ⟨checked.nonempty, checked.tail, valid, checked.zero, checked.padding⟩
  · refine ⟨k, u, run, .failed checked.text _ (checked.decodeText_of_invalid invalid) ⟨fun last => ?_, by omega⟩ failed⟩
    exact absurd last (ne_false_of_eq_true checked.last)

/-- The run from D_ACCOUNT, after the steps of D_INIT and D_SCAN. -/
theorem Scanned.outcome (scanned : Scanned s₀ x f s) (phase : s.seq = .dAccount) :
    ∃ k u, BusyRun k s u ∧ DecodeOutcome s₀ x f (1 + (x.length - contentLength x + 1) + k) u := by
  have text := scanned.text
  rcases scanned.account phase with ⟨c, cause, u, run, failed, decoded⟩ | ⟨s₁, run₁, phase₁, accounted₁⟩
  · refine ⟨1, u, run, .failed text c decoded ?_ failed⟩
    rcases cause with rfl | rfl
    all_goals
      show _ = x.length - contentLength x + 3
      omega
  rcases accounted₁.checkTail phase₁ with
    ⟨c, cause, u, run, failed, decoded⟩ | ⟨last, zero, s₂, run₂, phase₂, accounted₂⟩
  · refine ⟨1 + 1, u, run₁.trans run, .failed text c decoded ?_ failed⟩
    rcases cause with rfl | rfl
    · exact ⟨fun _ => by omega, by omega⟩
    · show _ = x.length - contentLength x + 4
      omega
  rcases accounted₂.checkPadding phase₂ last zero with
    ⟨u, run, failed, decoded⟩ | ⟨checked, s₃, run₃, phase₃, accounted₃⟩
  · refine ⟨1 + 1 + 1, u, (run₁.trans run₂).trans run, .failed text _ decoded ?_ failed⟩
    show _ = x.length - contentLength x + 5
    omega
  obtain ⟨s₄, run₄, phase₄, loop⟩ := accounted₃.startLoop phase₃
  obtain ⟨k, u, run, outcome⟩ := loop.outcome phase₄ checked
  refine ⟨1 + 1 + 1 + 1 + k, u, (((run₁.trans run₂).trans run₃).trans run₄).trans run, ?_⟩
  rwa [show 1 + (x.length - contentLength x + 1) + (1 + 1 + 1 + 1 + k) = x.length - contentLength x + 6 + k by omega]

/-- The whole run of a started DECODE. -/
theorem decode_completes (run : Started s₀ x f s) (phase : s.seq = .dInit) (obuf : s.obuf = s₀.obuf) :
    ∃ k u, BusyRun k s u ∧ DecodeOutcome s₀ x f k u := by
  by_cases text : x = []
  · have stepped := (engineStep_dInit phase).trans (stepDInit_of_empty (by rw [run.length, text]; rfl))
    refine ⟨1, _, run.busyRun phase stepped, .empty text rfl ⟨run.completed rfl stepped, rfl, fun j => ?_⟩⟩
    rw [completeOk_obuf, obuf]
    rfl
  · have long : s.n.toNat ≠ 0 := fun zero => text (List.length_eq_zero_iff.mp (run.length ▸ zero))
    have stepped := (engineStep_dInit phase).trans (stepDInit_of_text long)
    obtain ⟨t, scan, phase', run', content, obuf'⟩ :=
      scan_finds_content (run.next stepped rfl) rfl x.length run.length le_rfl (by rw [List.take_length]) obuf
    obtain ⟨k, u, rest, outcome⟩ := Scanned.outcome ⟨run', text, content, obuf'⟩ phase'
    exact ⟨_, u, ((run.busyRun phase stepped).trans scan).trans rest, outcome⟩

end Checks

/-! ## What the outcome says of the closed form -/

section Outcome
variable {s₀ u : State} {x : List Byte} {f : Bool} {k : Nat}

/-- Whatever the outcome, the command has ended. -/
theorem DecodeOutcome.ended (outcome : DecodeOutcome s₀ x f k u) : ∃ st, Ended s₀ st u ∧ st.busy = false := by
  cases outcome with
  | empty text steps ok => exact ⟨_, ok.ended, rfl⟩
  | failed text c decoded steps failed => exact ⟨_, failed.ended, rfl⟩
  | succeeded text accepts steps ok acc cnt loaded => exact ⟨_, ok.ended, rfl⟩

/-- The command succeeded with the bytes of the closed form, or failed with its cause. -/
theorem DecodeOutcome.decodeText (outcome : DecodeOutcome s₀ x f k u) :
    (∃ y, Machine.decodeText x f = .ok y ∧ Succeeded s₀ y u) ∨
    (∃ c, Machine.decodeText x f = .error c ∧ DecodeFailsAfter x c k ∧ Failed s₀ c u) := by
  cases outcome with
  | empty text steps ok =>
    subst text
    exact .inl ⟨[], rfl, ok⟩
  | failed text c decoded steps failed => exact .inr ⟨c, decoded, steps, failed⟩
  | succeeded text accepts steps ok acc cnt loaded => exact .inl ⟨_, decodeText_of_accepts text accepts, ok⟩

theorem DecodeOutcome.steps_le (outcome : DecodeOutcome s₀ x f k u) :
    k ≤ x.length + 6 + 2 * (5 * contentLength x / 8) := by
  cases outcome with
  | empty text steps ok => omega
  | failed text c decoded steps failed => exact steps.le
  | succeeded text accepts steps ok acc cnt loaded => exact steps.le

/-- A cause in STATUS is that of a failure. -/
theorem DecodeOutcome.failsAfter_of_cause (outcome : DecodeOutcome s₀ x f k u) {c : Cause} (cause : u.status.cause = c)
    (error : c ≠ .none) : DecodeFailsAfter x c k := by
  subst cause
  cases outcome with
  | empty text steps ok => exact absurd (by rw [ok.ended.status]) error
  | failed text c decoded steps failed => rwa [failed.ended.status]
  | succeeded text accepts steps ok acc cnt loaded => exact absurd (by rw [ok.ended.status]) error

end Outcome

/-- DECODE of an input in range starts (40_commands.md R106). -/
theorem exec_decode_started {s₀ : State} {x : List Byte} (f : Bool) (idle : s₀.status.busy = false)
    (turns : s₀.turns = []) (given : s₀.HasInput x) :
    ∃ s, exec (.decode f false) s₀ = .next s ∧ Started s₀ x f s ∧ s.seq = .dInit ∧ s.obuf = s₀.obuf := by
  have ⟨length, fits, _⟩ := given
  obtain ⟨-, s, executed, latched, frame, -⟩ := Proofs.encodeAndDecodeStart.2 f s₀ idle (length.trans_le fits)
  refine ⟨s, executed, ⟨given, ?_, ?_, latched.trans length, ?_, ?_, ?_, ?_, ?_, ?_⟩, ?_, ?_⟩ <;> rw [frame]
  exact turns

/-- A DECODE from its CMD write to its completion. -/
theorem exec_decode_completes {s₀ : State} {x : List Byte} (f : Bool) (idle : s₀.status.busy = false)
    (turns : s₀.turns = []) (given : s₀.HasInput x) :
    ∃ s k u, exec (.decode f false) s₀ = .next s ∧ s.CompletesIn k u ∧ DecodeOutcome s₀ x f k u := by
  obtain ⟨s, executed, run, phase, obuf⟩ := exec_decode_started f idle turns given
  obtain ⟨k, u, steps, outcome⟩ := decode_completes run phase obuf
  obtain ⟨st, ended, free⟩ := outcome.ended
  exact ⟨s, k, u, executed, steps.completesIn (by rw [ended.status, free]), outcome⟩

/-- Every completion of a DECODE is that one. -/
theorem decodeOutcome_of_completesIn {s₀ s u : State} {x : List Byte} {f : Bool} {k : Nat}
    (idle : s₀.status.busy = false) (turns : s₀.turns = []) (given : s₀.HasInput x)
    (executed : exec (.decode f false) s₀ = .next s) (completes : s.CompletesIn k u) : DecodeOutcome s₀ x f k u := by
  obtain ⟨s', k', u', executed', completes', outcome⟩ := exec_decode_completes f idle turns given
  rw [executed] at executed'
  cases executed'
  obtain ⟨rfl, rfl⟩ := completesIn_unique completes completes'
  exact outcome

end Sys2Proof.Machine

namespace Sys2Proof.Proofs

open Sys2Proof Sys2Proof.Machine

/-- Settles O54: the run of a started DECODE, by what it comes to. -/
theorem decodeComputesClosedForm : Obligations.DecodeComputesClosedForm := by
  intro s x f idle turns given
  obtain ⟨t, k, u, executed, completes, outcome⟩ := exec_decode_completes f idle turns given
  obtain ⟨st, ended, -⟩ := outcome.ended
  refine ⟨t, k, u, executed, completes, outcome.steps_le, ended.seq, ended.ibuf, ended.inLen, ended.program,
    ended.returned, fun y decoded => ?_, fun c decoded => ?_⟩
  all_goals rcases outcome.decodeText with ⟨y', h, ok⟩ | ⟨c', h, -, failed⟩ <;> rw [decoded] at h <;> cases h
  · exact ⟨ok.ended.status, ok.hasOutput, fun j => ok.read_above⟩
  · exact ⟨failed.ended.status, failed.outLen⟩

/-- Settles O55: a DECODE completes once, and the steps of its outcome are counted along the run. -/
theorem decodeStepCounts : Obligations.DecodeStepCounts := by
  intro s t u x f k idle turns given executed completes
  have outcome := decodeOutcome_of_completesIn idle turns given executed completes
  have fails {c : Cause} (cause : u.status.cause = c) (error : c ≠ .none) := outcome.failsAfter_of_cause cause error
  refine ⟨fun empty => ?_, fun y text decoded => ?_, ?_, fun cause => fails cause (by decide),
    fun cause => fails cause (by decide), fun cause => (fails cause (by decide)).1,
    fun cause => (fails cause (by decide)).2⟩
  · cases outcome with
    | empty text steps ok => exact steps
    | failed text | succeeded text => exact absurd empty text
  · cases outcome with
    | empty empty => exact absurd empty text
    | failed _ c failing => rw [decoded] at failing; cases failing
    | succeeded _ accepts steps =>
      obtain ⟨-, rfl⟩ := (decodeText_eq_ok_iff text).mp decoded
      rw [steps, length_decodedBytes]
  · rintro (cause | cause)
    · exact fails cause (by decide)
    · exact fails cause (by decide)

/-- Settles O56: the loop has loaded all symbols, and the bits the bytes leave over are those that D_TAIL has
checked. -/
theorem residueIsZeroAtCompletion : Obligations.ResidueIsZeroAtCompletion := by
  intro s t u x f k idle turns given text executed completes noError
  cases decodeOutcome_of_completesIn idle turns given executed completes with
  | empty empty => exact absurd empty text
  | failed _ c decoded steps failed => simp [failed.ended.status] at noError
  | succeeded _ accepts steps ok acc cnt loaded => exact ⟨acc, cnt, loaded⟩

/-- Settles O59: a DECODE succeeds with what the closed form gives, and that is canonical. -/
theorem acceptanceIsCanonicity : Obligations.AcceptanceIsCanonicity := by
  intro s v u t x f k idle turns given text executed completes
  rw [← decodeText_eq_ok_iff_encodeText text]
  rcases (decodeOutcome_of_completesIn idle turns given executed completes).decodeText with
    ⟨y, decoded, ok⟩ | ⟨c, decoded, -, failed⟩ <;> rw [decoded]
  · constructor
    · rintro ⟨-, output⟩
      rw [hasOutput_unique output ok.hasOutput]
    · intro same
      cases same
      exact ⟨by rw [ok.ended.status], ok.hasOutput⟩
  · constructor
    · rintro ⟨noError, -⟩
      simp [failed.ended.status] at noError
    · exact nofun

end Sys2Proof.Proofs
